-- ==== Sys2Proof/Word.lean ====
section
/-! DEFINITION. The values a register, a memory element and a host transaction hold (spec 10 R11, 30 R66).

The rules are stated over exact real numbers (00 R5, NUM_REAL).  A real number is no plain data, so a Scalar is held as
a CLOSED TERM that denotes it: a rational numeral, `pi`, arithmetic on terms, and the sine of a term.  What a term
denotes is `Scalar.eval` (Machine/Num.lean).  An instance with a finite number format (parameter NUM) holds the term of
the format's own operations (log entry 20).  A Bit that a demodulator decides by comparing two Scalars is held as the
term of that comparison for the same reason; what it denotes is `Bit.val`.  Log entries 1 and 3. -/

namespace Sys2Proof

/-- Eight bits, `bits[7:0]` (10 R11). -/
abbrev Byte := BitVec 8

/-- The four buffer memories (10 R23). -/
inductive MemId
  | tx | rx | bi | bo
  deriving DecidableEq, Repr

/-- The name of one value the spec leaves unspecified: element `i` of memory `m` under the memory's generation `gen`
(nothing has given it a value since), or the `k`-th value a host read returned (20 R42, 10 R31). -/
inductive Free
  | elem (m : MemId) (gen i : Nat)
  | read (k : Nat)
  deriving DecidableEq, Repr

/-- The parameter `NUM` (00 R5): the exact real numbers, or a finite format, of whose operations nothing is known but
that they are functions of their operands (93 U8). -/
inductive NumDomain
  | real | finite
  deriving DecidableEq, Repr

/-- The parameter `PHW` (00 R5): an exact phase accumulator, or one of `n` bits. -/
inductive PhaseWidth
  | exact
  | bits (n : Nat)
  deriving DecidableEq, Repr

/-- The operations of a finite number format (00 R5). -/
inductive FinOp
  | add | sub | mul | div | abs | sin | cos | pi
  deriving DecidableEq, Repr

mutual
/-- A term for a real number (10 R11 `Scalar`).  `over` is division, `absV`, `maxV`, `fracV` are `abs`, `max` and
`frac` of 00 R6, `sinTurns a` is `sin(2*pi*a)`, `sel c a b` is `a` when the bit `c` is 1 and `b` otherwise.  `free`
names an unspecified value.  `fin op a b` is an operation of a finite format (`b` is 0 where it has one operand),
`finFloor a` the format's `floor` as a Scalar, `phase n a` the phase `a` held in `n` bits.  `taperw m j`, `winb L i` are
the values of a `TAPERW`, `WINB` other than the default, and `bpf lo hi fs L i j` is the weight of input sample `j` in
output sample `i` of the band-pass filter (44 R129). -/
inductive Scalar
  | rat (q : Rat)
  | pi
  | plus (a b : Scalar)
  | minus (a b : Scalar)
  | times (a b : Scalar)
  | over (a b : Scalar)
  | absV (a : Scalar)
  | maxV (a b : Scalar)
  | fracV (a : Scalar)
  | sinTurns (a : Scalar)
  | sel (c : Bit) (a b : Scalar)
  | free (f : Free)
  | fin (op : FinOp) (a b : Scalar)
  | finFloor (a : Scalar)
  | phase (n : Nat) (a : Scalar)
  | taperw (m j : Nat)
  | winb (len i : Nat)
  | bpf (lo hi fs : Scalar) (len i j : Nat)
  deriving DecidableEq, Repr
/-- A term for a bit (10 R11 `Bit`): 0, 1, an unspecified bit, `a < b`, `a = b`, or the hysteresis decision of 44 R132
on the ratio `r` with thresholds `hi`, `lo` and previous bit `last`, each by the comparisons of a number domain. -/
inductive Bit
  | zero
  | one
  | free (f : Free)
  | lt (num : NumDomain) (a b : Scalar)
  | eq (num : NumDomain) (a b : Scalar)
  | hyst (num : NumDomain) (r hi lo : Scalar) (last : Bit)
  deriving DecidableEq, Repr
end

/-- A value of a host transaction (30 R66): a value of one of the four types, or a value of which the spec states not
even the type (what a read of a reserved register number returns, 10 R31). -/
inductive Value
  | scalar (x : Scalar)
  | count (n : Nat)
  | bit (b : Bit)
  | byte (v : Byte)
  | unspecified (f : Free)
  deriving DecidableEq, Repr

/-- The four kinds of host transaction (30 R66). -/
inductive Txn
  | wr (r : Byte) (v : Value)
  | rd (r : Byte)
  | st (m : MemId) (i : Nat) (v : Value)
  | ld (m : MemId) (i : Nat)
  deriving DecidableEq, Repr

/-- The registers of the register map (10 R11). -/
inductive Reg
  | cmd | status | cause
  | f0 | f1 | symdur | fs | amp | bw | rhi | rlo
  | sync | tapern | eps
  | ofreq | odur | oamp | ophase | shpn
  | txlen | rxlen | bilen | bolen
  deriving DecidableEq, Repr

/-- The type of a register's or an element's value (10 R11). -/
inductive Kind
  | scalar | count | bit | byte
  deriving DecidableEq, Repr

/-- The cause codes (60 R156).  `none` is code 0, a command that completed. -/
inductive Cause
  | none | cfgWindow | cfgFreq | cfgRatio | cfgBand | operand | capacity | illegalCmd
  deriving DecidableEq, Repr

end Sys2Proof
end

