-- ==== Sys2Proof/Config.lean ====
section
/-! DEFINITION. What an implementation fixes (00 R5) and what the spec leaves free.

The fixed parameters are plain numbers.  The open parameters that are plain data are the fields of `Params`, one value
of which State carries (log entry 4).  The open parameters that are functions, and the values the spec does not
specify, are constants with no body: nothing can be proved of their values. -/

namespace Sys2Proof.Config

/-- `SYNC`, the synchronization pattern, read from bit 7 down (00 R5, 10 R21). -/
def syncWord : Byte := 0xAA#8

/-- `TAPER_N`, the taper length the Modulator passes to the Symbol Shaper (00 R5). -/
def taperN : Nat := 256

/-- `MINWIN`, the least legal number of samples in one window (00 R5, 90 C1). -/
def minWin : Nat := 1

/-- `FLOOR_HZ`, the lower bound of every pass-band edge (00 R5, 44 R128). -/
def floorHz : Rat := mkRat 50 1

/-- `WINB_MIN`: the Basic Demodulator tapers a window only when it is longer than this (00 R5, 43 R111). -/
def winbMin : Nat := 4

/-- The default of `EPS`, 10^-12 (00 R5). -/
def epsDefault : Rat := mkRat 1 1000000000000

/-- What an unspecified Scalar is: any real number, one for each name (20 R42, 93 U10).  Log entry 8. -/
opaque freeScalar : Free → ℝ

/-- What an unspecified Bit is: 0 or 1, one for each name (20 R42, 93 U10).  Log entry 8. -/
opaque freeBit : Free → Bool

/-- A `TAPERW` other than the default: any function of the taper length and the sample (00 R5, 41 R91).  Log entry 17. -/
opaque taperw : Nat → Nat → ℝ

/-- A `WINB` other than the default: any function of the window length and the sample (00 R5, 43 R111).  Log entry 17. -/
opaque winb : Nat → Nat → ℝ

/-- `BPF`: the weight of input sample `j` in output sample `i` of a window of `len` samples, for the band `lo`, `hi`
and the sample rate `fs`.  A filter that meets 44 R129 (a), (b), (e) is such a matrix, and every such matrix is
admitted.  Log entry 15. -/
opaque bpf : (lo hi fs : ℝ) → (len i j : Nat) → ℝ

/-- An operation of a finite number format, a function of the operands' values (00 R5, 93 U8).  Log entry 20. -/
opaque finOp : FinOp → ℝ → ℝ → ℝ

/-- `a < b` in a finite number format (93 U8).  Log entry 20. -/
opaque finLt : ℝ → ℝ → Bool

/-- `a = b` in a finite number format (93 U8).  Log entry 20. -/
opaque finEq : ℝ → ℝ → Bool

/-- `floor(a)` in a finite number format (93 U8).  Log entry 20. -/
opaque finFloor : ℝ → Int

/-- The code of a phase in an accumulator of `n` bits; its low `n` bits count in units of `2^-n` turns (00 R5 `PHW`).
Log entry 30. -/
opaque phaseCode : Nat → ℝ → Nat

end Sys2Proof.Config

namespace Sys2Proof

/-- Which window function a parameter `TAPERW` or `WINB` is: the default, the symmetric Hann window (41 R91, 43 R111),
or another one, of which nothing is known. -/
inductive WindowChoice
  | hann | other
  deriving DecidableEq, Repr

/-- Which filter the parameter `BPF` is: the block's own, of which 44 R129 alone is known, or the stand-in `BPF_IDEAL`
of 44 R136. -/
inductive FilterChoice
  | own | ideal
  deriving DecidableEq, Repr

/-- The open parameters of one instance of the block (00 R5).  They are constants of the instance: no step changes
them (log entry 4). -/
structure Params where
  num    : NumDomain
  phw    : PhaseWidth
  txcap  : Nat
  rxcap  : Nat
  bicap  : Nat
  bocap  : Nat
  eps    : Scalar
  taperw : WindowChoice
  winb   : WindowChoice
  bpf    : FilterChoice
  deriving DecidableEq, Repr

/-- The parameters State.reset carries: the capacities 95's conventions ask for, and the defaults of 00 R5.
DESIGN CHOICE, log entry 4. -/
def Params.default : Params where
  num    := .real
  phw    := .exact
  txcap  := 200000
  rxcap  := 200000
  bicap  := 64
  bocap  := 64
  eps    := .rat Config.epsDefault
  taperw := .hann
  winb   := .hann
  bpf    := .own

end Sys2Proof
end

