-- ==== Sys2Proof/Machine/Num.lean ====
section
/-! DEFINITION. The number domain (00 R5, R6, R9): arithmetic on terms, what a term denotes, comparison and `floor`.

Over NUM_REAL every operation folds rational numerals exactly and otherwise builds the term of the operation, so that
the result denotes exactly the operation on the operands' reals: Laws/Num.lean proves it for each.  In a finite format
it builds the term of the format's operation.  `eval` and `val` say what a term denotes.  A check's comparison and a
count's `floor` are those of what the terms denote, always. -/

namespace Sys2Proof

/-! Rational numerals, by numerator and denominator. -/

/-- Sum. -/
def Q.add (p q : Rat) : Rat := mkRat (p.num * q.den + q.num * p.den) (p.den * q.den)

/-- Difference. -/
def Q.sub (p q : Rat) : Rat := mkRat (p.num * q.den - q.num * p.den) (p.den * q.den)

/-- Product. -/
def Q.mul (p q : Rat) : Rat := mkRat (p.num * q.num) (p.den * q.den)

/-- Reciprocal, 0 of 0. -/
def Q.inv (p : Rat) : Rat :=
  if p.num < 0 then mkRat (-p.den) p.num.natAbs else mkRat p.den p.num.natAbs

/-- Quotient. -/
def Q.div (p q : Rat) : Rat := Q.mul p (Q.inv q)

/-- Less than. -/
def Q.lt (p q : Rat) : Bool := decide (p.num * q.den < q.num * p.den)

/-- The greatest integer not above (00 R6). -/
def Q.floor (p : Rat) : Int := p.num / p.den

/-- `frac(v) = v - floor(v)` (00 R6). -/
def Q.frac (p : Rat) : Rat := Q.sub p (mkRat (Q.floor p) 1)

/-- Smaller of two. -/
def Q.min (p q : Rat) : Rat := if Q.lt q p then q else p

/-- Larger of two (00 R6). -/
def Q.max (p q : Rat) : Rat := if Q.lt p q then q else p

/-- Absolute value (00 R6). -/
def Q.abs (p : Rat) : Rat := mkRat p.num.natAbs p.den

/-! What a term denotes. -/

/-- `a < b` in a number domain (00 R9, 93 U8). -/
def NumDomain.Lt : NumDomain → ℝ → ℝ → Prop
  | .real, x, y => x < y
  | .finite, x, y => Config.finLt x y = true

/-- `a = b` in a number domain (00 R9, 93 U8). -/
def NumDomain.Eq : NumDomain → ℝ → ℝ → Prop
  | .real, x, y => x = y
  | .finite, x, y => Config.finEq x y = true

/-- `floor(a)` in a number domain (00 R6, R9, 93 U8). -/
noncomputable def NumDomain.floorOf : NumDomain → ℝ → Int
  | .real, x => ⌊x⌋
  | .finite, x => Config.finFloor x

open Classical in
mutual
/-- The real number a Scalar denotes (00 R5, `NUM_REAL`). -/
noncomputable def Scalar.eval : Scalar → ℝ
  | .rat q => (q : ℝ)
  | .pi => Real.pi
  | .plus a b => a.eval + b.eval
  | .minus a b => a.eval - b.eval
  | .times a b => a.eval * b.eval
  | .over a b => a.eval / b.eval
  | .absV a => |a.eval|
  | .maxV a b => max a.eval b.eval
  | .fracV a => Int.fract a.eval
  | .sinTurns a => Real.sin (2 * Real.pi * a.eval)
  | .sel c a b => if c.val then a.eval else b.eval
  | .free f => Config.freeScalar f
  | .fin op a b => Config.finOp op a.eval b.eval
  | .finFloor a => (Config.finFloor a.eval : ℝ)
  | .phase n a => ((Config.phaseCode n a.eval % 2 ^ n : ℕ) : ℝ) / 2 ^ n
  | .taperw m j => Config.taperw m j
  | .winb len i => Config.winb len i
  | .bpf lo hi fs len i j => Config.bpf lo.eval hi.eval fs.eval len i j
/-- The bit a Bit denotes, `true` for 1. -/
noncomputable def Bit.val : Bit → Bool
  | .zero => false
  | .one => true
  | .free f => Config.freeBit f
  | .lt N a b => decide (N.Lt a.eval b.eval)
  | .eq N a b => decide (N.Eq a.eval b.eval)
  | .hyst N r hi lo last =>
      if N.Lt hi.eval r.eval then true else if N.Lt r.eval lo.eval then false else last.val
end

/-! Arithmetic on terms over the exact reals. -/

/-- A Count as a Scalar. -/
def Scalar.ofNat (n : Nat) : Scalar := .rat (mkRat n 1)

/-- The product with a rational numeral. -/
def Scalar.scale (p : Rat) (x : Scalar) : Scalar :=
  if p.num = 0 then .rat 0
  else if p = 1 then x
  else match x with
    | .rat q => .rat (Q.mul p q)
    | .times (.rat q) y => .times (.rat (Q.mul p q)) y
    | x => .times (.rat p) x

/-- `a + b`. -/
def Scalar.add (a b : Scalar) : Scalar :=
  match a, b with
  | .rat p, .rat q => .rat (Q.add p q)
  | .rat p, b => if p.num = 0 then b else .plus (.rat p) b
  | .plus a (.rat p), .rat q => .plus a (.rat (Q.add p q))
  | a, .rat q => if q.num = 0 then a else .plus a (.rat q)
  | a, b => .plus a b

/-- `a - b`. -/
def Scalar.sub (a b : Scalar) : Scalar :=
  match a, b with
  | .rat p, .rat q => .rat (Q.sub p q)
  | a, .rat q => if q.num = 0 then a else .minus a (.rat q)
  | a, b => .minus a b

/-- `a * b`. -/
def Scalar.mul (a b : Scalar) : Scalar :=
  match a, b with
  | .rat p, .rat q => .rat (Q.mul p q)
  | .rat p, b => Scalar.scale p b
  | a, .rat q => Scalar.scale q a
  | a, b => .times a b

/-- `a / b`. -/
def Scalar.div (a b : Scalar) : Scalar :=
  match a, b with
  | .rat p, .rat q => .rat (Q.div p q)
  | .rat p, b => if p.num = 0 then .rat 0 else .over (.rat p) b
  | a, .rat q => Scalar.scale (Q.inv q) a
  | a, b => .over a b

/-- `abs(a)` (00 R6). -/
def Scalar.abs (a : Scalar) : Scalar :=
  match a with
  | .rat p => .rat (Q.abs p)
  | a => .absV a

/-- `max(a, b)` (00 R6). -/
def Scalar.max (a b : Scalar) : Scalar :=
  match a, b with
  | .rat p, .rat q => .rat (Q.max p q)
  | a, b => .maxV a b

/-- `frac(a)` (00 R6); `frac(frac(x) + q)` is `frac(x + q)`. -/
def Scalar.frac (a : Scalar) : Scalar :=
  match a with
  | .rat p => .rat (Q.frac p)
  | .plus (.fracV x) (.rat q) => .fracV (Scalar.add x (.rat q))
  | a => .fracV a

/-- The twelfths of a turn whose sine is rational: 0, 1/2, 1, 1/2, 0, -1/2, -1, -1/2 at 0, 1, 3, 5, 6, 7, 9 and 11
twelfths. -/
def Q.sinTurnsExact (r : Rat) : Option Rat :=
  if r = 0 then some 0
  else if r = mkRat 1 12 then some (mkRat 1 2)
  else if r = mkRat 1 4 then some 1
  else if r = mkRat 5 12 then some (mkRat 1 2)
  else if r = mkRat 1 2 then some 0
  else if r = mkRat 7 12 then some (mkRat (-1) 2)
  else if r = mkRat 3 4 then some (mkRat (-1) 1)
  else if r = mkRat 11 12 then some (mkRat (-1) 2)
  else none

/-- `sin(2*pi*a)`, the sine of `a` turns; a rational number of turns is first reduced to [0, 1) (log entry 19). -/
def Scalar.sinT (a : Scalar) : Scalar :=
  match a with
  | .rat p =>
    match Q.sinTurnsExact (Q.frac p) with
    | some v => .rat v
    | none => .sinTurns (.rat (Q.frac p))
  | a => .sinTurns a

/-- `cos(2*pi*a)`, a quarter turn ahead of the sine. -/
def Scalar.cosT (a : Scalar) : Scalar := Scalar.sinT (Scalar.add a (.rat (mkRat 1 4)))

/-- `a / (2*pi)`: a phase in radians as turns (40 R83).  A rational multiple of `pi` gives a rational number. -/
def Scalar.turns (a : Scalar) : Scalar :=
  match a with
  | .pi => .rat (mkRat 1 2)
  | .times (.rat q) .pi => .rat (Q.div q (mkRat 2 1))
  | a => Scalar.div a (.times (.rat (mkRat 2 1)) .pi)

/-- The bit 1 when `b`. -/
def Bit.ofBool (b : Bool) : Bit := if b then .one else .zero

/-- The bit 1 when `a < b`. -/
def Bit.ltOf (N : NumDomain) (a b : Scalar) : Bit :=
  match N, a, b with
  | .real, .rat p, .rat q => Bit.ofBool (Q.lt p q)
  | N, a, b => .lt N a b

/-- The bit 1 when `a = b`. -/
def Bit.eqOf (N : NumDomain) (a b : Scalar) : Bit :=
  match N, a, b with
  | .real, .rat p, .rat q => Bit.ofBool (decide (p = q))
  | N, a, b => .eq N a b

/-- The hysteresis decision (44 R132): 1 when `r > hi`, else 0 when `r < lo`, else the previous bit. -/
def Bit.hystOf (N : NumDomain) (r hi lo : Scalar) (last : Bit) : Bit :=
  match N, r, hi, lo with
  | .real, .rat p, .rat h, .rat l =>
    if Q.lt h p then .one else if Q.lt p l then .zero else last
  | N, r, hi, lo => .hyst N r hi lo last

/-- `a` when the bit is 1, `b` otherwise. -/
def Scalar.select (c : Bit) (a b : Scalar) : Scalar :=
  match c with
  | .one => a
  | .zero => b
  | c => .sel c a b

/-! The operations of a number domain: the exact ones above over NUM_REAL, the format's own in a finite format, where
`max` and `frac` are formed from comparison, `floor` and difference as 00 R6 defines them.  In which order a formula's
operations are taken is a DESIGN CHOICE in a finite format, log entry 20. -/

/-- `a + b`. -/
def NumDomain.add (N : NumDomain) (a b : Scalar) : Scalar :=
  match N with
  | .real => Scalar.add a b
  | .finite => .fin .add a b

/-- `a - b`. -/
def NumDomain.sub (N : NumDomain) (a b : Scalar) : Scalar :=
  match N with
  | .real => Scalar.sub a b
  | .finite => .fin .sub a b

/-- `a * b`. -/
def NumDomain.mul (N : NumDomain) (a b : Scalar) : Scalar :=
  match N with
  | .real => Scalar.mul a b
  | .finite => .fin .mul a b

/-- `a / b`. -/
def NumDomain.div (N : NumDomain) (a b : Scalar) : Scalar :=
  match N with
  | .real => Scalar.div a b
  | .finite => .fin .div a b

/-- `abs(a)`. -/
def NumDomain.abs (N : NumDomain) (a : Scalar) : Scalar :=
  match N with
  | .real => Scalar.abs a
  | .finite => .fin .abs a (.rat 0)

/-- `max(a, b)`. -/
def NumDomain.max (N : NumDomain) (a b : Scalar) : Scalar :=
  match N with
  | .real => Scalar.max a b
  | .finite => .sel (.lt .finite a b) b a

/-- `frac(a) = a - floor(a)`. -/
def NumDomain.frac (N : NumDomain) (a : Scalar) : Scalar :=
  match N with
  | .real => Scalar.frac a
  | .finite => .fin .sub a (.finFloor a)

/-- `2*pi` in a finite format. -/
def finTwoPi : Scalar := .fin .mul (.rat (mkRat 2 1)) (.fin .pi (.rat 0) (.rat 0))

/-- `sin(2*pi*a)`, the sine of `a` turns. -/
def NumDomain.sinTurns (N : NumDomain) (a : Scalar) : Scalar :=
  match N with
  | .real => Scalar.sinT a
  | .finite => .fin .sin (.fin .mul finTwoPi a) (.rat 0)

/-- `cos(2*pi*a/b)`. -/
def NumDomain.cosTurns (N : NumDomain) (a b : Scalar) : Scalar :=
  match N with
  | .real => Scalar.cosT (Scalar.div a b)
  | .finite => .fin .cos (.fin .div (.fin .mul finTwoPi a) b) (.rat 0)

/-- `a / (2*pi)`, a phase in radians as turns (40 R83). -/
def NumDomain.turns (N : NumDomain) (a : Scalar) : Scalar :=
  match N with
  | .real => Scalar.turns a
  | .finite => .fin .div a finTwoPi

/-- The sum of a sequence, from its first element. -/
def NumDomain.sum (N : NumDomain) (xs : List Scalar) : Scalar := xs.foldl N.add (.rat 0)

/-- A phase as the accumulator holds it (00 R5 `PHW`, log entry 30). -/
def PhaseWidth.hold (W : PhaseWidth) (a : Scalar) : Scalar :=
  match W with
  | .exact => a
  | .bits n => .phase n a

/-! Comparison and `floor` where a command's course depends on the answer: its checks and its counts.  The answer is
that of what the terms denote (00 R9), in every case.  Over NUM_REAL it is computed where the terms' enclosures decide
it, which on numerals is always: a term's enclosure is a rational interval that holds what the term denotes, a
numeral's is the numeral itself. -/

/-- A rational interval. -/
abbrev Encl := Rat × Rat

/-- Sum of intervals. -/
def Encl.add (x y : Encl) : Encl := (Q.add x.1 y.1, Q.add x.2 y.2)

/-- Difference of intervals. -/
def Encl.sub (x y : Encl) : Encl := (Q.sub x.1 y.2, Q.sub x.2 y.1)

/-- Product of intervals: the least and the greatest product of end points. -/
def Encl.mul (x y : Encl) : Encl :=
  let a := Q.mul x.1 y.1
  let b := Q.mul x.1 y.2
  let c := Q.mul x.2 y.1
  let d := Q.mul x.2 y.2
  (Q.min (Q.min a b) (Q.min c d), Q.max (Q.max a b) (Q.max c d))

/-- Reciprocal of an interval that does not hold 0. -/
def Encl.inv (x : Encl) : Option Encl :=
  if Q.lt 0 x.1 || Q.lt x.2 0 then some (Q.inv x.2, Q.inv x.1) else none

/-- The interval of `frac`: shifted when the whole interval has one floor, else [0, 1]. -/
def Encl.frac (x : Encl) : Encl :=
  if Q.floor x.1 = Q.floor x.2 then
    (Q.sub x.1 (mkRat (Q.floor x.1) 1), Q.sub x.2 (mkRat (Q.floor x.1) 1))
  else (0, 1)

/-- The smallest interval that holds both. -/
def Encl.hull (x y : Encl) : Encl := (Q.min x.1 y.1, Q.max x.2 y.2)

/-- The interval of `max`. -/
def Encl.max (x y : Encl) : Encl := (Q.max x.1 y.1, Q.max x.2 y.2)

/-- The interval of `abs`. -/
def Encl.abs (x : Encl) : Encl :=
  if Q.lt 0 x.1 then x
  else if Q.lt x.2 0 then (Q.sub 0 x.2, Q.sub 0 x.1)
  else (0, Q.max (Q.abs x.1) (Q.abs x.2))

/-- Twenty digits of `pi` from below and from above. -/
def Encl.pi : Encl :=
  (mkRat 314159265358979323846 100000000000000000000, mkRat 314159265358979323847 100000000000000000000)

/-- The enclosure of a term; none where nothing is known. -/
def Scalar.encl : Scalar → Option Encl
  | .rat q => some (q, q)
  | .pi => some Encl.pi
  | .plus a b => match a.encl, b.encl with
    | some x, some y => some (Encl.add x y)
    | _, _ => none
  | .minus a b => match a.encl, b.encl with
    | some x, some y => some (Encl.sub x y)
    | _, _ => none
  | .times a b => match a.encl, b.encl with
    | some x, some y => some (Encl.mul x y)
    | _, _ => none
  | .over a b => match a.encl, b.encl with
    | some x, some y => (Encl.inv y).map (Encl.mul x)
    | _, _ => none
  | .absV a => a.encl.map Encl.abs
  | .maxV a b => match a.encl, b.encl with
    | some x, some y => some (Encl.max x y)
    | _, _ => none
  | .fracV a => a.encl.map Encl.frac
  | .sinTurns _ => some (mkRat (-1) 1, 1)
  | .sel _ a b => match a.encl, b.encl with
    | some x, some y => some (Encl.hull x y)
    | _, _ => none
  | .free _ => none
  | .fin _ _ _ => none
  | .finFloor _ => none
  | .phase _ _ => none
  | .taperw _ _ => none
  | .winb _ _ => none
  | .bpf _ _ _ _ _ _ => none

/-- Whether `a < b`, where the enclosures decide it. -/
def Scalar.lt? (a b : Scalar) : Option Bool :=
  match a.encl, b.encl with
  | some x, some y =>
    if Q.lt x.2 y.1 then some true else if Q.lt x.1 y.2 then none else some false
  | _, _ => none

/-- Whether `a = b`, where the terms or the enclosures decide it. -/
def Scalar.eq? (a b : Scalar) : Option Bool :=
  if a = b then some true
  else match a.encl, b.encl with
    | some x, some y =>
      if Q.lt x.2 y.1 || Q.lt y.2 x.1 then some false
      else if x.1 = x.2 ∧ y.1 = y.2 ∧ x.1 = y.1 then some true else none
    | _, _ => none

/-- `floor(a)`, where the enclosure decides it. -/
def Scalar.floor? (a : Scalar) : Option Int :=
  match a.encl with
  | some x => if Q.floor x.1 = Q.floor x.2 then some (Q.floor x.1) else none
  | none => none

/-- THE value that satisfies `p`, where one is known to exist: its type says all that is known of it.  Logically it is
total and exact.  As code it does not end, so that a run of compiled code never answers a value that is not proved to
be the right one (log entry 2). -/
def theValue {α : Type} (p : α → Prop) [Nonempty (Subtype p)] : Subtype p := theValue p
partial_fixpoint

open Classical in
/-- A proposition has a truth value. -/
theorem truth_exists (P : Prop) : Nonempty {c : Bool // c = true ↔ P} :=
  ⟨⟨decide P, by simp⟩⟩

/-- The truth value of a proposition about real numbers. -/
def truth (P : Prop) : Bool := (@theValue Bool (fun c => c = true ↔ P) (truth_exists P)).val

/-- The floor of what a term denotes, where its enclosure does not decide it. -/
def NumDomain.theFloor (N : NumDomain) (a : Scalar) : Int :=
  (@theValue Int (fun n => n = N.floorOf a.eval) ⟨⟨_, rfl⟩⟩).val

/-- `a < b` (00 R9). -/
def NumDomain.ltb (N : NumDomain) (a b : Scalar) : Bool :=
  match N with
  | .real => (Scalar.lt? a b).getD (truth (NumDomain.real.Lt a.eval b.eval))
  | .finite => truth (NumDomain.finite.Lt a.eval b.eval)

/-- `a <= b`: `b < a` fails.  Over NUM_REAL that is what `<=` is.  In a finite format it is a DESIGN CHOICE, log entry
20: a format with unordered values, where the two differ, is not admitted. -/
def NumDomain.leb (N : NumDomain) (a b : Scalar) : Bool := !N.ltb b a

/-- `a = b` (00 R9). -/
def NumDomain.eqb (N : NumDomain) (a b : Scalar) : Bool :=
  match N with
  | .real => (Scalar.eq? a b).getD (truth (NumDomain.real.Eq a.eval b.eval))
  | .finite => truth (NumDomain.finite.Eq a.eval b.eval)

/-- `floor(a)` as a count uses it (00 R6, R9). -/
def NumDomain.floor (N : NumDomain) (a : Scalar) : Int :=
  match N with
  | .real => (Scalar.floor? a).getD (NumDomain.real.theFloor a)
  | .finite => NumDomain.finite.theFloor a

end Sys2Proof
end

