-- ==== Sys2Proof/Machine/State.lean ====
section
/-! DEFINITION. The state of the block as plain data (10 R10), its reset value (10 R30), and the reasons a step stops.

The hardwired registers SYNC, TAPERN and EPS (10 R21) have no field: the register read answers them (Machine/Ops.lean).
`par`, `script`, `returned` and each memory's `gen` are the model's own fields (log entries 4, 8, 9 and 11). -/

namespace Sys2Proof.Machine

open Sys2Proof

/-- A buffer memory (10 R23): the elements something has given a value, in rising order of index.  An element not
listed reads as the unspecified value named by the memory, `gen` and its index (20 R42, log entry 8). -/
structure Mem (α : Type) where
  gen   : Nat
  cells : List (Nat × α)
  deriving DecidableEq, Repr

/-- The internal datapath registers (10 R13, R24 to R28), which the host cannot address. -/
structure Datapath where
  /-- phase accumulator, in turns (10 R24) -/
  phi   : Scalar
  /-- index of the sample in the current tone or window (10 R13) -/
  idx   : Nat
  /-- index of the current symbol or window (10 R13) -/
  sym   : Nat
  /-- GS1[0], resonator of F0 (10 R25) -/
  gs1_0 : Scalar
  /-- GS2[0], resonator of F0 (10 R25) -/
  gs2_0 : Scalar
  /-- GS1[1], resonator of F1 (10 R25) -/
  gs1_1 : Scalar
  /-- GS2[1], resonator of F1 (10 R25) -/
  gs2_1 : Scalar
  /-- the last emitted bit (10 R26) -/
  last  : Bit
  /-- peak absolute value (10 R27) -/
  peak  : Scalar
  /-- estimate at F0 (10 R28) -/
  p0    : Scalar
  /-- estimate at F1 (10 R28) -/
  p1    : Scalar
  /-- decision variable (10 R28) -/
  ratio : Scalar
  deriving DecidableEq, Repr

/-- The whole state (10 R10). -/
structure State where
  /-- the parameters of the instance (00 R5), the model's own field -/
  par    : Params
  /-- CMD (10 R16) -/
  cmd    : Byte
  /-- STATUS, bit 0 DONE, bit 1 ERR (10 R14) -/
  status : Byte
  /-- CAUSE (10 R15) -/
  cause  : Byte
  /-- F0, frequency of bit 0 in hertz (10 R17) -/
  f0     : Scalar
  /-- F1, frequency of bit 1 in hertz (10 R17) -/
  f1     : Scalar
  /-- SYMDUR, symbol duration in seconds (10 R18) -/
  symdur : Scalar
  /-- FS, sample rate in hertz (10 R18) -/
  fs     : Scalar
  /-- AMP, amplitude of the Modulator's tones (10 R19) -/
  amp    : Scalar
  /-- BW, half-width of a pass-band in hertz (10 R20) -/
  bw     : Scalar
  /-- RHI, upper hysteresis threshold (10 R20) -/
  rhi    : Scalar
  /-- RLO, lower hysteresis threshold (10 R20) -/
  rlo    : Scalar
  /-- OFREQ (10 R12) -/
  ofreq  : Scalar
  /-- ODUR (10 R12) -/
  odur   : Scalar
  /-- OAMP (10 R12) -/
  oamp   : Scalar
  /-- OPHASE (10 R12) -/
  ophase : Scalar
  /-- SHPN (10 R12) -/
  shpn   : Nat
  /-- TXLEN (10 R22) -/
  txlen  : Nat
  /-- RXLEN (10 R22) -/
  rxlen  : Nat
  /-- BILEN (10 R22) -/
  bilen  : Nat
  /-- BOLEN (10 R22) -/
  bolen  : Nat
  /-- transmit sample memory (10 R23) -/
  tx     : Mem Scalar
  /-- receive sample memory (10 R23) -/
  rx     : Mem Scalar
  /-- input bit memory (10 R23) -/
  bi     : Mem Bit
  /-- output bit memory (10 R23) -/
  bo     : Mem Bit
  /-- internal datapath registers -/
  dp     : Datapath
  /-- the host's transactions still to come, oldest first (70 R191), the model's own field -/
  script : List Txn
  /-- the values RD and LD have returned, oldest first (70 R191), the model's own field -/
  returned : List Value
  deriving DecidableEq, Repr

/-- Why a step stops with a fault of the MODEL.  The block's own faults (60 R155) are no such stop: a rejected command
is a next state with STATUS and CAUSE written (60 R165). -/
inductive Fault
  /-- Raised by a host `LD` or `ST` whose index is at or above the memory's capacity: the element does not exist and
  the spec gives the access no defined result (20 R41, 93 U4).  Safe. -/
  | noSuchElement
  deriving DecidableEq, Repr

/-- Why a step gives a transaction no meaning. -/
inductive Refusal
  /-- Raised by `exec` alone, for an instruction that has no meaning yet: none is left.  Safe. -/
  | notModelled (mnemonic : String)
  /-- Raised by a host transaction whose value is not of the type of the register or element addressed: no transaction
  of the interface (10 R11, 30 R66).  Safe. -/
  | notATransaction
  /-- Raised by a host write to RXLEN or BILEN of a value above the memory's capacity: no defined result (10 R22,
  93 U4).  Safe. -/
  | lengthAboveCapacity
  deriving DecidableEq, Repr

/-- The internal registers at reset: the spec gives them no value and every command initialises what it uses (10 R29,
R30).  DESIGN CHOICE, log entry 6. -/
def Datapath.reset : Datapath where
  phi   := .rat 0
  idx   := 0
  sym   := 0
  gs1_0 := .rat 0
  gs2_0 := .rat 0
  gs1_1 := .rat 0
  gs2_1 := .rat 0
  last  := .zero
  peak  := .rat 0
  p0    := .rat 0
  p1    := .rat 0
  ratio := .rat 0

/-- A memory nothing has written (10 R30): every element unspecified.  Log entry 8. -/
def Mem.unwritten (α : Type) : Mem α where
  gen   := 0
  cells := []

/-- The state after reset (10 R30, 70 R180).  The operand registers have no reset value in the spec and hold 0
(DESIGN CHOICE, log entry 5). -/
def State.reset : State where
  par    := Params.default
  cmd    := 0x00#8
  status := 0x00#8
  cause  := 0x00#8
  f0     := .rat (mkRat 1000 1)
  f1     := .rat (mkRat 2000 1)
  symdur := .rat (mkRat 1 10)
  fs     := .rat (mkRat 44100 1)
  amp    := .rat (mkRat 2 5)
  bw     := .rat (mkRat 220 1)
  rhi    := .rat (mkRat 29 50)
  rlo    := .rat (mkRat 21 50)
  ofreq  := .rat 0
  odur   := .rat 0
  oamp   := .rat 0
  ophase := .rat 0
  shpn   := 0
  txlen  := 0
  rxlen  := 0
  bilen  := 0
  bolen  := 0
  tx     := Mem.unwritten Scalar
  rx     := Mem.unwritten Scalar
  bi     := Mem.unwritten Bit
  bo     := Mem.unwritten Bit
  dp     := Datapath.reset
  script := []
  returned := []

end Sys2Proof.Machine
end

