-- ==== Sys2Proof/Syntax.lean ====
section
/-! DEFINITION. The instructions: the five commands (30 R61), one constructor per row of spec/opcode_table.json. -/

namespace Sys2Proof

/-- A command.  It has no operand fields: every operand is a register or a buffer memory named by the command's own
rule (30 R62). -/
inductive Instr
  /-- the Oscillator (40 R80) -/
  | osc
  /-- the Symbol Shaper (41 R92) -/
  | shape
  /-- the Modulator (42 R100) -/
  | mod
  /-- the Basic Demodulator (43 R115) -/
  | demodb
  /-- the Robust Demodulator (44 R125) -/
  | demodr
  deriving DecidableEq, Repr

end Sys2Proof
end

