-- ==== Sys2Proof/Decode.lean ====
section
/-! DEFINITION. Decoding of the command Byte and of register numbers, and the encoder (30 R60 to R65, 10 R11).

A command is one Byte: RSV in bits 7:3, OP in bits 2:0 (30 R60).  Register numbers are eight bits. -/

namespace Sys2Proof

/-- Why a Byte is no command (30 R63). -/
inductive DecodeError
  /-- the field RSV is not 0 -/
  | reservedBitsSet
  /-- RSV is 0 and OP is 0, 6 or 7 -/
  | opUnused
  deriving DecidableEq, Repr

/-- The field RSV, `CMD[7:3]` (30 R60). -/
def rsvField (w : Byte) : BitVec 5 := w.extractLsb' 3 5

/-- The field OP, `CMD[2:0]` (30 R60). -/
def opField (w : Byte) : BitVec 3 := w.extractLsb' 0 3

/-- The opcode map (30 R61, R63). -/
def decode (w : Byte) : Except DecodeError Instr :=
  if rsvField w ≠ 0 then .error .reservedBitsSet
  else match (opField w).toNat with
    | 1 => .ok .osc
    | 2 => .ok .shape
    | 3 => .ok .mod
    | 4 => .ok .demodb
    | 5 => .ok .demodr
    | _ => .error .opUnused

/-- The operation code of a command (30 R61). -/
def opCode : Instr → BitVec 3
  | .osc    => 1
  | .shape  => 2
  | .mod    => 3
  | .demodb => 4
  | .demodr => 5

/-- The command Byte: format C with RSV = 0 (30 R60, R61). -/
def encode (i : Instr) : Byte := (0 : BitVec 5) ++ opCode i

/-- The instruction the decoder reads from a Byte, if any. -/
def decode? (w : Byte) : Option Instr := (decode w).toOption

/-- The decoder on a table word: a command is one Byte (30 R65), so a longer word is no command, and the bits a
shorter word does not give are 0 (log entry 27). -/
def decodeTableWord (nbits w : Nat) : Option Instr :=
  if nbits ≤ 8 then decode? (BitVec.ofNat 8 (w % 2 ^ nbits)) else none

/-- The register with a given number; `none` for a reserved number (10 R11, R31). -/
def regOfNumber (r : Byte) : Option Reg :=
  match r.toNat with
  | 0x00 => some .cmd
  | 0x01 => some .status
  | 0x02 => some .cause
  | 0x10 => some .f0
  | 0x11 => some .f1
  | 0x12 => some .symdur
  | 0x13 => some .fs
  | 0x14 => some .amp
  | 0x15 => some .bw
  | 0x16 => some .rhi
  | 0x17 => some .rlo
  | 0x18 => some .sync
  | 0x19 => some .tapern
  | 0x1A => some .eps
  | 0x20 => some .ofreq
  | 0x21 => some .odur
  | 0x22 => some .oamp
  | 0x23 => some .ophase
  | 0x24 => some .shpn
  | 0x30 => some .txlen
  | 0x31 => some .rxlen
  | 0x32 => some .bilen
  | 0x33 => some .bolen
  | _    => none

/-- The number of a register (10 R11). -/
def regNumber : Reg → Byte
  | .cmd    => 0x00#8
  | .status => 0x01#8
  | .cause  => 0x02#8
  | .f0     => 0x10#8
  | .f1     => 0x11#8
  | .symdur => 0x12#8
  | .fs     => 0x13#8
  | .amp    => 0x14#8
  | .bw     => 0x15#8
  | .rhi    => 0x16#8
  | .rlo    => 0x17#8
  | .sync   => 0x18#8
  | .tapern => 0x19#8
  | .eps    => 0x1A#8
  | .ofreq  => 0x20#8
  | .odur   => 0x21#8
  | .oamp   => 0x22#8
  | .ophase => 0x23#8
  | .shpn   => 0x24#8
  | .txlen  => 0x30#8
  | .rxlen  => 0x31#8
  | .bilen  => 0x32#8
  | .bolen  => 0x33#8

/-- The type of a register (10 R11). -/
def regKind : Reg → Kind
  | .cmd | .status | .cause | .sync => .byte
  | .f0 | .f1 | .symdur | .fs | .amp | .bw | .rhi | .rlo | .eps => .scalar
  | .ofreq | .odur | .oamp | .ophase => .scalar
  | .tapern | .shpn | .txlen | .rxlen | .bilen | .bolen => .count

/-- The type of a memory's elements (20 R40). -/
def memKind : MemId → Kind
  | .tx | .rx => .scalar
  | .bi | .bo => .bit

end Sys2Proof
end

