-- ==== Sys2Proof/WellFormed.lean ====
section
/-! DEFINITION. Which terms are well formed: command Bytes and host transactions (30 R60, R66).

A command has no operand fields (30 R62), so every term of `Instr` is well formed; what can be ill formed is a
transaction whose value does not have the type of the register or element it addresses, or carries a value of no
stated type (30 R66), and a command Byte with reserved bits set (30 R60). -/

namespace Sys2Proof

/-- Every command is well formed: it has no field that could hold a wrong value (30 R62). -/
def Instr.wf (i : Instr) : Bool := rsvField (encode i) == 0 && opField (encode i) != 0

/-- A command Byte with RSV = 0 and an operation code of the opcode map (30 R61, R63). -/
def commandByteWf (w : Byte) : Bool :=
  rsvField w == 0 && (1 ≤ (opField w).toNat && (opField w).toNat ≤ 5)

/-- The type of a value; `none` for a value of no stated type. -/
def Value.kind : Value → Option Kind
  | .scalar _      => some .scalar
  | .count _       => some .count
  | .bit _         => some .bit
  | .byte _        => some .byte
  | .unspecified _ => none

/-- A transaction is typed: a written value has the type of the register or element addressed (30 R66).  A reserved
register number has no type, so any value of a stated type may be written to it. -/
def Txn.wf : Txn → Bool
  | .wr r v =>
    match regOfNumber r with
    | some reg => v.kind == some (regKind reg)
    | none     => v.kind.isSome
  | .rd _ => true
  | .st m _ v => v.kind == some (memKind m)
  | .ld _ _ => true

end Sys2Proof
end

