-- ==== Sys2Proof/Machine/Ops.lean ====
section
/-! DEFINITION. The named operations over memories and registers (20 R40 to R42, 10 R11), and the end of a command:
taking a fault (60 R165) and completing (10 R14, R15). -/

namespace Sys2Proof.Machine

open Sys2Proof

/-! Memories.  `d gen i` is what element `i` reads as while nothing has given it a value. -/

/-- The listed value of element `i`. -/
def Mem.lookup {α : Type} : List (Nat × α) → Nat → Option α
  | [], _ => none
  | (j, v) :: cs, i => if i = j then some v else Mem.lookup cs i

/-- The list with element `i` set to `v`, in rising order. -/
def Mem.insert {α : Type} (i : Nat) (v : α) : List (Nat × α) → List (Nat × α)
  | [] => [(i, v)]
  | (j, w) :: cs =>
    if i < j then (i, v) :: (j, w) :: cs
    else if i = j then (i, v) :: cs
    else (j, w) :: Mem.insert i v cs

/-- The list without element `i`. -/
def Mem.erase {α : Type} (i : Nat) (cs : List (Nat × α)) : List (Nat × α) :=
  cs.filter fun c => decide (c.1 ≠ i)

/-- `MemRead(SPACE:i, 1)` (00 R7). -/
def Mem.read {α : Type} (d : Nat → Nat → α) (m : Mem α) (i : Nat) : α :=
  (Mem.lookup m.cells i).getD (d m.gen i)

/-- `MemWrite(SPACE:i, 1, v)` (00 R7).  Writing what an unlisted element reads as removes the entry. -/
def Mem.write {α : Type} [DecidableEq α] (d : Nat → Nat → α) (m : Mem α) (i : Nat) (v : α) : Mem α :=
  { m with cells := if v = d m.gen i then Mem.erase i m.cells else Mem.insert i v m.cells }

/-- The entries of a sequence stored from index `i` on. -/
def Mem.cellsFrom {α : Type} [DecidableEq α] (d : Nat → Nat → α) (gen : Nat) : Nat → List α → List (Nat × α)
  | _, [] => []
  | i, v :: vs =>
    if v = d gen i then Mem.cellsFrom d gen (i + 1) vs else (i, v) :: Mem.cellsFrom d gen (i + 1) vs

/-- An output memory after a completed command (20 R42): the output from index 0, every element at or above its length
unspecified, under names not used before (log entry 9). -/
def Mem.replace {α : Type} [DecidableEq α] (d : Nat → Nat → α) (m : Mem α) (xs : List α) : Mem α where
  gen   := m.gen + 1
  cells := Mem.cellsFrom d (m.gen + 1) 0 xs

/-- The canonical form: indices strictly rising, no entry equal to what an unlisted element reads as. -/
abbrev Mem.wf {α : Type} (d : Nat → Nat → α) (m : Mem α) : Prop :=
  m.cells.Pairwise (fun a b => a.1 < b.1) ∧ ∀ c ∈ m.cells, c.2 ≠ d m.gen c.1

/-- What an unlisted sample reads as (20 R42, log entry 8). -/
def scalarDefault (m : MemId) (gen i : Nat) : Scalar := .free (.elem m gen i)

/-- What an unlisted bit reads as (20 R42, log entry 8). -/
def bitDefault (m : MemId) (gen i : Nat) : Bit := .free (.elem m gen i)

/-- `TX[i]`. -/
def State.txAt (s : State) (i : Nat) : Scalar := s.tx.read (scalarDefault .tx) i

/-- `RX[i]`. -/
def State.rxAt (s : State) (i : Nat) : Scalar := s.rx.read (scalarDefault .rx) i

/-- `BI[i]`. -/
def State.biAt (s : State) (i : Nat) : Bit := s.bi.read (bitDefault .bi) i

/-- `BO[i]`. -/
def State.boAt (s : State) (i : Nat) : Bit := s.bo.read (bitDefault .bo) i

/-- The canonical form of all four memories. -/
abbrev State.memWf (s : State) : Prop :=
  s.tx.wf (scalarDefault .tx) ∧ s.rx.wf (scalarDefault .rx) ∧ s.bi.wf (bitDefault .bi) ∧ s.bo.wf (bitDefault .bo)

/-- The capacity of a memory (00 R5). -/
def State.capacity (s : State) : MemId → Nat
  | .tx => s.par.txcap
  | .rx => s.par.rxcap
  | .bi => s.par.bicap
  | .bo => s.par.bocap

/-- The length register of a memory (10 R22). -/
def State.length (s : State) : MemId → Nat
  | .tx => s.txlen
  | .rx => s.rxlen
  | .bi => s.bilen
  | .bo => s.bolen

/-- The element at index `i` of a memory, as a host reads it (20 R41). -/
def State.elementAt (s : State) (m : MemId) (i : Nat) : Value :=
  match m with
  | .tx => .scalar (s.txAt i)
  | .rx => .scalar (s.rxAt i)
  | .bi => .bit (s.biAt i)
  | .bo => .bit (s.boAt i)

/-- The name of the value the next host read returns when the spec does not specify it (log entry 10). -/
def State.nextRead (s : State) : Free := .read s.returned.length

/-- An unspecified value of a memory's element type (20 R42, log entry 10). -/
def State.unspecifiedElement (s : State) (m : MemId) : Value :=
  match memKind m with
  | .scalar => .scalar (.free s.nextRead)
  | _ => .bit (.free s.nextRead)

/-- A host `ST` of a value to element `i` (20 R41): RX and BI take it, TX and BO do not change. -/
def State.setElement (s : State) (m : MemId) (i : Nat) (v : Value) : State :=
  match m, v with
  | .rx, .scalar x => { s with rx := s.rx.write (scalarDefault .rx) i x }
  | .bi, .bit b => { s with bi := s.bi.write (bitDefault .bi) i b }
  | _, _ => s

/-- The value of a register (10 R11).  SYNC, TAPERN and EPS are hardwired (10 R21). -/
def State.readReg (s : State) : Reg → Value
  | .cmd    => .byte s.cmd
  | .status => .byte s.status
  | .cause  => .byte s.cause
  | .f0     => .scalar s.f0
  | .f1     => .scalar s.f1
  | .symdur => .scalar s.symdur
  | .fs     => .scalar s.fs
  | .amp    => .scalar s.amp
  | .bw     => .scalar s.bw
  | .rhi    => .scalar s.rhi
  | .rlo    => .scalar s.rlo
  | .sync   => .byte Config.syncWord
  | .tapern => .count Config.taperN
  | .eps    => .scalar s.par.eps
  | .ofreq  => .scalar s.ofreq
  | .odur   => .scalar s.odur
  | .oamp   => .scalar s.oamp
  | .ophase => .scalar s.ophase
  | .shpn   => .count s.shpn
  | .txlen  => .count s.txlen
  | .rxlen  => .count s.rxlen
  | .bilen  => .count s.bilen
  | .bolen  => .count s.bolen

/-- A host `WR` to a register other than CMD, whose write starts a command: a read-only register does not change
(10 R31), and a value of another type is no transaction (30 R66). -/
def State.setReg (s : State) (r : Reg) (v : Value) : State :=
  match r, v with
  | .f0,     .scalar x => { s with f0 := x }
  | .f1,     .scalar x => { s with f1 := x }
  | .symdur, .scalar x => { s with symdur := x }
  | .fs,     .scalar x => { s with fs := x }
  | .amp,    .scalar x => { s with amp := x }
  | .bw,     .scalar x => { s with bw := x }
  | .rhi,    .scalar x => { s with rhi := x }
  | .rlo,    .scalar x => { s with rlo := x }
  | .ofreq,  .scalar x => { s with ofreq := x }
  | .odur,   .scalar x => { s with odur := x }
  | .oamp,   .scalar x => { s with oamp := x }
  | .ophase, .scalar x => { s with ophase := x }
  | .shpn,   .count n  => { s with shpn := n }
  | .rxlen,  .count n  => { s with rxlen := n }
  | .bilen,  .count n  => { s with bilen := n }
  | _, _ => s

/-- The code of a cause (60 R156). -/
def causeCode : Cause → Byte
  | .none       => 0x00#8
  | .cfgWindow  => 0x01#8
  | .cfgFreq    => 0x02#8
  | .cfgRatio   => 0x03#8
  | .cfgBand    => 0x04#8
  | .operand    => 0x05#8
  | .capacity   => 0x06#8
  | .illegalCmd => 0x07#8

/-- Taking a fault (60 R165): `STATUS <- 0x02`, `CAUSE <- c`, nothing else. -/
def State.takeFault (c : Cause) (s : State) : State := { s with status := 0x02#8, cause := causeCode c }

/-- Completing (10 R14, R15): `STATUS <- 0x01`, `CAUSE <- 0`.  The block has no other return (60 R166). -/
def State.complete (s : State) : State := { s with status := 0x01#8, cause := causeCode .none }

/-- A completed command's samples: TX from index 0, and TXLEN (20 R42). -/
def State.putTx (s : State) (xs : List Scalar) : State :=
  { s with tx := s.tx.replace (scalarDefault .tx) xs, txlen := xs.length }

/-- A completed command's bits: BO from index 0, and BOLEN (20 R42). -/
def State.putBo (s : State) (bs : List Bit) : State :=
  { s with bo := s.bo.replace (bitDefault .bo) bs, bolen := bs.length }

/-- The internal registers as a command leaves them (93 U11, log entry 7). -/
def State.putDp (s : State) (dp : Datapath) : State := { s with dp := dp }

/-- A host read's answer joins the list of returned values (70 R191). -/
def State.answer (s : State) (v : Value) : State := { s with returned := s.returned ++ [v] }

/-- A write of CMD stores the Byte (10 R16). -/
def State.storeCmd (s : State) (b : Byte) : State := { s with cmd := b }

/-- The transactions still to come. -/
def State.putScript (s : State) (ts : List Txn) : State := { s with script := ts }

/-- A memory whose every element is unspecified anew, under names not used before (10 R30). -/
def Mem.forget {α : Type} (m : Mem α) : Mem α where
  gen   := m.gen + 1
  cells := []

/-- The platform's reset event, between commands (70 R180): every piece of the block's state at the value of 10 R30.
The instance's parameters, the host's script and the values already returned are no state of the block. -/
def State.platformReset (s : State) : State :=
  { State.reset with
    par := s.par
    tx := s.tx.forget
    rx := s.rx.forget
    bi := s.bi.forget
    bo := s.bo.forget
    script := s.script
    returned := s.returned }

/-- The checks of a command, in order: the cause of the first that fails (60 R164). -/
def firstFailing : List (Bool × Cause) → Option Cause
  | [] => none
  | (fails, c) :: rest => if fails then some c else firstFailing rest

/-- A command (60 R155): its checks first, on the state as it stands; the first failing one rejects it, and otherwise
it has its effect and completes. -/
def State.runChecked (s : State) (checks : List (Bool × Cause)) (effect : State → State) :
    Host.Outcome State Fault Refusal :=
  match firstFailing checks with
  | some c => .next (s.takeFault c)
  | none   => .next (effect s).complete

end Sys2Proof.Machine
end

