-- ==== Sys2Proof/Machine/Operands.lean ====
section
/-! DEFINITION. The operand forms of the commands (30 R62): registers by name, the valid extent of an input memory
(20 R42), the symbol windows of one (43 R110), and the counts formed from registers. -/

namespace Sys2Proof.Machine

open Sys2Proof

/-- `L = floor(x[SYMDUR] * x[FS])`, the samples of one symbol or window (10 R18). -/
def State.symbolFloor (s : State) : Int := s.par.num.floor (s.par.num.mul s.symdur s.fs)

/-- `L` as a Count, after the check that it is at least 1 (log entry 26). -/
def State.symbolLen (s : State) : Nat := s.symbolFloor.toNat

/-- `N = floor(x[FS] * x[ODUR])`, the samples of an oscillator run (40 R81). -/
def State.oscFloor (s : State) : Int := s.par.num.floor (s.par.num.mul s.fs s.odur)

/-- `N` as a Count, after the checks of 40 R85; 0 for a negative floor, which a finite format may have (log entry 26). -/
def State.oscLen (s : State) : Nat := s.oscFloor.toNat

/-- `K = floor(RXLEN / L)`, the number of complete windows (43 R110). -/
def State.windowCount (s : State) : Nat := s.rxlen / s.symbolLen

/-- `M = BILEN + 8`, the number of symbols the Modulator sends (42 R100). -/
def State.symbolCount (s : State) : Nat := s.bilen + 8

/-- `RX[0..RXLEN)` (20 R42). -/
def State.rxValid (s : State) : List Scalar := (List.range s.rxlen).map s.rxAt

/-- `BI[0..BILEN)` (20 R42). -/
def State.biValid (s : State) : List Bit := (List.range s.bilen).map s.biAt

/-- Window `k` of the receive buffer, `RX[k*L .. (k+1)*L)` (43 R110). -/
def State.rxWindow (s : State) (len k : Nat) : List Scalar :=
  (List.range len).map fun i => s.rxAt (k * len + i)

/-- `x[FS]/2`, the Nyquist frequency (60 R158). -/
def State.nyquist (s : State) : Scalar := s.par.num.div s.fs (.rat (mkRat 2 1))

/-- The lower edge of the pass-band around `f`: `max(50, f - bw)` (44 R128). -/
def bandLo (N : NumDomain) (f bw : Scalar) : Scalar := N.max (.rat Config.floorHz) (N.sub f bw)

/-- The upper edge of the pass-band around `f`: `f + bw` (44 R128). -/
def bandHi (N : NumDomain) (f bw : Scalar) : Scalar := N.add f bw

/-- The eight bits of SYNC, bit 7 first (10 R21, 42 R101). -/
def syncBits : List Bit :=
  (List.range 8).map fun k => Bit.ofBool (Config.syncWord.getLsbD (7 - k))

end Sys2Proof.Machine
end

