-- ==== Sys2Proof/Machine/Flags.lean ====
section
/-! DEFINITION. The two flags (10 R14) and the conditions that set ERR: each check of a command (60 R157 to R162), and
each command's checks in its own order (60 R164).  The block has no arithmetic condition codes (10 R14). -/

namespace Sys2Proof.Machine

open Sys2Proof

/-- `STATUS[0]`, DONE (10 R14). -/
def State.done (s : State) : Bool := s.status.getLsbD 0

/-- `STATUS[1]`, ERR (10 R14). -/
def State.err (s : State) : Bool := s.status.getLsbD 1

/-- `x[FS] <= 0` (60 R161). -/
def State.rateBad (s : State) : Bool := s.par.num.leb s.fs (.rat 0)

/-- `x[ODUR] < 0` (60 R161). -/
def State.durationBad (s : State) : Bool := s.par.num.ltb s.odur (.rat 0)

/-- `floor(x[SYMDUR] * x[FS]) < 1` (60 R157). -/
def State.windowBad (s : State) : Bool := decide (s.symbolFloor < Config.minWin)

/-- `x[F0] = x[F1]`, or `x[F0] >= x[FS]/2`, or `x[F1] >= x[FS]/2` (60 R158). -/
def State.freqBad (s : State) : Bool :=
  s.par.num.eqb s.f0 s.f1 || s.par.num.leb s.nyquist s.f0 || s.par.num.leb s.nyquist s.f1

/-- Not `x[RHI] > x[RLO]` (60 R159). -/
def State.ratioBad (s : State) : Bool := !s.par.num.ltb s.rlo s.rhi

/-- For the band around `f`, not `lo < hi` or not `hi < x[FS]/2` (60 R160). -/
def State.bandBadAt (s : State) (f : Scalar) : Bool :=
  !s.par.num.ltb (bandLo s.par.num f s.bw) (bandHi s.par.num f s.bw) || !s.par.num.ltb (bandHi s.par.num f s.bw) s.nyquist

/-- The condition of CFG_BAND, for band 0 or band 1 (60 R160). -/
def State.bandBad (s : State) : Bool := s.bandBadAt s.f0 || s.bandBadAt s.f1

/-- The checks of OSC (40 R85). -/
def State.oscChecks (s : State) : List (Bool × Cause) :=
  [(s.rateBad || s.durationBad, .operand),
   (decide ((s.par.txcap : Int) < s.oscFloor), .capacity)]

/-- The check of SHAPE (41 R93). -/
def State.shapeChecks (s : State) : List (Bool × Cause) :=
  [(decide (s.par.txcap < s.rxlen), .capacity)]

/-- The checks of MOD (42 R105). -/
def State.modChecks (s : State) : List (Bool × Cause) :=
  [(s.rateBad, .operand),
   (s.windowBad, .cfgWindow),
   (s.freqBad, .cfgFreq),
   (decide (s.par.txcap < s.symbolCount * s.symbolLen), .capacity)]

/-- The checks of DEMODB (43 R116). -/
def State.basicChecks (s : State) : List (Bool × Cause) :=
  [(s.rateBad, .operand),
   (s.windowBad, .cfgWindow),
   (s.freqBad, .cfgFreq),
   (decide (s.par.bocap < s.windowCount), .capacity)]

/-- The checks of DEMODR (44 R134). -/
def State.robustChecks (s : State) : List (Bool × Cause) :=
  [(s.rateBad, .operand),
   (s.windowBad, .cfgWindow),
   (s.freqBad, .cfgFreq),
   (s.ratioBad, .cfgRatio),
   (s.bandBad, .cfgBand),
   (decide (s.par.bocap < s.windowCount), .capacity)]

end Sys2Proof.Machine
end

