-- ==== Sys2Proof/Machine/Shaper.lean ====
section
/-! DEFINITION. The symbol shaper: the function `Shape` (41 R90, R91) and the command SHAPE (41 R92). -/

namespace Sys2Proof.Machine

open Sys2Proof

/-- The symmetric Hann window at position `i` of a window whose last position is `d`:
`0.5 - 0.5*cos(2*pi*i/d)` (41 R91, 43 R111). -/
def hannAt (N : NumDomain) (i d : Nat) : Scalar :=
  N.sub (.rat (mkRat 1 2)) (N.mul (.rat (mkRat 1 2)) (N.cosTurns (Scalar.ofNat i) (Scalar.ofNat d)))

/-- `TAPERW(m, j)` (41 R91): by default the rising half of the Hann window of length `2*m`. -/
def taperAt (N : NumDomain) (c : WindowChoice) (m j : Nat) : Scalar :=
  match c with
  | .hann => hannAt N j (2 * m - 1)
  | .other => .taperw m j

/-- The effective taper length of a buffer of `len` samples (41 R90). -/
def taperLen (len n : Nat) : Nat := if len < 2 * n then len / 2 else n

/-- The sample `v` at index `i` of a buffer of `len` samples under a taper of `m` (41 R91, R92). -/
def shapeSample (N : NumDomain) (c : WindowChoice) (len m i : Nat) (v : Scalar) : Scalar :=
  if 0 < m ∧ i < m then N.mul v (taperAt N c m i)
  else if 0 < m ∧ len - m ≤ i then N.mul v (taperAt N c m (len - 1 - i))
  else v

/-- `Shape(x, n)` (41 R90, R91). -/
def shapeList (N : NumDomain) (c : WindowChoice) (n : Nat) (xs : List Scalar) : List Scalar :=
  xs.mapIdx (shapeSample N c xs.length (taperLen xs.length n))

/-- The samples of SHAPE (41 R92). -/
def State.shapeSamples (s : State) : List Scalar := shapeList s.par.num s.par.taperw s.shpn s.rxValid

/-- The internal registers after SHAPE (93 U11, log entry 7). -/
def State.shapeDp (s : State) : Datapath := { s.dp with idx := s.rxlen - 1, sym := 0 }

/-- The effect of SHAPE that passed its check (41 R92). -/
def State.shapeEffect (s : State) : State := (s.putTx s.shapeSamples).putDp s.shapeDp

/-- SHAPE (41 R92). -/
def execShape (s : State) : Host.Outcome State Fault Refusal := s.runChecked s.shapeChecks State.shapeEffect

end Sys2Proof.Machine
end

