-- ==== Sys2Proof/Machine/BasicDemodulator.lean ====
section
/-! DEFINITION. The Goertzel demodulator: partition, window taper, power estimate and decision (43 R110 to R114), and
the command DEMODB (43 R115). -/

namespace Sys2Proof.Machine

open Sys2Proof

/-- `WINB(len, i)` (43 R111): by default the Hann window over the whole symbol window. -/
def winbAt (N : NumDomain) (c : WindowChoice) (len i : Nat) : Scalar :=
  match c with
  | .hann => hannAt N i (len - 1)
  | .other => .winb len i

/-- The tapered window: tapered only when longer than four samples (43 R111). -/
def taperWindow (N : NumDomain) (c : WindowChoice) (w : List Scalar) : List Scalar :=
  if Config.winbMin < w.length then w.mapIdx fun i v => N.mul v (winbAt N c w.length i) else w

/-- One sample through a resonator `(GS1, GS2)` of coefficient `c` (43 R113). -/
def resonate (N : NumDomain) (c : Scalar) (g : Scalar × Scalar) (v : Scalar) : Scalar × Scalar :=
  (N.sub (N.add v (N.mul c g.1)) g.2, g.1)

/-- A resonator after a window, from 0 (43 R113). -/
def resonator (N : NumDomain) (c : Scalar) (w : List Scalar) : Scalar × Scalar :=
  w.foldl (resonate N c) (.rat 0, .rat 0)

/-- The power estimate of a resonator (43 R113). -/
def resonatorPower (N : NumDomain) (c : Scalar) (g : Scalar × Scalar) : Scalar :=
  N.sub (N.add (N.mul g.1 g.1) (N.mul g.2 g.2)) (N.mul (N.mul c g.1) g.2)

/-- The coefficient of the resonator tuned to `f`: `2*cos(2*pi*f/fs)` (43 R113). -/
def resonatorCoef (N : NumDomain) (f fs : Scalar) : Scalar :=
  N.mul (.rat (mkRat 2 1)) (N.cosTurns f fs)

/-- Window `k`, tapered. -/
def State.basicWindow (s : State) (k : Nat) : List Scalar :=
  taperWindow s.par.num s.par.winb (s.rxWindow s.symbolLen k)

/-- The resonator of F0 after window `k`. -/
def State.basicGs0 (s : State) (k : Nat) : Scalar × Scalar :=
  resonator s.par.num (resonatorCoef s.par.num s.f0 s.fs) (s.basicWindow k)

/-- The resonator of F1 after window `k`. -/
def State.basicGs1 (s : State) (k : Nat) : Scalar × Scalar :=
  resonator s.par.num (resonatorCoef s.par.num s.f1 s.fs) (s.basicWindow k)

/-- `P0` of window `k` (43 R115). -/
def State.basicP0 (s : State) (k : Nat) : Scalar :=
  resonatorPower s.par.num (resonatorCoef s.par.num s.f0 s.fs) (s.basicGs0 k)

/-- `P1` of window `k` (43 R115). -/
def State.basicP1 (s : State) (k : Nat) : Scalar :=
  resonatorPower s.par.num (resonatorCoef s.par.num s.f1 s.fs) (s.basicGs1 k)

/-- The bit of window `k`: 1 when `P1 > P0` (43 R114). -/
def State.basicBit (s : State) (k : Nat) : Bit := Bit.ltOf s.par.num (s.basicP0 k) (s.basicP1 k)

/-- The bits of DEMODB (43 R115). -/
def State.basicBits (s : State) : List Bit := (List.range s.windowCount).map s.basicBit

/-- The internal registers after DEMODB (93 U11, log entry 7): those of the last window, if there is one. -/
def State.basicDp (s : State) : Datapath :=
  match s.windowCount with
  | 0 => { s.dp with idx := 0, sym := 0 }
  | k + 1 =>
    { s.dp with
      idx := s.symbolLen - 1
      sym := k
      gs1_0 := (s.basicGs0 k).1
      gs2_0 := (s.basicGs0 k).2
      gs1_1 := (s.basicGs1 k).1
      gs2_1 := (s.basicGs1 k).2
      p0 := s.basicP0 k
      p1 := s.basicP1 k }

/-- The effect of DEMODB that passed its checks (43 R115). -/
def State.basicEffect (s : State) : State := (s.putBo s.basicBits).putDp s.basicDp

/-- DEMODB (43 R115). -/
def execDemodb (s : State) : Host.Outcome State Fault Refusal := s.runChecked s.basicChecks State.basicEffect

end Sys2Proof.Machine
end

