-- ==== Sys2Proof/Machine/Oscillator.lean ====
section
/-! DEFINITION. The FSK oscillator: the function `Osc` through the phase accumulator (40 R81 to R83) and the command
OSC (40 R80). -/

namespace Sys2Proof.Machine

open Sys2Proof

/-- `n` samples of a tone of amplitude `a` and phase increment `inc` turns a sample, from the phase `phi` on
(40 R83): `a * sin(2*pi*PHI)`, then `PHI <- frac(PHI + inc)`, PHI as an accumulator of width `W` holds it. -/
def toneSamples (N : NumDomain) (W : PhaseWidth) (a inc : Scalar) : Nat → Scalar → List Scalar
  | 0, _ => []
  | n + 1, phi => N.mul a (N.sinTurns phi) :: toneSamples N W a inc n (W.hold (N.frac (N.add phi inc)))

/-- PHI after `n` samples (40 R83). -/
def tonePhase (N : NumDomain) (W : PhaseWidth) (inc : Scalar) : Nat → Scalar → Scalar
  | 0, phi => phi
  | n + 1, phi => tonePhase N W inc n (W.hold (N.frac (N.add phi inc)))

/-- PHI at the start of a tone, `frac(ph / (2*pi))` (40 R83). -/
def startPhase (N : NumDomain) (W : PhaseWidth) (ph : Scalar) : Scalar := W.hold (N.frac (N.turns ph))

/-- The phase increment of OSC, `f/fs` turns a sample (40 R83). -/
def State.oscStep (s : State) : Scalar := s.par.num.div s.ofreq s.fs

/-- The samples of OSC (40 R80). -/
def State.oscSamples (s : State) : List Scalar :=
  toneSamples s.par.num s.par.phw s.oamp s.oscStep s.oscLen (startPhase s.par.num s.par.phw s.ophase)

/-- The internal registers after OSC (93 U11, log entry 7). -/
def State.oscDp (s : State) : Datapath :=
  { s.dp with
    phi := tonePhase s.par.num s.par.phw s.oscStep s.oscLen (startPhase s.par.num s.par.phw s.ophase)
    idx := s.oscLen - 1
    sym := 0 }

/-- The effect of OSC that passed its checks (40 R80). -/
def State.oscEffect (s : State) : State := (s.putTx s.oscSamples).putDp s.oscDp

/-- OSC (40 R80). -/
def execOsc (s : State) : Host.Outcome State Fault Refusal := s.runChecked s.oscChecks State.oscEffect

end Sys2Proof.Machine
end

