-- ==== Sys2Proof/Machine/Modulator.lean ====
section
/-! DEFINITION. The FSK modulator: the symbol sequence, the tone and the shape of each symbol, their concatenation
(42 R101 to R104), and the command MOD (42 R100). -/

namespace Sys2Proof.Machine

open Sys2Proof

/-- The symbol sequence `S = SYNC ++ BI[0..BILEN)` (42 R101). -/
def State.symbols (s : State) : List Bit := syncBits ++ s.biValid

/-- The phase increment of the tone of a bit: F1 for 1, F0 for 0, over FS (42 R102). -/
def State.toneStep (s : State) (b : Bit) : Scalar := s.par.num.div (Scalar.select b s.f1 s.f0) s.fs

/-- The tone of a bit: `L` samples from phase 0 with amplitude AMP (42 R102). -/
def State.symbolTone (s : State) (b : Bit) : List Scalar :=
  toneSamples s.par.num s.par.phw s.amp (s.toneStep b) s.symbolLen (.rat 0)

/-- The shaped tone of a bit (42 R103). -/
def State.symbolSamples (s : State) (b : Bit) : List Scalar :=
  shapeList s.par.num s.par.taperw Config.taperN (s.symbolTone b)

/-- The samples of MOD: the shaped tones in bit order (42 R104). -/
def State.modSamples (s : State) : List Scalar := s.symbols.flatMap s.symbolSamples

/-- The internal registers after MOD (93 U11, log entry 7). -/
def State.modDp (s : State) : Datapath :=
  { s.dp with
    phi := tonePhase s.par.num s.par.phw (s.toneStep (s.symbols.getLastD .zero)) s.symbolLen (.rat 0)
    idx := s.symbolLen - 1
    sym := s.symbolCount - 1 }

/-- The effect of MOD that passed its checks (42 R100). -/
def State.modEffect (s : State) : State := (s.putTx s.modSamples).putDp s.modDp

/-- MOD (42 R100). -/
def execMod (s : State) : Host.Outcome State Fault Refusal := s.runChecked s.modChecks State.modEffect

end Sys2Proof.Machine
end

