-- ==== Sys2Proof/Machine/RobustDemodulator.lean ====
section
/-! DEFINITION. The band-limited energy demodulator: normalisation, partition, band-pass filter, energy, ratio and
decision with hysteresis (44 R126 to R133), and the command DEMODR (44 R125). -/

namespace Sys2Proof.Machine

open Sys2Proof

/-- `max over i of abs(x[i])`, 0 for an empty sequence (44 R126). -/
def peakOf (N : NumDomain) (xs : List Scalar) : Scalar := xs.foldl (fun p v => N.max p (N.abs v)) (.rat 0)

/-- A sample divided by the peak, unchanged when the peak is 0 (44 R126). -/
def normalise (N : NumDomain) (peak v : Scalar) : Scalar :=
  Scalar.select (Bit.eqOf N peak (.rat 0)) v (N.div v peak)

/-- The frequency of bin `q` of a window of `len` samples, `min(q, len - q) * fs / len` (44 R136). -/
def binFreq (N : NumDomain) (fs : Scalar) (len q : Nat) : Scalar :=
  N.div (N.mul (Scalar.ofNat (min q (len - q))) fs) (Scalar.ofNat len)

/-- One bin's part of the stand-in filter's weight: `cos(2*pi*q*(i - j)/len)` when the bin is in the band, else 0
(44 R136, log entry 16).  In a finite format "in the band" is formed from the failures of two `<` (log entry 20). -/
def idealBin (N : NumDomain) (lo hi fs : Scalar) (len i j q : Nat) : Scalar :=
  Scalar.select (Bit.ltOf N (binFreq N fs len q) lo) (.rat 0)
    (Scalar.select (Bit.ltOf N hi (binFreq N fs len q)) (.rat 0)
      (N.cosTurns (.rat (mkRat ((q : Int) * ((i : Int) - (j : Int))) 1)) (Scalar.ofNat len)))

/-- The weight of input sample `j` in output sample `i` of the filter (44 R129, R136).  Over NUM_REAL the stand-in's
weights give what 44 R136 computes.  That a finite format sums the weights first, and forms no spectrum, is a DESIGN
CHOICE, log entry 16. -/
def bpfWeight (N : NumDomain) (c : FilterChoice) (lo hi fs : Scalar) (len i j : Nat) : Scalar :=
  match c with
  | .own => .bpf lo hi fs len i j
  | .ideal => N.div (N.sum ((List.range len).map (idealBin N lo hi fs len i j))) (Scalar.ofNat len)

/-- `BPF(lo, hi, fs, w)` (44 R129): as many samples as `w` has, each a sum over the window (log entry 15). -/
def bpfApply (N : NumDomain) (c : FilterChoice) (lo hi fs : Scalar) (w : List Scalar) : List Scalar :=
  (List.range w.length).map fun i =>
    N.sum (w.mapIdx fun j v => N.mul (bpfWeight N c lo hi fs w.length i j) v)

/-- The mean squared energy (44 R130). -/
def energy (N : NumDomain) (y : List Scalar) : Scalar :=
  N.div (N.sum (y.map fun v => N.mul v v)) (Scalar.ofNat y.length)

/-- The decision variable `p1 / (p0 + p1 + EPS)` (44 R131). -/
def ratioOf (N : NumDomain) (p0 p1 eps : Scalar) : Scalar := N.div p1 (N.add (N.add p0 p1) eps)

/-- The bits of a sequence of ratios, each dead-band ratio repeating the bit before it (44 R132, R133). -/
def hysteresis (N : NumDomain) (hi lo : Scalar) : Bit → List Scalar → List Bit
  | _, [] => []
  | last, r :: rs => Bit.hystOf N r hi lo last :: hysteresis N hi lo (Bit.hystOf N r hi lo last) rs

/-- PEAK, over the whole valid extent (44 R126). -/
def State.robustPeak (s : State) : Scalar := peakOf s.par.num s.rxValid

/-- Window `k` of the normalised buffer (44 R127). -/
def State.robustWindow (s : State) (k : Nat) : List Scalar :=
  (s.rxWindow s.symbolLen k).map (normalise s.par.num s.robustPeak)

/-- The energy of window `k` in the band around `f` (44 R128 to R130). -/
def State.robustEnergy (s : State) (f : Scalar) (k : Nat) : Scalar :=
  energy s.par.num (bpfApply s.par.num s.par.bpf (bandLo s.par.num f s.bw) (bandHi s.par.num f s.bw) s.fs
    (s.robustWindow k))

/-- RATIO of window `k` (44 R131). -/
def State.robustRatio (s : State) (k : Nat) : Scalar :=
  ratioOf s.par.num (s.robustEnergy s.f0 k) (s.robustEnergy s.f1 k) s.par.eps

/-- The bits of DEMODR; LAST is 0 before the first window (44 R132, R133). -/
def State.robustBits (s : State) : List Bit :=
  hysteresis s.par.num s.rhi s.rlo .zero ((List.range s.windowCount).map s.robustRatio)

/-- The internal registers after DEMODR (93 U11, log entry 7): PEAK, LAST, and those of the last window, if there is
one. -/
def State.robustDp (s : State) : Datapath :=
  match s.windowCount with
  | 0 => { s.dp with idx := 0, sym := 0, last := .zero, peak := s.robustPeak }
  | k + 1 =>
    { s.dp with
      idx := s.symbolLen - 1
      sym := k
      last := s.robustBits.getLastD .zero
      peak := s.robustPeak
      p0 := s.robustEnergy s.f0 k
      p1 := s.robustEnergy s.f1 k
      ratio := s.robustRatio k }

/-- The effect of DEMODR that passed its checks (44 R125). -/
def State.robustEffect (s : State) : State := (s.putBo s.robustBits).putDp s.robustDp

/-- DEMODR (44 R125). -/
def execDemodr (s : State) : Host.Outcome State Fault Refusal := s.runChecked s.robustChecks State.robustEffect

end Sys2Proof.Machine
end

