-- ==== Sys2Proof/Machine/Dispatch.lean ====
section
/-! DEFINITION. The dispatch of a command to its meaning (30 R61). -/

namespace Sys2Proof.Machine

open Sys2Proof

def exec (i : Instr) (s : State) : Host.Outcome State Fault Refusal :=
  match i with
  | .osc => Sys2Proof.Machine.execOsc s
  | .shape => Sys2Proof.Machine.execShape s
  | .mod => Sys2Proof.Machine.execMod s
  | .demodb => Sys2Proof.Machine.execDemodb s
  | .demodr => Sys2Proof.Machine.execDemodr s

end Sys2Proof.Machine
end

