-- ==== Sys2Proof/Machine/Transactions.lean ====
section
/-! DEFINITION. The four host transactions (30 R66) and what each does (10 R16, R31, 20 R41, R42, 60 R165). -/

namespace Sys2Proof.Machine

open Sys2Proof

/-- `WR CMD, b` (10 R16): stores the Byte, then runs the command it encodes, or takes ILLEGAL_CMD (30 R63). -/
def runCommand (b : Byte) (s : State) : Host.Outcome State Fault Refusal :=
  match decode b with
  | .ok i    => exec i (s.storeCmd b)
  | .error _ => .next ((s.storeCmd b).takeFault .illegalCmd)

/-- A length register's write: above the capacity it has no defined result (10 R22, 93 U4). -/
def writeLength (s : State) (r : Reg) (cap n : Nat) : Host.Outcome State Fault Refusal :=
  if cap < n then .refused .lengthAboveCapacity else .next (s.setReg r (.count n))

/-- A typed `WR` to register number `r` (10 R11, R16, R31). -/
def hostWrite (r : Byte) (v : Value) (s : State) : Host.Outcome State Fault Refusal :=
  match regOfNumber r, v with
  | none, _                  => .next s
  | some .cmd, .byte b       => runCommand b s
  | some .rxlen, .count n    => writeLength s .rxlen s.par.rxcap n
  | some .bilen, .count n    => writeLength s .bilen s.par.bicap n
  | some reg, v              => .next (s.setReg reg v)

/-- `RD` of register number `r` (10 R31, 20 R45). -/
def hostRead (r : Byte) (s : State) : State :=
  match regOfNumber r with
  | some reg => s.answer (s.readReg reg)
  | none     => s.answer (.unspecified s.nextRead)

/-- A typed `ST` to element `i` of memory `m` (20 R41, 93 U4). -/
def hostStore (m : MemId) (i : Nat) (v : Value) (s : State) : Host.Outcome State Fault Refusal :=
  if i < s.capacity m then .next (s.setElement m i v) else .fault .noSuchElement

/-- `LD` of element `i` of memory `m` (20 R41, R42, 93 U4): outside the valid extent the value is unspecified. -/
def hostLoad (m : MemId) (i : Nat) (s : State) : Host.Outcome State Fault Refusal :=
  if i < s.capacity m then
    .next (s.answer (if i < s.length m then s.elementAt m i else s.unspecifiedElement m))
  else .fault .noSuchElement

/-- One host transaction (30 R66).  An untyped one is none of the interface (10 R11). -/
def transact (t : Txn) (s : State) : Host.Outcome State Fault Refusal :=
  if t.wf then
    match t with
    | .wr r v   => hostWrite r v s
    | .rd r     => .next (hostRead r s)
    | .st m i v => hostStore m i v s
    | .ld m i   => hostLoad m i s
  else .refused .notATransaction

/-- One step (20 R48, 70 R191): the next transaction of the script, whole; with none left the block is idle and keeps
its state (60 R175). -/
def stepState (s : State) : Host.Outcome State Fault Refusal :=
  match s.script with
  | []      => .next s
  | t :: ts => transact t (s.putScript ts)

/-- The write of CMD that stands for an instruction of `nbits` bits (30 R60). -/
def commandTxn (nbits w : Nat) : Txn := .wr (regNumber .cmd) (.byte (BitVec.ofNat 8 (w % 2 ^ nbits)))

end Sys2Proof.Machine
end

