-- ==== Sys2Proof/Machine/Step.lean ====
section
/-! DEFINITION. One step of the machine, and the placing of an instruction where the next step finds it.

The block fetches nothing (10 R13): the next instruction is the Byte of the host's next `WR CMD` (log entry 11). -/

namespace Sys2Proof.Machine

open Sys2Proof

/-- One step: the host's next transaction (20 R48). -/
def step (s : State) : Host.Outcome State Fault Refusal := stepState s

/-- The state whose next transaction writes the instruction to CMD, before everything the script holds. -/
def State.withFetchWord (s : State) (nbits w : Nat) : State := s.putScript (commandTxn nbits w :: s.script)

end Sys2Proof.Machine
end

