-- ==== Sys2Proof/Machine/Framer.lean ====
section
/-! DEFINITION. The Framer's three functions, host software on bit strings (45 R145 to R148).  No step uses them; the
obligations of 44 R137 are stated with them (log entry 25). -/

namespace Sys2Proof.Machine

open Sys2Proof

/-- The 8-digit binary numeral of a code point, most significant digit first (45 R146). -/
def codeBits (c : Nat) : List Bool := (List.range 8).map fun i => c.testBit (7 - i)

/-- `text_to_bits` (45 R146); none for a text with a code point above 255 (93 U9). -/
def textToBits (text : List Nat) : Option (List Bool) :=
  if text.all (fun c => decide (c < 256)) then some (text.flatMap codeBits) else none

/-- The number whose binary numeral is `bs`, most significant first. -/
def numeralValue (bs : List Bool) : Nat := bs.foldl (fun n b => 2 * n + b.toNat) 0

/-- `bits_to_text` (45 R147): the code points of the whole groups of eight bits. -/
def bitsToText (bs : List Bool) : List Nat :=
  (List.range (bs.length / 8)).map fun c => numeralValue ((bs.drop (8 * c)).take 8)

/-- The pattern 10101010. -/
def syncPattern : List Bool := [true, false, true, false, true, false, true, false]

/-- The bits after the first occurrence of the pattern; none when it does not occur (45 R148). -/
def afterSync : List Bool → Option (List Bool)
  | [] => none
  | b :: bs => if (b :: bs).take 8 = syncPattern then some ((b :: bs).drop 8) else afterSync bs

/-- `strip_preamble` (45 R148): the input itself when the pattern does not occur. -/
def stripPreamble (bs : List Bool) : List Bool := (afterSync bs).getD bs

end Sys2Proof.Machine
end

