-- ==== Sys2Proof/Machine/Reference.lean ====
section
/-! DEFINITION. The spec's formulas over the reals, as the statements use them: the closed form of a tone, the gain of
a taper, the power at one frequency, the energy of a window.  No step computes them.  They are the values
over NUM_REAL (00 R5). -/

namespace Sys2Proof.Machine

open Sys2Proof Real

/-- The instance computes over NUM_REAL (00 R5), for which the spec states its rules. -/
abbrev State.Real (s : State) : Prop := s.par.num = .real

/-- The instance computes over NUM_REAL with an exact phase accumulator (00 R5). -/
abbrev State.Exact (s : State) : Prop := s.par.num = .real ∧ s.par.phw = .exact

/-- `amplitude * sin(2*pi*frequency*(i/sample_rate) + phase)` (40 R82). -/
noncomputable def toneAt (f fs a ph : ℝ) (i : ℕ) : ℝ := a * sin (2 * π * f * (i / fs) + ph)

/-- The gain of 41 R91 at index `i` of a buffer of `len` samples under a taper of `m`. -/
noncomputable def gainAt (c : WindowChoice) (len m i : Nat) : ℝ :=
  if 0 < m ∧ i < m then (taperAt .real c m i).eval
  else if 0 < m ∧ len - m ≤ i then (taperAt .real c m (len - 1 - i)).eval
  else 1

/-- The gain of 43 R111 at index `i` of a window of `len` samples. -/
noncomputable def windowGainAt (c : WindowChoice) (len i : Nat) : ℝ :=
  if Config.winbMin < len then (winbAt .real c len i).eval else 1

/-- The sum over `i < len` of `w i * f i`. -/
noncomputable def weightedSum (len : Nat) (w f : ℕ → ℝ) : ℝ := ((List.range len).map fun i => w i * f i).sum

/-- The power of `w[0..len)` at `omega` radians a sample, `C*C + S*S` (43 R112). -/
noncomputable def powerAt (len : Nat) (w : ℕ → ℝ) (omega : ℝ) : ℝ :=
  weightedSum len w (fun i => cos (omega * i)) ^ 2 + weightedSum len w (fun i => sin (omega * i)) ^ 2

/-- Sample `i` of tapered window `k` of DEMODB, `RX[k*L + i]` times its gain (43 R110, R111). -/
noncomputable def State.basicSample (s : State) (k i : Nat) : ℝ :=
  (s.rxAt (k * s.symbolLen + i)).eval * windowGainAt s.par.winb s.symbolLen i

/-- `P(w_k, f)` with `omega = 2*pi*f/x[FS]` (43 R112, R114). -/
noncomputable def State.basicPower (s : State) (f : Scalar) (k : Nat) : ℝ :=
  powerAt s.symbolLen (s.basicSample k) (2 * π * f.eval / s.fs.eval)

/-- The normalised sample `u[j]`, for a peak `p` (44 R126). -/
noncomputable def State.normalSample (s : State) (p : ℝ) (j : Nat) : ℝ :=
  if p = 0 then (s.rxAt j).eval else (s.rxAt j).eval / p

/-- Sample `i` of window `k` filtered to the band around `f`, by the filter's weights (44 R128, R129). -/
noncomputable def State.filteredSample (s : State) (p : ℝ) (f : Scalar) (k i : Nat) : ℝ :=
  weightedSum s.symbolLen (fun j => s.normalSample p (k * s.symbolLen + j))
    (fun j => (bpfWeight .real s.par.bpf (bandLo .real f s.bw) (bandHi .real f s.bw) s.fs s.symbolLen i j).eval)

/-- The mean squared energy of window `k` in the band around `f` (44 R130). -/
noncomputable def State.bandEnergy (s : State) (p : ℝ) (f : Scalar) (k : Nat) : ℝ :=
  ((List.range s.symbolLen).map fun i => s.filteredSample p f k i ^ 2).sum / (s.symbolLen : ℝ)

/-- The decision variable of window `k` (44 R131). -/
noncomputable def State.bandRatio (s : State) (p : ℝ) (k : Nat) : ℝ :=
  s.bandEnergy p s.f1 k / (s.bandEnergy p s.f0 k + s.bandEnergy p s.f1 k + s.par.eps.eval)

/-- `p` is the peak absolute value of `RX[0..RXLEN)`, 0 for an empty buffer (44 R126). -/
def State.IsPeak (s : State) (p : ℝ) : Prop :=
  0 ≤ p ∧ (∀ i < s.rxlen, |(s.rxAt i).eval| ≤ p) ∧ (p = 0 ∨ ∃ i < s.rxlen, |(s.rxAt i).eval| = p)

/-- Symbol `k` of the sequence the Modulator sends: `1,0,1,0,1,0,1,0`, then `BI[0..BILEN)` (42 R101). -/
noncomputable def State.symbolBit (s : State) (k : Nat) : Bool :=
  if k < 8 then decide (k % 2 = 0) else (s.biAt (k - 8)).val

end Sys2Proof.Machine
end

