-- ==== Sys2Proof/Machine/Script.lean ====
section
/-! DEFINITION. The script notation's names for transactions (30 R67) and the pseudo-instructions' expansions
(30 R68). -/

namespace Sys2Proof.Machine

open Sys2Proof

/-- `wr NAME, value` (30 R67). -/
def scriptWr (r : Reg) (v : Value) : Txn := .wr (regNumber r) v

/-- `rd NAME` (30 R67). -/
def scriptRd (r : Reg) : Txn := .rd (regNumber r)

/-- `osc`, `shape`, `mod`, `demodb`, `demodr`: the write of the command's Byte to CMD (30 R67). -/
def scriptCommand (i : Instr) : Txn := scriptWr .cmd (.byte (encode i))

/-- `bits BI, "b0 b1 ..."` (30 R68). -/
def scriptBits (bs : List Bool) : List Txn :=
  (bs.mapIdx fun i b => Txn.st .bi i (.bit (Bit.ofBool b))) ++ [scriptWr .bilen (.count bs.length)]

/-- `samples RX, [v0, v1, ...]` (30 R68). -/
def scriptSamples (vs : List Scalar) : List Txn :=
  (vs.mapIdx fun i v => Txn.st .rx i (.scalar v)) ++ [scriptWr .rxlen (.count vs.length)]

/-- `loop TX`, where `rd TXLEN` answers the length of `vs` and the loads answer its elements (30 R68). -/
def scriptLoopTx (vs : List Scalar) : List Txn :=
  scriptRd .txlen ::
    ((vs.mapIdx fun i v => [Txn.ld .tx i, Txn.st .rx i (.scalar v)]).flatten
      ++ [scriptWr .rxlen (.count vs.length)])

/-- `defaults` (30 R68). -/
def scriptDefaults : List Txn :=
  [scriptWr .f0 (.scalar (.rat (mkRat 1000 1))),
   scriptWr .f1 (.scalar (.rat (mkRat 2000 1))),
   scriptWr .symdur (.scalar (.rat (mkRat 1 10))),
   scriptWr .fs (.scalar (.rat (mkRat 44100 1))),
   scriptWr .amp (.scalar (.rat (mkRat 2 5))),
   scriptWr .bw (.scalar (.rat (mkRat 220 1))),
   scriptWr .rhi (.scalar (.rat (mkRat 29 50))),
   scriptWr .rlo (.scalar (.rat (mkRat 21 50)))]

end Sys2Proof.Machine
end

