-- ==== Sys2Proof/Safety.lean ====
section
/-! DEFINITION. What the statements call safe: the invariant of the block's state, a host transaction that keeps the
host's obligations (10 R22, R31, 20 R41, 93 U3, U4), and the two obligations on the filter (44 R137). -/

namespace Sys2Proof.Machine

open Sys2Proof

/-- STATUS and CAUSE as reset, a completed command, or a rejected command leaves them (10 R14, R15). -/
abbrev State.StatusOk (s : State) : Prop :=
  (s.status = 0x00#8 ∧ s.cause = 0x00#8) ∨ (s.status = 0x01#8 ∧ s.cause = 0x00#8) ∨
    (s.status = 0x02#8 ∧ 1 ≤ s.cause.toNat ∧ s.cause.toNat ≤ 7)

/-- The invariant: every memory is in canonical form and lists no element it does not have, no output memory lists an
element at or above its length, no length is above its capacity, STATUS and CAUSE agree, PHI is a fraction of a turn,
and EPS is positive. -/
structure Inv (s : State) : Prop where
  /-- the canonical form of the memories -/
  memWf : s.memWf
  /-- TX has a value only below TXLEN (20 R42) -/
  txCells : ∀ c ∈ s.tx.cells, c.1 < s.txlen
  /-- RX has RXCAP elements (20 R40) -/
  rxCells : ∀ c ∈ s.rx.cells, c.1 < s.par.rxcap
  /-- BI has BICAP elements (20 R40) -/
  biCells : ∀ c ∈ s.bi.cells, c.1 < s.par.bicap
  /-- BO has a value only below BOLEN (20 R42) -/
  boCells : ∀ c ∈ s.bo.cells, c.1 < s.bolen
  /-- the bound of TXLEN (10 R22) -/
  txBound : s.txlen ≤ s.par.txcap
  /-- the bound of RXLEN (10 R22) -/
  rxBound : s.rxlen ≤ s.par.rxcap
  /-- the bound of BILEN (10 R22) -/
  biBound : s.bilen ≤ s.par.bicap
  /-- the bound of BOLEN (10 R22) -/
  boBound : s.bolen ≤ s.par.bocap
  /-- DONE and ERR are never both 1, and CAUSE fits them (10 R14, R15) -/
  statusOk : s.StatusOk
  /-- `0 <= PHI < 1` (10 R24), over NUM_REAL and at every finite phase width -/
  phiRange : s.par.num = .real ∨ s.par.phw ≠ .exact → 0 ≤ s.dp.phi.eval ∧ s.dp.phi.eval < 1
  /-- `EPS > 0` (00 R5) -/
  epsPos : 0 < s.par.eps.eval

/-- A register the host may write (10 R11). -/
def regWritable : Reg → Bool
  | .status | .cause | .sync | .tapern | .eps | .txlen | .bolen => false
  | .cmd | .f0 | .f1 | .symdur | .fs | .amp | .bw | .rhi | .rlo => true
  | .ofreq | .odur | .oamp | .ophase | .shpn | .rxlen | .bilen => true

/-- A value within the bound of the length register it is written to (10 R22). -/
def lengthWithin (s : State) (r : Reg) (v : Value) : Bool :=
  match r, v with
  | .rxlen, .count n => decide (n ≤ s.par.rxcap)
  | .bilen, .count n => decide (n ≤ s.par.bicap)
  | _, _ => true

/-- A transaction that keeps the host's obligations: typed, to a register of the map the host may write, within the
bounds of the length registers, to and from elements that exist (30 R66, 93 U3, U4). -/
def Txn.legal (t : Txn) (s : State) : Bool :=
  t.wf && match t with
    | .wr r v => match regOfNumber r with
      | some reg => regWritable reg && lengthWithin s reg v
      | none => false
    | .rd r => (regOfNumber r).isSome
    | .st m i _ => decide (i < s.capacity m) && (m == .rx || m == .bi)
    | .ld m i => decide (i < s.capacity m)

/-- Two states agree on everything a command reads (10 R32): its registers, and the valid extent of its input memory;
and they are of one instance. -/
def State.AgreeOn (s t : State) : Instr → Prop
  | .osc => s.par = t.par ∧ s.fs = t.fs ∧ s.ofreq = t.ofreq ∧ s.odur = t.odur ∧ s.oamp = t.oamp ∧
      s.ophase = t.ophase
  | .shape => s.par = t.par ∧ s.shpn = t.shpn ∧ s.rxlen = t.rxlen ∧ ∀ i < s.rxlen, s.rxAt i = t.rxAt i
  | .mod => s.par = t.par ∧ s.f0 = t.f0 ∧ s.f1 = t.f1 ∧ s.symdur = t.symdur ∧ s.fs = t.fs ∧ s.amp = t.amp ∧
      s.bilen = t.bilen ∧ ∀ i < s.bilen, s.biAt i = t.biAt i
  | .demodb => s.par = t.par ∧ s.f0 = t.f0 ∧ s.f1 = t.f1 ∧ s.symdur = t.symdur ∧ s.fs = t.fs ∧
      s.rxlen = t.rxlen ∧ ∀ i < s.rxlen, s.rxAt i = t.rxAt i
  | .demodr => s.par = t.par ∧ s.f0 = t.f0 ∧ s.f1 = t.f1 ∧ s.symdur = t.symdur ∧ s.fs = t.fs ∧ s.bw = t.bw ∧
      s.rhi = t.rhi ∧ s.rlo = t.rlo ∧ s.rxlen = t.rxlen ∧ ∀ i < s.rxlen, s.rxAt i = t.rxAt i

/-! The two obligations on `BPF` (44 R137).  An instance whose filter does not meet them is no instance of the spec;
the model's own filter is any linear one, so it admits more (log entry 15). -/

/-- The state after reset of an instance, with a payload in BI. -/
def payloadState (par : Params) (payload : List Bool) : State :=
  { State.reset with
    par := par
    bi := (Mem.unwritten Bit).replace (bitDefault .bi) (payload.map Bit.ofBool)
    bilen := payload.length }

/-- The state after reset of an instance, with samples in RX. -/
def receivedState (par : Params) (xs : List Scalar) : State :=
  { State.reset with
    par := par
    rx := (Mem.unwritten Scalar).replace (scalarDefault .rx) xs
    rxlen := xs.length }

/-- The bits DEMODR decodes from samples at the reset configuration. -/
noncomputable def robustDecoded (par : Params) (xs : List Scalar) : List Bool :=
  ((receivedState par xs).robustBits).map Bit.val

/-- The bits DEMODB decodes from samples at the reset configuration. -/
noncomputable def basicDecoded (par : Params) (xs : List Scalar) : List Bool :=
  ((receivedState par xs).basicBits).map Bit.val

/-- Round trip (44 R137 (1)): MOD's own output decodes to SYNC and the payload, for every printable-ASCII text. -/
def filterRoundTrip (par : Params) : Prop :=
  ∀ text : List Nat, (∀ c ∈ text, 0x20 ≤ c ∧ c ≤ 0x7E) →
    robustDecoded par (payloadState par (text.flatMap codeBits)).modSamples
      = syncPattern ++ text.flatMap codeBits

/-- The concatenation of pure tones at the reset configuration (43 R118).  The spec names the two frequencies alone.
DESIGN CHOICE, log entry 31: each tone starts at phase 0, has amplitude AMP and the samples of one symbol, and is not
shaped. -/
def cleanTones (par : Params) (pattern : List Bool) : List Scalar :=
  pattern.flatMap fun b => (payloadState par []).symbolTone (Bit.ofBool b)

/-- Agreement on clean tones (44 R137 (2), 43 R118), for tones as `cleanTones` takes them (log entry 31). -/
def filterAgreesOnCleanTones (par : Params) : Prop :=
  ∀ pattern : List Bool,
    robustDecoded par (cleanTones par pattern) = pattern ∧ basicDecoded par (cleanTones par pattern) = pattern

end Sys2Proof.Machine
end

