-- ==== Sys2Proof/Certificates/Slice0/Obligations.lean ====
section
/-! DEFINITION. The statements for the provers, file by file of spec/.

The spec states its rules over NUM_REAL with an exact phase (00 R5).  A clause about values over the reals is stated for
an instance of that number domain (`s.Real`, with an exact phase `s.Exact`); every other clause is stated for every
instance. -/

open Sys2Proof Sys2Proof.Machine

/-! ## Encoding (30) -/

/-- 30 R61: each command has one Byte, matched whole. -/
def Obligations.OpcodeMap : Prop :=
  (∀ w : Byte, decode w = .ok .osc ↔ w = 0x01#8) ∧
  (∀ w : Byte, decode w = .ok .shape ↔ w = 0x02#8) ∧
  (∀ w : Byte, decode w = .ok .mod ↔ w = 0x03#8) ∧
  (∀ w : Byte, decode w = .ok .demodb ↔ w = 0x04#8) ∧
  (∀ w : Byte, decode w = .ok .demodr ↔ w = 0x05#8)

/-- 30 R60, R61: decoding an encoded command gives it back, and a Byte that decodes is the encoding of what it decodes
to; the same for register numbers (10 R11). -/
def Obligations.DecodeAndEncodeAgree : Prop :=
  (∀ i : Instr, decode (encode i) = .ok i) ∧
  (∀ (w : Byte) (i : Instr), decode w = .ok i → w = encode i) ∧
  (∀ (r : Byte) (reg : Reg), regOfNumber r = some reg ↔ r = regNumber reg)

/-- 30 R63, R64: a Byte outside 0x01 to 0x05 is stored in CMD and raises ILLEGAL_CMD, and nothing else changes. -/
def Obligations.IllegalBytesRaiseIllegalCmd : Prop :=
  ∀ (s : State) (w : Byte), w ∉ [0x01#8, 0x02#8, 0x03#8, 0x04#8, 0x05#8] →
    transact (.wr 0x00#8 (.byte w)) s = .next { s with cmd := w, status := 0x02#8, cause := 0x07#8 }

/-- 10 R16: a write of CMD stores the Byte and runs the command it encodes; a read returns the last value written,
0x00 after reset; no command writes CMD. -/
def Obligations.CmdHoldsTheByteWritten : Prop :=
  State.reset.cmd = 0x00#8 ∧
  (∀ s : State, transact (.rd 0x00#8) s = .next { s with returned := s.returned ++ [.byte s.cmd] }) ∧
  (∀ (s : State) (i : Instr), transact (.wr 0x00#8 (.byte (encode i))) s = exec i { s with cmd := encode i }) ∧
  (∀ (s t : State) (w : Byte), transact (.wr 0x00#8 (.byte w)) s = .next t → t.cmd = w) ∧
  (∀ (s t : State) (i : Instr), exec i s = .next t → t.cmd = s.cmd)

/-- A step whose next transaction writes a command's Byte to CMD is `exec` of that command, at the state that has taken
the transaction from the script and holds the Byte in CMD; `withFetchWord` makes it the next transaction (log entry
11). -/
def Obligations.StepRunsTheDecodedCommand : Prop :=
  (∀ (s : State) (r w : Byte) (ts : List Txn) (i : Instr), s.script = .wr r (.byte w) :: ts →
    regOfNumber r = some .cmd → decode w = .ok i → step s = exec i { s with script := ts, cmd := w }) ∧
  (∀ (s : State) (i : Instr), step (s.withFetchWord 8 (encode i).toNat) = exec i { s with cmd := encode i })

/-! ## Ordering (20 R48) and the end of a script (70 R191) -/

/-- 20 R48, 70 R191: a step is the whole of the host's next transaction, which leaves the rest of the script and only
appends to the values returned; a block with no transaction left keeps its state (60 R175).  That the script stands in
the state is the model's choice, log entry 11. -/
def Obligations.StepIsTheNextTransaction : Prop :=
  (∀ s : State, s.script = [] → step s = .next s) ∧
  (∀ (s : State) (x : Txn) (ts : List Txn), s.script = x :: ts → step s = transact x { s with script := ts }) ∧
  (∀ (s t : State) (x : Txn), transact x s = .next t → t.script = s.script) ∧
  (∀ (s t : State) (x : Txn), transact x s = .next t → ∃ vs, t.returned = s.returned ++ vs ∧ vs.length ≤ 1)

/-! ## Faults and flags (60, 10 R14, R15) -/

/-- 60 R165: the exact effects of a fault; 60 R156: its codes. -/
def Obligations.FaultChangesStatusAndCauseOnly : Prop :=
  ∀ (s t : State) (w : Byte), transact (.wr 0x00#8 (.byte w)) s = .next t → t.status ≠ 0x01#8 →
    t = { s with cmd := w, status := 0x02#8, cause := t.cause } ∧ 1 ≤ t.cause.toNat ∧ t.cause.toNat ≤ 7

/-- 10 R14, R15: every write of CMD sets exactly one of DONE and ERR, CAUSE is 0 exactly when DONE is 1, the reserved
bits read as 0, and no command reads STATUS or CAUSE. -/
def Obligations.FlagsTellTheOutcome : Prop :=
  (∀ (s : State) (w : Byte), ∃ t, transact (.wr 0x00#8 (.byte w)) s = .next t ∧
    ((t.done = true ∧ t.err = false ∧ t.cause = 0x00#8) ∨
      (t.done = false ∧ t.err = true ∧ 1 ≤ t.cause.toNat ∧ t.cause.toNat ≤ 7)) ∧
    t.status.extractLsb' 2 6 = 0#6 ∧ t.cause.extractLsb' 3 5 = 0#5) ∧
  (∀ (s : State) (a b : Byte) (i : Instr), exec i { s with status := a, cause := b } = exec i s)

/-- 60 R164: the causes of a rejected command are those of its own checks, and the first check that fails, in the order
OPERAND, CFG_WINDOW, CFG_FREQ, CFG_RATIO, CFG_BAND, CAPACITY, gives the cause; a command none of whose checks fails
completes.  What each check asks is `ChecksAskTheNumberDomain`. -/
def Obligations.FirstFailingCheckGivesTheCause : Prop :=
  ∀ s : State,
    (∀ t, exec .osc s = .next t → t.cause =
      if s.rateBad || s.durationBad then 0x05#8
      else if (s.par.txcap : Int) < s.oscFloor then 0x06#8 else 0x00#8) ∧
    (∀ t, exec .shape s = .next t → t.cause = if s.par.txcap < s.rxlen then 0x06#8 else 0x00#8) ∧
    (∀ t, exec .mod s = .next t → t.cause =
      if s.rateBad then 0x05#8 else if s.windowBad then 0x01#8 else if s.freqBad then 0x02#8
      else if s.par.txcap < (s.bilen + 8) * s.symbolLen then 0x06#8 else 0x00#8) ∧
    (∀ t, exec .demodb s = .next t → t.cause =
      if s.rateBad then 0x05#8 else if s.windowBad then 0x01#8 else if s.freqBad then 0x02#8
      else if s.par.bocap < s.rxlen / s.symbolLen then 0x06#8 else 0x00#8) ∧
    (∀ t, exec .demodr s = .next t → t.cause =
      if s.rateBad then 0x05#8 else if s.windowBad then 0x01#8 else if s.freqBad then 0x02#8
      else if s.ratioBad then 0x03#8 else if s.bandBad then 0x04#8
      else if s.par.bocap < s.rxlen / s.symbolLen then 0x06#8 else 0x00#8)

/-- 60 R167 (a), 43 R117, 44 R135, 42 R106, 40 R86: empty input is no fault.  Each command completes, with an empty
output (MOD: the eight synchronization symbols), at every configuration its other checks accept. -/
def Obligations.EmptyInputCompletes : Prop :=
  ∀ s : State,
    (s.rateBad = false → s.durationBad = false → s.oscFloor = 0 →
      ∃ t, exec .osc s = .next t ∧ t.status = 0x01#8 ∧ t.txlen = 0) ∧
    (s.rxlen = 0 → ∃ t, exec .shape s = .next t ∧ t.status = 0x01#8 ∧ t.txlen = 0) ∧
    (s.rateBad = false → s.windowBad = false → s.freqBad = false → s.bilen = 0 → 8 * s.symbolLen ≤ s.par.txcap →
      ∃ t, exec .mod s = .next t ∧ t.status = 0x01#8 ∧ t.txlen = 8 * s.symbolLen) ∧
    (s.rateBad = false → s.windowBad = false → s.freqBad = false → s.rxlen < s.symbolLen →
      ∃ t, exec .demodb s = .next t ∧ t.status = 0x01#8 ∧ t.bolen = 0) ∧
    (s.rateBad = false → s.windowBad = false → s.freqBad = false → s.ratioBad = false → s.bandBad = false →
      s.rxlen < s.symbolLen → ∃ t, exec .demodr s = .next t ∧ t.status = 0x01#8 ∧ t.bolen = 0)

/-! ## The checks of each command -/

/-- 60 R157 to R162, 00 R9: what each check asks, in every instance, of what the registers denote: `<`, `=` and `floor`
are those of the instance's number domain, over NUM_REAL those of the real numbers.  That a finite format's `<=` and
`>=` are the failure of its `<` is the model's choice, log entry 20; that the Counts `L` and `N` are the floors at or
above 0, and 0 where a floor is negative, is its choice too, log entry 26. -/
def Obligations.ChecksAskTheNumberDomain : Prop :=
  ∀ (s : State) (N : NumDomain), N = s.par.num →
    (s.rateBad = true ↔ ¬ N.Lt 0 s.fs.eval) ∧
    (s.durationBad = true ↔ N.Lt s.odur.eval 0) ∧
    s.oscFloor = N.floorOf (N.mul s.fs s.odur).eval ∧
    (s.windowBad = true ↔ N.floorOf (N.mul s.symdur s.fs).eval < 1) ∧
    s.symbolFloor = N.floorOf (N.mul s.symdur s.fs).eval ∧
    s.symbolLen = s.symbolFloor.toNat ∧
    (∀ t, exec .osc s = .next t → t.status = 0x01#8 → t.txlen = s.oscFloor.toNat) ∧
    (s.freqBad = true ↔ N.Eq s.f0.eval s.f1.eval ∨
      ∃ f ∈ [s.f0, s.f1], ¬ N.Lt f.eval (N.div s.fs (.rat (mkRat 2 1))).eval) ∧
    (s.ratioBad = true ↔ ¬ N.Lt s.rlo.eval s.rhi.eval) ∧
    (s.bandBad = true ↔ ∃ f ∈ [s.f0, s.f1], ¬ N.Lt (bandLo N f s.bw).eval (bandHi N f s.bw).eval ∨
      ¬ N.Lt (bandHi N f s.bw).eval (N.div s.fs (.rat (mkRat 2 1))).eval) ∧
    (N = .real → ∀ (x y : ℝ), (N.Lt x y ↔ x < y) ∧ (N.Eq x y ↔ x = y) ∧ N.floorOf x = ⌊x⌋)

/-- 40 R85, over the reals. -/
def Obligations.OscRejects : Prop :=
  ∀ s : State, s.Real →
    (s.fs.eval ≤ 0 ∨ s.odur.eval < 0 → exec .osc s = .next { s with status := 0x02#8, cause := 0x05#8 }) ∧
    (0 < s.fs.eval → 0 ≤ s.odur.eval → (s.par.txcap : Int) < ⌊s.fs.eval * s.odur.eval⌋ →
      exec .osc s = .next { s with status := 0x02#8, cause := 0x06#8 }) ∧
    (0 < s.fs.eval → 0 ≤ s.odur.eval → ⌊s.fs.eval * s.odur.eval⌋ ≤ (s.par.txcap : Int) →
      ∃ t, exec .osc s = .next t ∧ t.status = 0x01#8 ∧ t.cause = 0x00#8)

/-- 41 R93, in every state. -/
def Obligations.ShapeRejects : Prop :=
  ∀ s : State,
    (s.par.txcap < s.rxlen → exec .shape s = .next { s with status := 0x02#8, cause := 0x06#8 }) ∧
    (s.rxlen ≤ s.par.txcap → ∃ t, exec .shape s = .next t ∧ t.status = 0x01#8 ∧ t.cause = 0x00#8 ∧
      (s.rxlen = 0 → t.txlen = 0))

/-- 42 R105, over the reals. -/
def Obligations.ModRejects : Prop :=
  ∀ s : State, s.Real →
    (s.fs.eval ≤ 0 → exec .mod s = .next { s with status := 0x02#8, cause := 0x05#8 }) ∧
    (0 < s.fs.eval → ⌊s.symdur.eval * s.fs.eval⌋ < 1 →
      exec .mod s = .next { s with status := 0x02#8, cause := 0x01#8 }) ∧
    (0 < s.fs.eval → 1 ≤ ⌊s.symdur.eval * s.fs.eval⌋ →
      (s.f0.eval = s.f1.eval ∨ s.fs.eval / 2 ≤ s.f0.eval ∨ s.fs.eval / 2 ≤ s.f1.eval) →
      exec .mod s = .next { s with status := 0x02#8, cause := 0x02#8 }) ∧
    (0 < s.fs.eval → 1 ≤ ⌊s.symdur.eval * s.fs.eval⌋ →
      s.f0.eval ≠ s.f1.eval → s.f0.eval < s.fs.eval / 2 → s.f1.eval < s.fs.eval / 2 →
      (s.par.txcap : Int) < (s.bilen + 8) * ⌊s.symdur.eval * s.fs.eval⌋ →
      exec .mod s = .next { s with status := 0x02#8, cause := 0x06#8 }) ∧
    (0 < s.fs.eval → 1 ≤ ⌊s.symdur.eval * s.fs.eval⌋ →
      s.f0.eval ≠ s.f1.eval → s.f0.eval < s.fs.eval / 2 → s.f1.eval < s.fs.eval / 2 →
      (s.bilen + 8) * ⌊s.symdur.eval * s.fs.eval⌋ ≤ (s.par.txcap : Int) →
      ∃ t, exec .mod s = .next t ∧ t.status = 0x01#8 ∧ t.cause = 0x00#8)

/-- 43 R116, over the reals. -/
def Obligations.BasicRejects : Prop :=
  ∀ s : State, s.Real →
    (s.fs.eval ≤ 0 → exec .demodb s = .next { s with status := 0x02#8, cause := 0x05#8 }) ∧
    (0 < s.fs.eval → ⌊s.symdur.eval * s.fs.eval⌋ < 1 →
      exec .demodb s = .next { s with status := 0x02#8, cause := 0x01#8 }) ∧
    (0 < s.fs.eval → 1 ≤ ⌊s.symdur.eval * s.fs.eval⌋ →
      (s.f0.eval = s.f1.eval ∨ s.fs.eval / 2 ≤ s.f0.eval ∨ s.fs.eval / 2 ≤ s.f1.eval) →
      exec .demodb s = .next { s with status := 0x02#8, cause := 0x02#8 }) ∧
    (0 < s.fs.eval → 1 ≤ ⌊s.symdur.eval * s.fs.eval⌋ →
      s.f0.eval ≠ s.f1.eval → s.f0.eval < s.fs.eval / 2 → s.f1.eval < s.fs.eval / 2 →
      (s.par.bocap : Int) < (s.rxlen : Int) / ⌊s.symdur.eval * s.fs.eval⌋ →
      exec .demodb s = .next { s with status := 0x02#8, cause := 0x06#8 }) ∧
    (0 < s.fs.eval → 1 ≤ ⌊s.symdur.eval * s.fs.eval⌋ →
      s.f0.eval ≠ s.f1.eval → s.f0.eval < s.fs.eval / 2 → s.f1.eval < s.fs.eval / 2 →
      (s.rxlen : Int) / ⌊s.symdur.eval * s.fs.eval⌋ ≤ (s.par.bocap : Int) →
      ∃ t, exec .demodb s = .next t ∧ t.status = 0x01#8 ∧ t.cause = 0x00#8)

/-- 44 R134, with the band edges of 44 R128, over the reals. -/
def Obligations.RobustRejects : Prop :=
  ∀ s : State, s.Real → ∀ badBand : Prop,
    (badBand ↔ ∃ f ∈ [s.f0.eval, s.f1.eval],
      ¬ max 50 (f - s.bw.eval) < f + s.bw.eval ∨ ¬ f + s.bw.eval < s.fs.eval / 2) →
    (s.fs.eval ≤ 0 → exec .demodr s = .next { s with status := 0x02#8, cause := 0x05#8 }) ∧
    (0 < s.fs.eval → ⌊s.symdur.eval * s.fs.eval⌋ < 1 →
      exec .demodr s = .next { s with status := 0x02#8, cause := 0x01#8 }) ∧
    (0 < s.fs.eval → 1 ≤ ⌊s.symdur.eval * s.fs.eval⌋ →
      (s.f0.eval = s.f1.eval ∨ s.fs.eval / 2 ≤ s.f0.eval ∨ s.fs.eval / 2 ≤ s.f1.eval) →
      exec .demodr s = .next { s with status := 0x02#8, cause := 0x02#8 }) ∧
    (0 < s.fs.eval → 1 ≤ ⌊s.symdur.eval * s.fs.eval⌋ →
      s.f0.eval ≠ s.f1.eval → s.f0.eval < s.fs.eval / 2 → s.f1.eval < s.fs.eval / 2 →
      (s.rhi.eval ≤ s.rlo.eval → exec .demodr s = .next { s with status := 0x02#8, cause := 0x03#8 }) ∧
      (s.rlo.eval < s.rhi.eval → badBand → exec .demodr s = .next { s with status := 0x02#8, cause := 0x04#8 }) ∧
      (s.rlo.eval < s.rhi.eval → ¬ badBand → (s.par.bocap : Int) < (s.rxlen : Int) / ⌊s.symdur.eval * s.fs.eval⌋ →
        exec .demodr s = .next { s with status := 0x02#8, cause := 0x06#8 }) ∧
      (s.rlo.eval < s.rhi.eval → ¬ badBand → (s.rxlen : Int) / ⌊s.symdur.eval * s.fs.eval⌋ ≤ (s.par.bocap : Int) →
        ∃ t, exec .demodr s = .next t ∧ t.status = 0x01#8 ∧ t.cause = 0x00#8))

/-! ## The Oscillator (40) -/

/-- 40 R81, R82: OSC completes with `floor(FS * ODUR)` samples, and sample `i` is the closed form. -/
def Obligations.OscSamplesAreTheClosedForm : Prop :=
  ∀ s : State, s.rateBad = false → s.durationBad = false → s.oscFloor ≤ (s.par.txcap : Int) →
    ∃ t, exec .osc s = .next t ∧ t.status = 0x01#8 ∧ t.cause = 0x00#8 ∧
      (0 ≤ s.oscFloor → (t.txlen : Int) = s.oscFloor) ∧
      (s.Real → (t.txlen : Int) = ⌊s.fs.eval * s.odur.eval⌋) ∧
      (s.Exact → ∀ i < t.txlen,
        (t.txAt i).eval = s.oamp.eval * Real.sin (2 * Real.pi * s.ofreq.eval * (i / s.fs.eval) + s.ophase.eval))

/-- 40 R83, 10 R24: after OSC the phase accumulator has advanced by the increment once per sample and is a fraction of
a turn.  That it keeps that value after the command is the model's choice, log entry 7. -/
def Obligations.PhaseAccumulatorAdvances : Prop :=
  ∀ s t : State, s.Exact → exec .osc s = .next t → t.status = 0x01#8 →
    t.dp.phi.eval = Int.fract (s.ophase.eval / (2 * Real.pi) + t.txlen * (s.ofreq.eval / s.fs.eval))

/-- 40 R84: equal values in FS, OFREQ, ODUR, OAMP and OPHASE give equal TXLEN and equal values of the valid elements of
TX, and the same STATUS and CAUSE, in every instance of the block; the values may be written as different terms. -/
def Obligations.OscIsPure : Prop :=
  ∀ s s' t t' : State, s.par = s'.par → s.fs.eval = s'.fs.eval → s.ofreq.eval = s'.ofreq.eval →
    s.odur.eval = s'.odur.eval → s.oamp.eval = s'.oamp.eval → s.ophase.eval = s'.ophase.eval →
    exec .osc s = .next t → exec .osc s' = .next t' →
    t.status = t'.status ∧ t.cause = t'.cause ∧
    (t.status = 0x01#8 → t.txlen = t'.txlen ∧ ∀ i < t.txlen, (t.txAt i).eval = (t'.txAt i).eval)

/-- 40 R86: an oscillator at amplitude 0 gives zeros; at frequency 0 every sample is `a * sin(ph)`; at half the sample
rate and phase 0 every sample is 0. -/
def Obligations.OscCornerCases : Prop :=
  ∀ s t : State, s.Exact → exec .osc s = .next t → t.status = 0x01#8 → ∀ i < t.txlen,
    (s.oamp.eval = 0 → (t.txAt i).eval = 0) ∧
    (s.ofreq.eval = 0 → (t.txAt i).eval = s.oamp.eval * Real.sin s.ophase.eval) ∧
    (s.ofreq.eval = s.fs.eval / 2 → 0 < s.fs.eval → s.ophase.eval = 0 → (t.txAt i).eval = 0)

/-! ## The Symbol Shaper (41) -/

/-- 41 R90: SHAPE completes with as many samples as its input; where the effective taper length is 0 it returns the
input unmodified; the two tapers never overlap. -/
def Obligations.ShapeClampsTheTaper : Prop :=
  ∀ (s : State) (m : Nat), m = (if 2 * s.shpn ≤ s.rxlen then s.shpn else s.rxlen / 2) → s.rxlen ≤ s.par.txcap →
    2 * m ≤ s.rxlen ∧ m = taperLen s.rxlen s.shpn ∧
    ∃ t, exec .shape s = .next t ∧ t.status = 0x01#8 ∧ t.cause = 0x00#8 ∧ t.txlen = s.rxlen ∧
      (m = 0 → ∀ i < s.rxlen, t.txAt i = s.rxAt i) ∧
      (∀ i, m ≤ i → i < s.rxlen - m → t.txAt i = s.rxAt i)

/-- 41 R91: the gain of every sample, and what the default `TAPERW` is. -/
def Obligations.ShapeGains : Prop :=
  ∀ (s : State) (m : Nat), m = taperLen s.rxlen s.shpn → 0 < m → s.rxlen ≤ s.par.txcap →
    ∃ t, exec .shape s = .next t ∧ t.txlen = s.rxlen ∧
      (s.Real → ∀ i < m, (t.txAt i).eval = (s.rxAt i).eval * (taperAt .real s.par.taperw m i).eval) ∧
      (s.Real → ∀ i < s.rxlen, s.rxlen - m ≤ i →
        (t.txAt i).eval = (s.rxAt i).eval * (taperAt .real s.par.taperw m (s.rxlen - 1 - i)).eval) ∧
      (s.par.taperw = .hann → ∀ j < m, (taperAt .real s.par.taperw m j).eval
        = 0.5 - 0.5 * Real.cos (2 * Real.pi * j / (2 * m - 1)))

/-- 41 R91: the default taper starts at 0, rises strictly, and ends below 1, at `0.5 + 0.5*cos(pi/(2m-1))`. -/
def Obligations.HannTaperRises : Prop :=
  ∀ m : Nat, 0 < m →
    (taperAt .real .hann m 0).eval = 0 ∧
    (∀ i j : Nat, i < j → j < m → (taperAt .real .hann m i).eval < (taperAt .real .hann m j).eval) ∧
    (taperAt .real .hann m (m - 1)).eval = 0.5 + 0.5 * Real.cos (Real.pi / (2 * m - 1)) ∧
    (2 ≤ m → (taperAt .real .hann m (m - 1)).eval < 1)

/-- 41 R94: `Shape` keeps the length and is linear, for every `TAPERW`. -/
def Obligations.ShapeIsLinear : Prop :=
  ∀ (c : WindowChoice) (n : Nat) (xs ys zs : List Scalar) (a b : ℝ), xs.length = zs.length → ys.length = zs.length →
    (∀ i < zs.length, (zs.getD i (.rat 0)).eval
      = a * (xs.getD i (.rat 0)).eval + b * (ys.getD i (.rat 0)).eval) →
    (shapeList .real c n zs).length = zs.length ∧
    ∀ i < zs.length, ((shapeList .real c n zs).getD i (.rat 0)).eval
      = a * ((shapeList .real c n xs).getD i (.rat 0)).eval + b * ((shapeList .real c n ys).getD i (.rat 0)).eval

/-! ## The Modulator (42) -/

/-- 42 R101 to R104: MOD completes with `(BILEN + 8) * L` samples; sample `i` of symbol `k` is the tone of that symbol,
F1 for 1 and F0 for 0, from phase 0 with amplitude AMP, times the gain of a taper of 256 clamped to the symbol; the
symbols are the eight bits of SYNC and then the payload. -/
def Obligations.ModSendsSyncAndPayload : Prop :=
  ∀ s : State, s.rateBad = false → s.windowBad = false → s.freqBad = false →
    (s.bilen + 8) * s.symbolLen ≤ s.par.txcap →
    ∃ t, exec .mod s = .next t ∧ t.status = 0x01#8 ∧ t.cause = 0x00#8 ∧
      t.txlen = (s.bilen + 8) * s.symbolLen ∧
      (s.Real → (s.symbolLen : Int) = ⌊s.symdur.eval * s.fs.eval⌋) ∧
      (s.Exact → ∀ k < s.bilen + 8, ∀ i < s.symbolLen, ∀ b : Bool,
        b = (if k < 8 then decide (k % 2 = 0) else (s.biAt (k - 8)).val) →
        (t.txAt (k * s.symbolLen + i)).eval =
          s.amp.eval * Real.sin (2 * Real.pi * (if b then s.f1.eval else s.f0.eval) * (i / s.fs.eval)) *
            gainAt s.par.taperw s.symbolLen (taperLen s.symbolLen 256) i)

/-- 42 R103: with the default taper every symbol of two samples or more begins and ends with a sample equal to 0. -/
def Obligations.ModSymbolsStartAndEndAtZero : Prop :=
  ∀ s t : State, s.Exact → exec .mod s = .next t → t.status = 0x01#8 → s.par.taperw = .hann → 2 ≤ s.symbolLen →
    ∀ k < s.bilen + 8, (t.txAt (k * s.symbolLen)).eval = 0 ∧
      (t.txAt (k * s.symbolLen + (s.symbolLen - 1))).eval = 0

/-- 95 V-RST-2, 42 R104: MOD right after reset completes with the default synchronization burst of 35280 samples. -/
def Obligations.ModAtReset : Prop :=
  ∃ t, exec .mod State.reset = .next t ∧ t.status = 0x01#8 ∧ t.cause = 0x00#8 ∧ t.txlen = 35280

/-! ## The Goertzel demodulator (43) -/

/-- 43 R110 to R114: DEMODB completes with one bit per whole window; bit `k` is 1 exactly when the power of tapered
window `k` at F1 exceeds its power at F0, each power the sums of 43 R112 at the exact frequency. -/
def Obligations.BasicBitsComparePowers : Prop :=
  ∀ s : State, s.rateBad = false → s.windowBad = false → s.freqBad = false →
    s.rxlen / s.symbolLen ≤ s.par.bocap →
    ∃ t, exec .demodb s = .next t ∧ t.status = 0x01#8 ∧ t.cause = 0x00#8 ∧
      t.bolen = s.rxlen / s.symbolLen ∧
      (s.Real → (s.symbolLen : Int) = ⌊s.symdur.eval * s.fs.eval⌋) ∧
      (s.Real → ∀ k < t.bolen, ∀ w : ℕ → ℝ,
        (∀ i, w i = (s.rxAt (k * s.symbolLen + i)).eval *
          if 4 < s.symbolLen then (winbAt .real s.par.winb s.symbolLen i).eval else 1) →
        ((t.boAt k).val = true ↔
          powerAt s.symbolLen w (2 * Real.pi * s.f0.eval / s.fs.eval)
            < powerAt s.symbolLen w (2 * Real.pi * s.f1.eval / s.fs.eval)))

/-- 43 R111: the default window of the Goertzel demodulator, symmetric and 0 at both ends. -/
def Obligations.HannWindowIsSymmetric : Prop :=
  ∀ len : Nat, 2 ≤ len →
    (∀ i < len, (winbAt .real .hann len i).eval = 0.5 - 0.5 * Real.cos (2 * Real.pi * i / (len - 1))) ∧
    (∀ i < len, (winbAt .real .hann len i).eval = (winbAt .real .hann len (len - 1 - i)).eval) ∧
    (winbAt .real .hann len 0).eval = 0 ∧ (winbAt .real .hann len (len - 1)).eval = 0

/-- 43 R114, R117: equal powers decode to 0; such are those of a window with at most one sample other than 0 (a silent
window, a window of one sample). -/
def Obligations.BasicTiesDecodeToZero : Prop :=
  ∀ s t : State, s.Real → exec .demodb s = .next t → t.status = 0x01#8 → ∀ k < t.bolen,
    (s.basicPower s.f1 k = s.basicPower s.f0 k → (t.boAt k).val = false) ∧
    (∀ j : Nat, (∀ i < s.symbolLen, i ≠ j → (s.rxAt (k * s.symbolLen + i)).eval = 0) →
      s.basicPower s.f1 k = s.basicPower s.f0 k ∧ (t.boAt k).val = false)

/-- 43 R117: the bits do not depend on the scale of the input. -/
def Obligations.BasicIgnoresScale : Prop :=
  ∀ (s s' t t' : State) (c : ℝ), s.Real → c ≠ 0 → s.par = s'.par → s.f0 = s'.f0 → s.f1 = s'.f1 → s.symdur = s'.symdur →
    s.fs = s'.fs → s.rxlen = s'.rxlen → (∀ i < s.rxlen, (s'.rxAt i).eval = c * (s.rxAt i).eval) →
    exec .demodb s = .next t → exec .demodb s' = .next t' → t.status = 0x01#8 →
    t'.status = 0x01#8 ∧ t'.bolen = t.bolen ∧ ∀ k < t.bolen, (t'.boAt k).val = (t.boAt k).val

/-! ## The band-limited energy demodulator (44) -/

/-- 44 R126 to R133: DEMODR completes with one bit per whole window; for the peak of the valid extent, bit `k` is 1
when the ratio of window `k` is above RHI, 0 when it is below RLO, and otherwise the bit before it, 0 before the first
window.  The ratio is that of the energies of the two filtered windows of the normalised buffer. -/
def Obligations.RobustBitsFollowTheRatio : Prop :=
  ∀ s : State, s.rateBad = false → s.windowBad = false → s.freqBad = false → s.ratioBad = false →
    s.bandBad = false → s.rxlen / s.symbolLen ≤ s.par.bocap →
    ∃ t, exec .demodr s = .next t ∧ t.status = 0x01#8 ∧ t.cause = 0x00#8 ∧
      t.bolen = s.rxlen / s.symbolLen ∧
      (s.Real → (s.symbolLen : Int) = ⌊s.symdur.eval * s.fs.eval⌋) ∧
      (s.Real → ∀ p : ℝ, s.IsPeak p → ∀ k < t.bolen,
        (s.rhi.eval < s.bandRatio p k → (t.boAt k).val = true) ∧
        (s.bandRatio p k ≤ s.rhi.eval → s.bandRatio p k < s.rlo.eval → (t.boAt k).val = false) ∧
        (s.bandRatio p k ≤ s.rhi.eval → s.rlo.eval ≤ s.bandRatio p k →
          (t.boAt k).val = if k = 0 then false else (t.boAt (k - 1)).val))

/-- 44 R126: the buffer is normalised by its peak absolute value, taken once over the whole valid extent.  The block's
PEAK is that peak; every sample the block's window `k` holds is the received sample divided by it, unchanged where it is
0; no normalised sample is above 1 in absolute value, some sample reaches 1 unless all are 0, and RX keeps the host's
samples. -/
def Obligations.RobustNormalisesByThePeak : Prop :=
  ∀ s : State, s.Real →
    (∀ t, exec .demodr s = .next t → t.rx = s.rx) ∧
    ∃ p : ℝ, p = s.robustPeak.eval ∧ s.IsPeak p ∧ (s.rxlen = 0 → p = 0) ∧
      (∀ k, ∀ j < s.symbolLen, ((s.robustWindow k).getD j (.rat 0)).eval =
        if p = 0 then (s.rxAt (k * s.symbolLen + j)).eval else (s.rxAt (k * s.symbolLen + j)).eval / p) ∧
      (∀ k, ∀ j < s.symbolLen, k * s.symbolLen + j < s.rxlen →
        |((s.robustWindow k).getD j (.rat 0)).eval| ≤ 1) ∧
      (∀ j < s.rxlen, |s.normalSample p j| ≤ 1) ∧
      (p ≠ 0 → ∃ j < s.rxlen, |s.normalSample p j| = 1) ∧
      (p = 0 → ∀ j < s.rxlen, s.normalSample p j = 0)

/-- 44 R129 (a), (b), (e): the filter's output has the window's length, depends on the band, the sample rate and the
window's samples alone, and is linear in them (log entry 15). -/
def Obligations.FilterIsLinear : Prop :=
  ∀ (c : FilterChoice) (lo hi fs : Scalar) (x y z : List Scalar) (a b : ℝ), x.length = z.length →
    y.length = z.length →
    (∀ i < z.length, (z.getD i (.rat 0)).eval = a * (x.getD i (.rat 0)).eval + b * (y.getD i (.rat 0)).eval) →
    (bpfApply .real c lo hi fs z).length = z.length ∧
    ∀ i < z.length, ((bpfApply .real c lo hi fs z).getD i (.rat 0)).eval
      = a * ((bpfApply .real c lo hi fs x).getD i (.rat 0)).eval + b * ((bpfApply .real c lo hi fs y).getD i (.rat 0)).eval

/-- 44 R136: the stand-in filter keeps exactly the bins of the discrete Fourier transform whose frequency lies in the
band (the real part of the inverse transform; log entry 16). -/
def Obligations.StandInFilterKeepsTheBand : Prop :=
  ∀ (lo hi fs : Scalar) (w : List Scalar) (X Y : ℕ → ℂ) (fq : ℕ → ℝ),
    (∀ q, fq q = (min q (w.length - q) : ℕ) * fs.eval / w.length) →
    (∀ q, X q = ∑ i ∈ Finset.range w.length, ((w.getD i (.rat 0)).eval : ℂ) *
      Complex.exp (-(2 * Real.pi * Complex.I * i * q / w.length))) →
    (∀ q, (lo.eval ≤ fq q ∧ fq q ≤ hi.eval → Y q = X q) ∧ (¬ (lo.eval ≤ fq q ∧ fq q ≤ hi.eval) → Y q = 0)) →
    ∀ i < w.length, ((bpfApply .real .ideal lo hi fs w).getD i (.rat 0)).eval =
      ((1 / (w.length : ℂ)) * ∑ q ∈ Finset.range w.length,
        Y q * Complex.exp (2 * Real.pi * Complex.I * i * q / w.length)).re

/-- 44 R131: the ratio of a window, its bounds, and the effect of EPS. -/
def Obligations.RatioIsAFraction : Prop :=
  ∀ (s : State) (k : Nat) (p0 p1 r : ℝ), s.Real → 0 < s.par.eps.eval →
    p0 = (s.robustEnergy s.f0 k).eval → p1 = (s.robustEnergy s.f1 k).eval → r = (s.robustRatio k).eval →
    r = p1 / (p0 + p1 + s.par.eps.eval) ∧ 0 ≤ p0 ∧ 0 ≤ p1 ∧ s.par.eps.eval ≤ p0 + p1 + s.par.eps.eval ∧
    0 ≤ r ∧ r < 1 ∧ (p0 = 0 → p1 = 0 → r = 0) ∧ (0 < p1 → r < p1 / (p0 + p1))

/-- 44 R133, 10 R26: nothing of the internal registers reaches a DEMODR command, and LAST holds the last bit after it,
0 where there is none.  That LAST keeps that value is the model's choice, log entry 7. -/
def Obligations.LastDoesNotPersist : Prop :=
  ∀ (s t : State) (d : Datapath), exec .demodr s = .next t → t.status = 0x01#8 →
    (∃ t', exec .demodr { s with dp := d } = .next t' ∧ t'.bo = t.bo ∧ t'.bolen = t.bolen) ∧
    t.dp.last.val = if t.bolen = 0 then false else (t.boAt (t.bolen - 1)).val

/-- 44 R135: an all-zero buffer decodes to zeros when RHI is at least 0 and to ones when it is below 0.  That PEAK still
holds its 0 after the command is the model's choice, log entry 7. -/
def Obligations.RobustSilence : Prop :=
  ∀ s t : State, s.Real → exec .demodr s = .next t → t.status = 0x01#8 → (∀ i < s.rxlen, (s.rxAt i).eval = 0) →
    t.dp.peak.eval = 0 ∧ t.bolen = s.rxlen / s.symbolLen ∧
    ∀ k < t.bolen, ((t.boAt k).val = true ↔ s.rhi.eval < 0)

/-- 44 R135: multiplying every sample by a positive constant leaves the bits unchanged. -/
def Obligations.RobustIgnoresPositiveScale : Prop :=
  ∀ (s s' t t' : State) (c : ℝ), s.Real → 0 < c → s.par = s'.par → s.f0 = s'.f0 → s.f1 = s'.f1 → s.symdur = s'.symdur →
    s.fs = s'.fs → s.bw = s'.bw → s.rhi = s'.rhi → s.rlo = s'.rlo → s.rxlen = s'.rxlen →
    (∀ i < s.rxlen, (s'.rxAt i).eval = c * (s.rxAt i).eval) →
    exec .demodr s = .next t → exec .demodr s' = .next t' → t.status = 0x01#8 →
    t'.status = 0x01#8 ∧ t'.bolen = t.bolen ∧ ∀ k < t.bolen, (t'.boAt k).val = (t.boAt k).val

/-! ## Frames (20 R53, 10 R32) -/

/-- 10 R32, 20 R53, 60 R165: what OSC, SHAPE and MOD leave unchanged, completed or rejected.  Only STATUS, CAUSE, TX,
TXLEN and the internal registers PHI, IDX and SYM may differ, and SHAPE leaves PHI; every element of RX, BI and BO
reads as before; a rejected one leaves TX too.  A completed one writes TX from index 0 and leaves TXLEN valid elements:
what elements at or above it hold is unspecified (20 R42).  That a completed command leaves the other internal
registers, and SHAPE PHI, is the model's choice where 93 U11 allows any value, log entry 7. -/
def Obligations.TransmitFrame : Prop :=
  ∀ (s t : State) (i : Instr), i = .osc ∨ i = .shape ∨ i = .mod → exec i s = .next t →
    t = { s with
      status := t.status
      cause := t.cause
      tx := t.tx
      txlen := t.txlen
      dp := { s.dp with phi := t.dp.phi, idx := t.dp.idx, sym := t.dp.sym } } ∧
    (i = .shape → t.dp.phi = s.dp.phi) ∧
    (∀ j, t.rxAt j = s.rxAt j ∧ t.biAt j = s.biAt j ∧ t.boAt j = s.boAt j) ∧
    (t.status ≠ 0x01#8 → ∀ j, t.txAt j = s.txAt j) ∧ (t.status ≠ 0x01#8 → t.txlen = s.txlen ∧ t.dp = s.dp)

/-- 10 R32, 20 R53, 60 R165: what DEMODB and DEMODR leave unchanged, completed or rejected.  Only STATUS, CAUSE, BO,
BOLEN and internal registers may differ: DEMODB leaves PHI, LAST, PEAK and RATIO, DEMODR leaves PHI and the resonators;
every element of TX, RX and BI reads as before; a rejected one leaves BO too.  Which internal registers a completed
command leaves is the model's choice where 93 U11 allows any value, log entry 7. -/
def Obligations.ReceiveFrame : Prop :=
  ∀ (s t : State) (i : Instr), i = .demodb ∨ i = .demodr → exec i s = .next t →
    t = { s with status := t.status, cause := t.cause, bo := t.bo, bolen := t.bolen, dp := t.dp } ∧
    t.dp.phi = s.dp.phi ∧
    (i = .demodb → t.dp.last = s.dp.last ∧ t.dp.peak = s.dp.peak ∧ t.dp.ratio = s.dp.ratio) ∧
    (i = .demodr → t.dp.gs1_0 = s.dp.gs1_0 ∧ t.dp.gs2_0 = s.dp.gs2_0 ∧ t.dp.gs1_1 = s.dp.gs1_1 ∧
      t.dp.gs2_1 = s.dp.gs2_1) ∧
    (∀ j, t.txAt j = s.txAt j ∧ t.rxAt j = s.rxAt j ∧ t.biAt j = s.biAt j) ∧
    (t.status ≠ 0x01#8 → ∀ j, t.boAt j = s.boAt j) ∧ (t.status ≠ 0x01#8 → t.bolen = s.bolen ∧ t.dp = s.dp)

/-- 20 R42: after a completed command every element of its output memory at or above the new length is unspecified: it
reads as a value named by the memory, its new generation and the index, which no element read as before carries (log
entry 9). -/
def Obligations.OutputBeyondTheLengthIsUnspecified : Prop :=
  ∀ (s t : State) (i : Instr), exec i s = .next t → t.status = 0x01#8 →
    (i = .osc ∨ i = .shape ∨ i = .mod →
      t.tx.gen = s.tx.gen + 1 ∧ ∀ j, t.txlen ≤ j → t.txAt j = .free (.elem .tx t.tx.gen j)) ∧
    (i = .demodb ∨ i = .demodr →
      t.bo.gen = s.bo.gen + 1 ∧ ∀ j, t.bolen ≤ j → t.boAt j = .free (.elem .bo t.bo.gen j))

/-- 10 R32: a command's outcome and its valid output depend on the registers it reads and on the valid extent of its
input memory, and on nothing else, in one instance of the block. -/
def Obligations.CommandsReadOnlyTheirInputs : Prop :=
  ∀ (i : Instr) (s s' t t' : State), s.AgreeOn s' i → exec i s = .next t → exec i s' = .next t' →
    t.status = t'.status ∧ t.cause = t'.cause ∧
    (t.status = 0x01#8 → i = .osc ∨ i = .shape ∨ i = .mod →
      t.txlen = t'.txlen ∧ ∀ j < t.txlen, t.txAt j = t'.txAt j) ∧
    (t.status = 0x01#8 → i = .demodb ∨ i = .demodr →
      t.bolen = t'.bolen ∧ ∀ j < t.bolen, t.boAt j = t'.boAt j)

/-- 10 R29, 70 R181: no command reads an internal register before it has initialised it: other values there change
nothing but internal registers. -/
def Obligations.InternalRegistersAreDead : Prop :=
  ∀ (i : Instr) (s t : State) (d : Datapath), exec i s = .next t →
    ∃ d', exec i { s with dp := d } = .next { t with dp := d' }

/-! ## Host transactions (30 R66, 10 R31, 20 R41, R42, R45) -/

/-- 10 R11, 20 R45: a typed write to a writable register other than CMD, within the bound of a length register,
completes; the register then reads as the value written, every other register reads as before, and no memory, no
internal register and no other state changes. -/
def Obligations.RegisterWriteThenRead : Prop :=
  ∀ (s : State) (r : Reg) (v : Value), regWritable r = true → r ≠ .cmd → v.kind = some (regKind r) →
    lengthWithin s r v = true →
    ∃ t, transact (.wr (regNumber r) v) s = .next t ∧ t.readReg r = v ∧
      (∀ q, q ≠ r → t.readReg q = s.readReg q) ∧
      t.tx = s.tx ∧ t.rx = s.rx ∧ t.bi = s.bi ∧ t.bo = s.bo ∧ t.dp = s.dp ∧ t.par = s.par ∧
      t.script = s.script ∧ t.returned = s.returned

/-- 10 R31: which register numbers are reserved; a write to one, or to a read-only register, changes no state; a read
of one returns some value and has no effect.  That such a script is not refused is the model's choice, log entry 14. -/
def Obligations.ReservedAndReadOnlyAccess : Prop :=
  (∀ r : Byte, regOfNumber r = none ↔
    ((0x03 ≤ r.toNat ∧ r.toNat ≤ 0x0F) ∨ (0x1B ≤ r.toNat ∧ r.toNat ≤ 0x1F) ∨ (0x25 ≤ r.toNat ∧ r.toNat ≤ 0x2F) ∨
      (0x34 ≤ r.toNat ∧ r.toNat ≤ 0xFF))) ∧
  (∀ (s : State) (r : Byte) (v : Value), (Txn.wr r v).wf = true →
    (regOfNumber r = none ∨ ∃ reg ∈ [Reg.status, .cause, .sync, .tapern, .eps, .txlen, .bolen],
      regOfNumber r = some reg) → transact (.wr r v) s = .next s) ∧
  (∀ (s : State) (r : Byte), regOfNumber r = none →
    ∃ v, transact (.rd r) s = .next { s with returned := s.returned ++ [v] })

/-- 20 R45: a read of a register returns its value and a read of an element returns one value; neither changes any
state of the block. -/
def Obligations.ReadsHaveNoSideEffects : Prop :=
  (∀ (s : State) (reg : Reg),
    transact (.rd (regNumber reg)) s = .next { s with returned := s.returned ++ [s.readReg reg] }) ∧
  (∀ (s t : State) (m : MemId) (i : Nat), transact (.ld m i) s = .next t →
    ∃ v, t = { s with returned := s.returned ++ [v] })

/-- 20 R41: a store to RX or BI within the capacity completes, the element then reads as the value stored, every other
element of every memory reads as before and nothing but that memory changes; a store to TX or BO changes no state. -/
def Obligations.StoreThenLoad : Prop :=
  (∀ (s : State) (i : Nat) (x : Scalar), i < s.par.rxcap →
    ∃ t, transact (.st .rx i (.scalar x)) s = .next t ∧ t.rxAt i = x ∧ (∀ j, j ≠ i → t.rxAt j = s.rxAt j) ∧
      t = { s with rx := t.rx }) ∧
  (∀ (s : State) (i : Nat) (b : Bit), i < s.par.bicap →
    ∃ t, transact (.st .bi i (.bit b)) s = .next t ∧ t.biAt i = b ∧ (∀ j, j ≠ i → t.biAt j = s.biAt j) ∧
      t = { s with bi := t.bi }) ∧
  (∀ (s : State) (i : Nat) (x : Scalar), i < s.par.txcap → transact (.st .tx i (.scalar x)) s = .next s) ∧
  (∀ (s : State) (i : Nat) (b : Bit), i < s.par.bocap → transact (.st .bo i (.bit b)) s = .next s)

/-- 20 R41, R42: a load below the length register returns the element; between it and the capacity it returns a value
of the element's type. -/
def Obligations.LoadReturnsTheElement : Prop :=
  (∀ (s : State) (i : Nat), i < s.txlen → i < s.par.txcap →
    transact (.ld .tx i) s = .next { s with returned := s.returned ++ [.scalar (s.txAt i)] }) ∧
  (∀ (s : State) (i : Nat), i < s.rxlen → i < s.par.rxcap →
    transact (.ld .rx i) s = .next { s with returned := s.returned ++ [.scalar (s.rxAt i)] }) ∧
  (∀ (s : State) (i : Nat), i < s.bilen → i < s.par.bicap →
    transact (.ld .bi i) s = .next { s with returned := s.returned ++ [.bit (s.biAt i)] }) ∧
  (∀ (s : State) (i : Nat), i < s.bolen → i < s.par.bocap →
    transact (.ld .bo i) s = .next { s with returned := s.returned ++ [.bit (s.boAt i)] }) ∧
  (∀ (s : State) (m : MemId) (i : Nat), s.length m ≤ i → i < s.capacity m →
    ∃ v : Value, v.kind = some (memKind m) ∧
      transact (.ld m i) s = .next { s with returned := s.returned ++ [v] })

/-- 93 U4, 10 R11: the host transactions with no defined result stop by name: an index at or above the capacity, a
length above the capacity, and a value of another type (log entries 12 and 13). -/
def Obligations.UndefinedTransactionsStop : Prop :=
  (∀ (s : State) (m : MemId) (i : Nat), s.capacity m ≤ i → transact (.ld m i) s = .fault .noSuchElement) ∧
  (∀ (s : State) (m : MemId) (i : Nat) (v : Value), s.capacity m ≤ i → v.kind = some (memKind m) →
    transact (.st m i v) s = .fault .noSuchElement) ∧
  (∀ (s : State) (n : Nat), s.par.rxcap < n →
    transact (.wr (regNumber .rxlen) (.count n)) s = .refused .lengthAboveCapacity) ∧
  (∀ (s : State) (n : Nat), s.par.bicap < n →
    transact (.wr (regNumber .bilen) (.count n)) s = .refused .lengthAboveCapacity) ∧
  (∀ (s : State) (r : Reg) (v : Value), v.kind ≠ some (regKind r) →
    transact (.wr (regNumber r) v) s = .refused .notATransaction) ∧
  (∀ (s : State) (m : MemId) (i : Nat) (v : Value), v.kind ≠ some (memKind m) →
    transact (.st m i v) s = .refused .notATransaction)

/-- 60 R155, 93 U3, U4: a transaction that keeps the host's obligations never stops the machine. -/
def Obligations.LegalTransactionsNeverStop : Prop :=
  ∀ (s : State) (x : Txn), Machine.Txn.legal x s = true → ∃ t, transact x s = .next t

/-! ## Reset and hardwired registers (10 R21, R30, 70 R180) -/

/-- 10 R30: the values the spec gives for reset. -/
def Obligations.ResetValues : Prop :=
  State.reset.cmd = 0x00#8 ∧ State.reset.status = 0x00#8 ∧ State.reset.cause = 0x00#8 ∧
  State.reset.f0.eval = 1000 ∧ State.reset.f1.eval = 2000 ∧ State.reset.symdur.eval = 1 / 10 ∧
  State.reset.fs.eval = 44100 ∧ State.reset.amp.eval = 2 / 5 ∧ State.reset.bw.eval = 220 ∧
  State.reset.rhi.eval = 29 / 50 ∧ State.reset.rlo.eval = 21 / 50 ∧
  State.reset.readReg .sync = .byte 0xAA#8 ∧ State.reset.readReg .tapern = .count 256 ∧
  State.reset.par.eps.eval = 1 / 10 ^ 12 ∧
  State.reset.txlen = 0 ∧ State.reset.rxlen = 0 ∧ State.reset.bilen = 0 ∧ State.reset.bolen = 0

/-- 70 R180: a reset between commands puts every host-readable register at its value after reset, whatever ran before;
the parameters of the instance stay.  The operand registers and the internal registers are unspecified after a reset
(10 R30); that they hold the values of `State.reset` is the model's choice, log entries 5 and 6, and reset as an
operation beside the script is log entry 23. -/
def Obligations.ResetAnyTime : Prop :=
  ∀ (s : State) (r : Reg), r ≠ .eps →
    s.platformReset.readReg r = State.reset.readReg r ∧ s.platformReset.par = s.par ∧
      s.platformReset.dp = State.reset.dp

/-- 10 R21: SYNC reads 0xAA, the pattern from bit 7 down is 1,0,1,0,1,0,1,0, TAPERN reads 256, EPS reads the parameter;
no step changes any of them. -/
def Obligations.HardwiredRegisters : Prop :=
  ∀ s : State,
    s.readReg .sync = .byte 0xAA#8 ∧ s.readReg .tapern = .count 256 ∧ s.readReg .eps = .scalar s.par.eps ∧
    (∀ k < 8, (0xAA#8).getLsbD (7 - k) = decide (k % 2 = 0)) ∧
    ∀ t, step s = .next t → t.readReg .sync = s.readReg .sync ∧ t.readReg .tapern = s.readReg .tapern ∧
      t.readReg .eps = s.readReg .eps

/-! ## The host's Framer (45) -/

/-- 45 R146 to R148: stripping the preamble from SYNC followed by a text's bits and packing them gives the text, for
code points below 256. -/
def Obligations.FramerRoundTrip : Prop :=
  ∀ text : List Nat, (∀ c ∈ text, c < 256) →
    ∃ bits, textToBits text = some bits ∧ bits.length = 8 * text.length ∧
      bitsToText (stripPreamble (syncPattern ++ bits)) = text

/-! ## The invariant -/

/-- The state after reset meets the invariant. -/
def Obligations.ResetMeetsInv : Prop := Machine.Inv State.reset

/-- Every step keeps the invariant: the memories in canonical form and within their bounds, no output element listed at
or above its length, no length above its capacity, DONE and ERR never both 1 and CAUSE fitting them, PHI a fraction of
a turn, EPS positive. -/
def Obligations.StepKeepsInv : Prop := ∀ s t : State, Machine.Inv s → step s = .next t → Machine.Inv t

/-! ## The model's own choices -/

/-- After a completed DEMODR the register PEAK holds the peak of `RX[0..RXLEN)` (10 R27).  That it keeps that value after
the command is the model's choice, log entry 7. -/
def Obligations.PeakHoldsThePeak : Prop :=
  ∀ s t : State, s.Real → exec .demodr s = .next t → t.status = 0x01#8 →
    t.dp.peak = s.robustPeak ∧ s.IsPeak t.dp.peak.eval

/-- At a phase width of `n` bits PHI is a whole number of `2^-n` turns, below one turn, after every completed OSC and
MOD, in either number domain.  What a finite `PHW` does is the model's reading of 00 R5, log entry 30; that PHI keeps
its value after the command is its choice, log entry 7. -/
def Obligations.PhaseWidthBoundsPhi : Prop :=
  ∀ (s t : State) (i : Instr) (n : Nat), s.par.phw = .bits n → i = .osc ∨ i = .mod → exec i s = .next t →
    t.status = 0x01#8 → ∃ c : ℕ, c < 2 ^ n ∧ t.dp.phi.eval = (c : ℝ) / 2 ^ n
end

