-- ==== Sys2Proof/Laws/Num.lean ====
section
/-! SUPPORT. Over NUM_REAL each operation of Machine/Num.lean denotes what it is named for. -/

namespace Sys2Proof

open Real

/-! Rational numerals. -/

theorem Q.add_eq (p q : Rat) : Q.add p q = p + q := (Rat.add_def' p q).symm

theorem Q.sub_eq (p q : Rat) : Q.sub p q = p - q := (Rat.sub_def' p q).symm

theorem Q.mul_eq (p q : Rat) : Q.mul p q = p * q := (Rat.mul_def' p q).symm

theorem Q.inv_eq (p : Rat) : Q.inv p = p⁻¹ := by
  have hd : (p.den : ℚ) ≠ 0 := by exact_mod_cast p.den_nz
  unfold Q.inv
  split
  · rename_i h
    have h2 : ((p.num.natAbs : ℕ) : ℚ) = -(p.num : ℚ) := by
      rw [Nat.cast_natAbs, abs_of_neg h]; push_cast; rfl
    rw [Rat.mkRat_eq_div, h2]
    conv_rhs => rw [← Rat.num_div_den p, inv_div]
    push_cast
    rw [neg_div_neg_eq]
  · rename_i h
    have h2 : ((p.num.natAbs : ℕ) : ℚ) = (p.num : ℚ) := by
      rw [Nat.cast_natAbs, abs_of_nonneg (not_lt.mp h)]
    rw [Rat.mkRat_eq_div, h2]
    conv_rhs => rw [← Rat.num_div_den p, inv_div]
    push_cast
    rfl

theorem Q.div_eq (p q : Rat) : Q.div p q = p / q := by
  rw [Q.div, Q.mul_eq, Q.inv_eq, div_eq_mul_inv]

theorem Q.lt_iff (p q : Rat) : Q.lt p q = true ↔ p < q := by
  rw [Q.lt, decide_eq_true_iff, Rat.lt_iff]

theorem Q.lt_false_iff (p q : Rat) : Q.lt p q = false ↔ q ≤ p := by
  rw [← not_lt, ← Q.lt_iff, Bool.not_eq_true]

theorem Q.floor_eq (p : Rat) : Q.floor p = ⌊p⌋ := Rat.floor_def'.symm

theorem Q.frac_eq (p : Rat) : Q.frac p = Int.fract p := by
  rw [Q.frac, Q.sub_eq, Q.floor_eq, Rat.mkRat_one, Int.fract]

theorem Q.min_eq (p q : Rat) : Q.min p q = p ⊓ q := by
  unfold Q.min
  split
  · rename_i h; rw [Q.lt_iff] at h; exact (min_eq_right h.le).symm
  · rename_i h; rw [Q.lt_iff, not_lt] at h; exact (min_eq_left h).symm

theorem Q.max_eq (p q : Rat) : Q.max p q = p ⊔ q := by
  unfold Q.max
  split
  · rename_i h; rw [Q.lt_iff] at h; exact (max_eq_right h.le).symm
  · rename_i h; rw [Q.lt_iff, not_lt] at h; exact (max_eq_left h).symm

theorem Q.abs_eq (p : Rat) : Q.abs p = |p| := by
  rw [Rat.abs_def, Q.abs, Rat.divInt_ofNat]

/-! What the operations denote. -/

@[simp] theorem Scalar.eval_rat (q : Rat) : (Scalar.rat q).eval = (q : ℝ) := rfl

@[simp] theorem Scalar.eval_ofNat (n : Nat) : (Scalar.ofNat n).eval = (n : ℝ) := by
  rw [Scalar.ofNat, Scalar.eval_rat, Rat.mkRat_one]; push_cast; rfl

theorem Q.num_zero {p : Rat} (h : p.num = 0) : p = 0 := Rat.num_eq_zero.mp h

@[simp] theorem Scalar.eval_scale (p : Rat) (x : Scalar) : (Scalar.scale p x).eval = (p : ℝ) * x.eval := by
  unfold Scalar.scale
  split
  · rename_i h; simp [Q.num_zero h]
  · split
    · rename_i h; simp [h]
    · split
      · simp [Q.mul_eq]
      · simp only [Scalar.eval, Q.mul_eq]; push_cast; ring
      · rfl

@[simp] theorem Scalar.eval_add (a b : Scalar) : (Scalar.add a b).eval = a.eval + b.eval := by
  unfold Scalar.add
  split
  · simp [Q.add_eq]
  · split
    · rename_i h; simp [Q.num_zero h]
    · rfl
  · simp only [Scalar.eval, Q.add_eq]; push_cast; ring
  · split
    · rename_i h; simp [Q.num_zero h]
    · rfl
  · rfl

@[simp] theorem Scalar.eval_sub (a b : Scalar) : (Scalar.sub a b).eval = a.eval - b.eval := by
  unfold Scalar.sub
  split
  · simp [Q.sub_eq]
  · split
    · rename_i h; simp [Q.num_zero h]
    · rfl
  · rfl

@[simp] theorem Scalar.eval_mul (a b : Scalar) : (Scalar.mul a b).eval = a.eval * b.eval := by
  unfold Scalar.mul
  split
  · simp [Q.mul_eq]
  · simp
  · simp [mul_comm]
  · rfl

@[simp] theorem Scalar.eval_div (a b : Scalar) : (Scalar.div a b).eval = a.eval / b.eval := by
  unfold Scalar.div
  split
  · simp [Q.div_eq]
  · split
    · rename_i h; simp [Q.num_zero h]
    · rfl
  · simp [Q.inv_eq, div_eq_mul_inv, mul_comm]
  · rfl

@[simp] theorem Scalar.eval_abs (a : Scalar) : a.abs.eval = |a.eval| := by
  unfold Scalar.abs
  split
  · simp [Q.abs_eq]
  · rfl

@[simp] theorem Scalar.eval_max (a b : Scalar) : (Scalar.max a b).eval = a.eval ⊔ b.eval := by
  unfold Scalar.max
  split
  · simp [Q.max_eq]
  · rfl

theorem Q.cast_fract (p : Rat) : ((Int.fract p : ℚ) : ℝ) = Int.fract (p : ℝ) := by
  rw [Int.fract, Int.fract, Rat.floor_cast]; push_cast; rfl

@[simp] theorem Scalar.eval_frac (a : Scalar) : a.frac.eval = Int.fract a.eval := by
  unfold Scalar.frac
  split
  · simp [Q.frac_eq]
  · rename_i x q
    change Int.fract (Scalar.add x (.rat q)).eval = Int.fract (Int.fract x.eval + (q : ℝ))
    rw [Scalar.eval_add, Scalar.eval_rat, Int.fract_eq_fract]
    exact ⟨⌊x.eval⌋, by rw [Int.fract]; ring⟩
  · rfl

/-- The sine of a whole number of turns more is the same. -/
theorem sin_turns_fract (x : ℝ) : sin (2 * π * Int.fract x) = sin (2 * π * x) := by
  have h : 2 * π * Int.fract x = 2 * π * x - (⌊x⌋ : ℝ) * (2 * π) := by rw [Int.fract]; ring
  rw [h, Real.sin_sub_int_mul_two_pi]

theorem Q.sinTurnsExact_eq {r v : Rat} (h : Q.sinTurnsExact r = some v) : sin (2 * π * (r : ℝ)) = (v : ℝ) := by
  have turn : ∀ {x : ℝ}, (r : ℝ) = x → sin (2 * π * (r : ℝ)) = sin (2 * π * x) := fun hx => by rw [hx]
  unfold Q.sinTurnsExact at h
  split at h
  · rename_i hr; cases h; simp [hr]
  split at h
  · rename_i hr; cases h
    rw [turn (x := 1 / 12) (by rw [hr, Rat.mkRat_eq_div]; push_cast; rfl), Rat.mkRat_eq_div,
      show 2 * π * (1 / 12) = π / 6 by ring, Real.sin_pi_div_six]
    push_cast; rfl
  split at h
  · rename_i hr; cases h
    rw [turn (x := 1 / 4) (by rw [hr, Rat.mkRat_eq_div]; push_cast; rfl),
      show 2 * π * (1 / 4) = π / 2 by ring, Real.sin_pi_div_two]
    push_cast; rfl
  split at h
  · rename_i hr; cases h
    rw [turn (x := 5 / 12) (by rw [hr, Rat.mkRat_eq_div]; push_cast; rfl), Rat.mkRat_eq_div,
      show 2 * π * (5 / 12) = π - π / 6 by ring, Real.sin_pi_sub, Real.sin_pi_div_six]
    push_cast; rfl
  split at h
  · rename_i hr; cases h
    rw [turn (x := 1 / 2) (by rw [hr, Rat.mkRat_eq_div]; push_cast; rfl),
      show 2 * π * (1 / 2) = π by ring, Real.sin_pi]
    push_cast; rfl
  split at h
  · rename_i hr; cases h
    rw [turn (x := 7 / 12) (by rw [hr, Rat.mkRat_eq_div]; push_cast; rfl), Rat.mkRat_eq_div,
      show 2 * π * (7 / 12) = π / 6 + π by ring, Real.sin_add_pi, Real.sin_pi_div_six]
    push_cast; ring
  split at h
  · rename_i hr; cases h
    rw [turn (x := 3 / 4) (by rw [hr, Rat.mkRat_eq_div]; push_cast; rfl), Rat.mkRat_eq_div,
      show 2 * π * (3 / 4) = π / 2 + π by ring, Real.sin_add_pi, Real.sin_pi_div_two]
    push_cast; ring
  split at h
  · rename_i hr; cases h
    rw [turn (x := 11 / 12) (by rw [hr, Rat.mkRat_eq_div]; push_cast; rfl), Rat.mkRat_eq_div,
      show 2 * π * (11 / 12) = (π - π / 6) + π by ring, Real.sin_add_pi, Real.sin_pi_sub, Real.sin_pi_div_six]
    push_cast; ring
  · cases h

@[simp] theorem Scalar.eval_sinT (a : Scalar) : a.sinT.eval = sin (2 * π * a.eval) := by
  unfold Scalar.sinT
  split
  · rename_i p
    rw [Scalar.eval_rat, ← sin_turns_fract, ← Q.cast_fract, ← Q.frac_eq]
    split
    · rename_i v h; exact (Q.sinTurnsExact_eq h).symm
    · rfl
  · rfl

@[simp] theorem Scalar.eval_cosT (a : Scalar) : a.cosT.eval = cos (2 * π * a.eval) := by
  rw [Scalar.cosT, Scalar.eval_sinT, Scalar.eval_add, Scalar.eval_rat, Rat.mkRat_eq_div,
    ← Real.sin_add_pi_div_two]
  push_cast; congr 1; ring

@[simp] theorem Scalar.eval_turns (a : Scalar) : a.turns.eval = a.eval / (2 * π) := by
  have hpi : (π : ℝ) ≠ 0 := Real.pi_ne_zero
  unfold Scalar.turns
  split
  · rw [Scalar.eval_rat, Rat.mkRat_eq_div]
    change _ = π / (2 * π)
    push_cast; field_simp
  · rename_i q
    rw [Scalar.eval_rat, Q.div_eq, Rat.mkRat_eq_div]
    change _ = (q : ℝ) * π / (2 * π)
    push_cast; field_simp
  · rw [Scalar.eval_div]
    change a.eval / (((mkRat 2 1 : ℚ) : ℝ) * π) = _
    rw [Rat.mkRat_eq_div]; push_cast; rw [div_one]

@[simp] theorem Bit.val_ofBool (b : Bool) : (Bit.ofBool b).val = b := by cases b <;> rfl

@[simp] theorem Bit.val_zero : Bit.zero.val = false := rfl

@[simp] theorem Bit.val_one : Bit.one.val = true := rfl

theorem Bit.val_ltOf (N : NumDomain) (a b : Scalar) : (Bit.ltOf N a b).val = true ↔ N.Lt a.eval b.eval := by
  unfold Bit.ltOf
  split
  · rw [Bit.val_ofBool, Q.lt_iff, Scalar.eval_rat, Scalar.eval_rat, NumDomain.Lt, Rat.cast_lt]
  · simp [Bit.val]

theorem Bit.val_eqOf (N : NumDomain) (a b : Scalar) : (Bit.eqOf N a b).val = true ↔ N.Eq a.eval b.eval := by
  unfold Bit.eqOf
  split
  · rw [Bit.val_ofBool, decide_eq_true_iff, Scalar.eval_rat, Scalar.eval_rat, NumDomain.Eq, Rat.cast_inj]
  · simp [Bit.val]

open Classical in
theorem Bit.val_hystOf (N : NumDomain) (r hi lo : Scalar) (last : Bit) :
    (Bit.hystOf N r hi lo last).val =
      if N.Lt hi.eval r.eval then true else if N.Lt r.eval lo.eval then false else last.val := by
  unfold Bit.hystOf
  split
  · rename_i p h l
    simp only [Scalar.eval_rat, NumDomain.Lt, Rat.cast_lt]
    by_cases h1 : h < p
    · rw [if_pos ((Q.lt_iff h p).mpr h1), if_pos h1]; rfl
    · rw [if_neg (fun hh => h1 ((Q.lt_iff h p).mp hh)), if_neg h1]
      by_cases h2 : p < l
      · rw [if_pos ((Q.lt_iff p l).mpr h2), if_pos h2]; rfl
      · rw [if_neg (fun hh => h2 ((Q.lt_iff p l).mp hh)), if_neg h2]
  · rfl

@[simp] theorem Scalar.eval_select (c : Bit) (a b : Scalar) :
    (Scalar.select c a b).eval = if c.val then a.eval else b.eval := by
  unfold Scalar.select
  split
  · rfl
  · rfl
  · simp only [Scalar.eval]

/-! The operations of a number domain over NUM_REAL (00 R5). -/

theorem NumDomain.eval_add {N : NumDomain} (h : N = .real) (a b : Scalar) : (N.add a b).eval = a.eval + b.eval := by
  subst h; exact Scalar.eval_add a b

theorem NumDomain.eval_sub {N : NumDomain} (h : N = .real) (a b : Scalar) : (N.sub a b).eval = a.eval - b.eval := by
  subst h; exact Scalar.eval_sub a b

theorem NumDomain.eval_mul {N : NumDomain} (h : N = .real) (a b : Scalar) : (N.mul a b).eval = a.eval * b.eval := by
  subst h; exact Scalar.eval_mul a b

theorem NumDomain.eval_div {N : NumDomain} (h : N = .real) (a b : Scalar) : (N.div a b).eval = a.eval / b.eval := by
  subst h; exact Scalar.eval_div a b

theorem NumDomain.eval_abs {N : NumDomain} (h : N = .real) (a : Scalar) : (N.abs a).eval = |a.eval| := by
  subst h; exact Scalar.eval_abs a

theorem NumDomain.eval_max {N : NumDomain} (h : N = .real) (a b : Scalar) : (N.max a b).eval = a.eval ⊔ b.eval := by
  subst h; exact Scalar.eval_max a b

theorem NumDomain.eval_frac {N : NumDomain} (h : N = .real) (a : Scalar) : (N.frac a).eval = Int.fract a.eval := by
  subst h; exact Scalar.eval_frac a

theorem NumDomain.eval_sinTurns {N : NumDomain} (h : N = .real) (a : Scalar) :
    (N.sinTurns a).eval = sin (2 * π * a.eval) := by
  subst h; exact Scalar.eval_sinT a

theorem NumDomain.eval_cosTurns {N : NumDomain} (h : N = .real) (a b : Scalar) :
    (N.cosTurns a b).eval = cos (2 * π * (a.eval / b.eval)) := by
  subst h; rw [NumDomain.cosTurns, Scalar.eval_cosT, Scalar.eval_div]

theorem NumDomain.eval_turns {N : NumDomain} (h : N = .real) (a : Scalar) : (N.turns a).eval = a.eval / (2 * π) := by
  subst h; exact Scalar.eval_turns a

theorem NumDomain.eval_foldl_add {N : NumDomain} (h : N = .real) (xs : List Scalar) (a : Scalar) :
    (xs.foldl N.add a).eval = a.eval + (xs.map Scalar.eval).sum := by
  induction xs generalizing a with
  | nil => simp
  | cons x xs ih =>
    rw [List.foldl_cons, ih, NumDomain.eval_add h, List.map_cons, List.sum_cons, add_assoc]

theorem NumDomain.eval_sum {N : NumDomain} (h : N = .real) (xs : List Scalar) :
    (N.sum xs).eval = (xs.map Scalar.eval).sum := by
  rw [NumDomain.sum, NumDomain.eval_foldl_add h, Scalar.eval_rat, Rat.cast_zero, zero_add]

/-- A phase held in `n` bits is a fraction of a turn (00 R5 `PHW`, 10 R24). -/
theorem Scalar.eval_phase_range (n : Nat) (a : Scalar) :
    0 ≤ (Scalar.phase n a).eval ∧ (Scalar.phase n a).eval < 1 := by
  change 0 ≤ ((Config.phaseCode n a.eval % 2 ^ n : ℕ) : ℝ) / 2 ^ n ∧ ((Config.phaseCode n a.eval % 2 ^ n : ℕ) : ℝ) / 2 ^ n < 1
  refine ⟨by positivity, (div_lt_one (by positivity)).mpr ?_⟩
  exact_mod_cast Nat.mod_lt _ (by positivity)

/-! What an operation denotes depends on what its operands denote alone, in every number domain (40 R84). -/

variable {a a' b b' : Scalar}

theorem NumDomain.add_congr (N : NumDomain) (ha : a.eval = a'.eval) (hb : b.eval = b'.eval) :
    (N.add a b).eval = (N.add a' b').eval := by
  cases N
  · simp only [NumDomain.add, Scalar.eval_add, ha, hb]
  · simp only [NumDomain.add, Scalar.eval, ha, hb]

theorem NumDomain.mul_congr (N : NumDomain) (ha : a.eval = a'.eval) (hb : b.eval = b'.eval) :
    (N.mul a b).eval = (N.mul a' b').eval := by
  cases N
  · simp only [NumDomain.mul, Scalar.eval_mul, ha, hb]
  · simp only [NumDomain.mul, Scalar.eval, ha, hb]

theorem NumDomain.div_congr (N : NumDomain) (ha : a.eval = a'.eval) (hb : b.eval = b'.eval) :
    (N.div a b).eval = (N.div a' b').eval := by
  cases N
  · simp only [NumDomain.div, Scalar.eval_div, ha, hb]
  · simp only [NumDomain.div, Scalar.eval, ha, hb]

theorem NumDomain.frac_congr (N : NumDomain) (ha : a.eval = a'.eval) : (N.frac a).eval = (N.frac a').eval := by
  cases N
  · simp only [NumDomain.frac, Scalar.eval_frac, ha]
  · simp only [NumDomain.frac, Scalar.eval, ha]

theorem NumDomain.turns_congr (N : NumDomain) (ha : a.eval = a'.eval) : (N.turns a).eval = (N.turns a').eval := by
  cases N
  · simp only [NumDomain.turns, Scalar.eval_turns, ha]
  · simp only [NumDomain.turns, Scalar.eval, ha]

theorem NumDomain.sinTurns_congr (N : NumDomain) (ha : a.eval = a'.eval) :
    (N.sinTurns a).eval = (N.sinTurns a').eval := by
  cases N
  · simp only [NumDomain.sinTurns, Scalar.eval_sinT, ha]
  · simp only [NumDomain.sinTurns, Scalar.eval, ha]

theorem PhaseWidth.hold_congr (W : PhaseWidth) (ha : a.eval = a'.eval) : (W.hold a).eval = (W.hold a').eval := by
  cases W
  · exact ha
  · simp only [PhaseWidth.hold, Scalar.eval, ha]

end Sys2Proof
end

