-- ==== Sys2Proof/Laws/Compare.lean ====
section
/-! SUPPORT. Enclosures hold what terms denote, and every comparison and floor of a check is that of what the terms
denote (00 R9). -/

namespace Sys2Proof

open Real

/-- The interval holds the real number. -/
def Encl.Holds (x : Encl) (r : ℝ) : Prop := (x.1 : ℝ) ≤ r ∧ r ≤ (x.2 : ℝ)

theorem Encl.add_holds {x y : Encl} {r t : ℝ} (hx : x.Holds r) (hy : y.Holds t) : (Encl.add x y).Holds (r + t) := by
  unfold Encl.Holds Encl.add at *
  simp only [Q.add_eq]; push_cast
  exact ⟨add_le_add hx.1 hy.1, add_le_add hx.2 hy.2⟩

theorem Encl.sub_holds {x y : Encl} {r t : ℝ} (hx : x.Holds r) (hy : y.Holds t) : (Encl.sub x y).Holds (r - t) := by
  unfold Encl.Holds Encl.sub at *
  simp only [Q.sub_eq]; push_cast
  exact ⟨sub_le_sub hx.1 hy.2, sub_le_sub hx.2 hy.1⟩

/-- A product of numbers of two intervals lies between two products of their end points. -/
theorem mul_between {a b c d r t : ℝ} (h1 : a ≤ r) (h2 : r ≤ b) (h3 : c ≤ t) (h4 : t ≤ d) :
    (a * c ⊓ a * d) ⊓ (b * c ⊓ b * d) ≤ r * t ∧ r * t ≤ (a * c ⊔ a * d) ⊔ (b * c ⊔ b * d) := by
  have key : ∀ z : ℝ, (z * c ⊓ z * d) ≤ z * t ∧ z * t ≤ (z * c ⊔ z * d) := by
    intro z
    rcases le_total 0 z with hz | hz
    · exact ⟨inf_le_of_left_le (mul_le_mul_of_nonneg_left h3 hz), le_sup_of_le_right (mul_le_mul_of_nonneg_left h4 hz)⟩
    · exact ⟨inf_le_of_right_le (mul_le_mul_of_nonpos_left h4 hz), le_sup_of_le_left (mul_le_mul_of_nonpos_left h3 hz)⟩
  have hr : (a * t ⊓ b * t) ≤ r * t ∧ r * t ≤ (a * t ⊔ b * t) := by
    rcases le_total 0 t with ht | ht
    · exact ⟨inf_le_of_left_le (mul_le_mul_of_nonneg_right h1 ht), le_sup_of_le_right (mul_le_mul_of_nonneg_right h2 ht)⟩
    · exact ⟨inf_le_of_right_le (mul_le_mul_of_nonpos_right h2 ht), le_sup_of_le_left (mul_le_mul_of_nonpos_right h1 ht)⟩
  exact ⟨(inf_le_inf (key a).1 (key b).1).trans hr.1, hr.2.trans (sup_le_sup (key a).2 (key b).2)⟩

theorem Encl.mul_holds {x y : Encl} {r t : ℝ} (hx : x.Holds r) (hy : y.Holds t) : (Encl.mul x y).Holds (r * t) := by
  have h := mul_between hx.1 hx.2 hy.1 hy.2
  unfold Encl.Holds Encl.mul
  simp only [Q.mul_eq, Q.min_eq, Q.max_eq]
  push_cast
  exact h

theorem Encl.inv_holds {x z : Encl} {r : ℝ} (h : Encl.inv x = some z) (hx : x.Holds r) : z.Holds r⁻¹ := by
  unfold Encl.inv at h
  split at h
  · rename_i hc
    cases h
    rw [Bool.or_eq_true, Q.lt_iff, Q.lt_iff] at hc
    unfold Encl.Holds at *
    simp only [Q.inv_eq]; push_cast
    rcases hc with hc | hc
    · have h0 : (0 : ℝ) < (x.1 : ℝ) := by exact_mod_cast hc
      exact ⟨inv_anti₀ (h0.trans_le hx.1) hx.2, inv_anti₀ h0 hx.1⟩
    · have h0 : (x.2 : ℝ) < 0 := by exact_mod_cast hc
      have hr : r < 0 := hx.2.trans_lt h0
      exact ⟨(inv_le_inv_of_neg h0 hr).mpr hx.2, (inv_le_inv_of_neg hr (hx.1.trans_lt hr)).mpr hx.1⟩
  · cases h

theorem Encl.frac_holds {x : Encl} {r : ℝ} (hx : x.Holds r) : (Encl.frac x).Holds (Int.fract r) := by
  unfold Encl.frac
  split
  · rename_i h
    rw [Q.floor_eq, Q.floor_eq] at h
    have h1 : ⌊r⌋ = ⌊x.1⌋ := by
      have ha : ⌊x.1⌋ ≤ ⌊r⌋ := by rw [← Rat.floor_cast (α := ℝ)]; exact Int.floor_le_floor hx.1
      have hb : ⌊r⌋ ≤ ⌊x.2⌋ := by rw [← Rat.floor_cast (α := ℝ) x.2]; exact Int.floor_le_floor hx.2
      omega
    unfold Encl.Holds at *
    simp only [Q.sub_eq, Q.floor_eq, Rat.mkRat_one]
    rw [Int.fract, h1]; push_cast
    exact ⟨sub_le_sub_right hx.1 _, sub_le_sub_right hx.2 _⟩
  · unfold Encl.Holds
    simp only [Rat.cast_zero, Rat.cast_one]
    exact ⟨Int.fract_nonneg r, (Int.fract_lt_one r).le⟩

theorem Encl.hull_holds_left {x : Encl} (y : Encl) {r : ℝ} (hx : x.Holds r) : (Encl.hull x y).Holds r := by
  unfold Encl.Holds Encl.hull at *
  simp only [Q.min_eq, Q.max_eq]; push_cast
  exact ⟨inf_le_of_left_le hx.1, le_sup_of_le_left hx.2⟩

theorem Encl.hull_holds_right (x : Encl) {y : Encl} {r : ℝ} (hy : y.Holds r) : (Encl.hull x y).Holds r := by
  unfold Encl.Holds Encl.hull at *
  simp only [Q.min_eq, Q.max_eq]; push_cast
  exact ⟨inf_le_of_right_le hy.1, le_sup_of_le_right hy.2⟩

theorem Encl.max_holds {x y : Encl} {r t : ℝ} (hx : x.Holds r) (hy : y.Holds t) : (Encl.max x y).Holds (r ⊔ t) := by
  unfold Encl.Holds Encl.max at *
  simp only [Q.max_eq]; push_cast
  exact ⟨sup_le_sup hx.1 hy.1, sup_le_sup hx.2 hy.2⟩

theorem Encl.abs_holds {x : Encl} {r : ℝ} (hx : x.Holds r) : (Encl.abs x).Holds |r| := by
  unfold Encl.abs
  split
  · rename_i h
    have h0 : (0 : ℝ) < (x.1 : ℝ) := by exact_mod_cast (Q.lt_iff _ _).mp h
    rw [abs_of_pos (h0.trans_le hx.1)]; exact hx
  · split
    · rename_i h
      have h0 : (x.2 : ℝ) < 0 := by exact_mod_cast (Q.lt_iff _ _).mp h
      rw [abs_of_neg (hx.2.trans_lt h0)]
      unfold Encl.Holds at *
      simp only [Q.sub_eq]; push_cast
      constructor <;> linarith [hx.1, hx.2]
    · unfold Encl.Holds at *
      simp only [Q.max_eq, Q.abs_eq]; push_cast
      exact ⟨abs_nonneg r, abs_le_max_abs_abs hx.1 hx.2⟩

theorem Encl.pi_holds : Encl.pi.Holds π := by
  unfold Encl.Holds Encl.pi
  simp only [Rat.mkRat_eq_div]; push_cast
  have h1 := Real.pi_gt_d20
  have h2 := Real.pi_lt_d20
  constructor <;> norm_num at h1 h2 ⊢ <;> linarith

/-- A term's enclosure holds what the term denotes. -/
theorem Scalar.encl_holds : ∀ (a : Scalar) {x : Encl}, a.encl = some x → x.Holds a.eval
  | .rat q, x, h => by cases h; exact ⟨le_rfl, le_rfl⟩
  | .pi, x, h => by cases h; exact Encl.pi_holds
  | .plus a b, x, h => by
    rw [Scalar.encl] at h
    split at h
    · rename_i u v hu hv; cases h; exact Encl.add_holds (encl_holds a hu) (encl_holds b hv)
    · cases h
  | .minus a b, x, h => by
    rw [Scalar.encl] at h
    split at h
    · rename_i u v hu hv; cases h; exact Encl.sub_holds (encl_holds a hu) (encl_holds b hv)
    · cases h
  | .times a b, x, h => by
    rw [Scalar.encl] at h
    split at h
    · rename_i u v hu hv; cases h; exact Encl.mul_holds (encl_holds a hu) (encl_holds b hv)
    · cases h
  | .over a b, x, h => by
    rw [Scalar.encl] at h
    split at h
    · rename_i u v hu hv
      rw [Option.map_eq_some_iff] at h
      obtain ⟨w, hw, rfl⟩ := h
      change (Encl.mul u w).Holds (a.eval / b.eval)
      rw [div_eq_mul_inv]
      exact Encl.mul_holds (encl_holds a hu) (Encl.inv_holds hw (encl_holds b hv))
    · cases h
  | .absV a, x, h => by
    rw [Scalar.encl, Option.map_eq_some_iff] at h
    obtain ⟨w, hw, rfl⟩ := h
    exact Encl.abs_holds (encl_holds a hw)
  | .maxV a b, x, h => by
    rw [Scalar.encl] at h
    split at h
    · rename_i u v hu hv; cases h; exact Encl.max_holds (encl_holds a hu) (encl_holds b hv)
    · cases h
  | .fracV a, x, h => by
    rw [Scalar.encl, Option.map_eq_some_iff] at h
    obtain ⟨w, hw, rfl⟩ := h
    exact Encl.frac_holds (encl_holds a hw)
  | .sinTurns a, x, h => by
    cases h
    unfold Encl.Holds
    simp only [Rat.mkRat_eq_div]; push_cast
    rw [div_one]
    exact ⟨Real.neg_one_le_sin _, Real.sin_le_one _⟩
  | .sel c a b, x, h => by
    rw [Scalar.encl] at h
    split at h
    · rename_i u v hu hv
      cases h
      change (Encl.hull u v).Holds (if c.val then a.eval else b.eval)
      split
      · exact Encl.hull_holds_left v (encl_holds a hu)
      · exact Encl.hull_holds_right u (encl_holds b hv)
    · cases h
  | .free _, x, h => by cases h
  | .fin _ _ _, x, h => by cases h
  | .finFloor _, x, h => by cases h
  | .phase _ _, x, h => by cases h
  | .taperw _ _, x, h => by cases h
  | .winb _ _, x, h => by cases h
  | .bpf _ _ _ _ _ _, x, h => by cases h

/-- A decided comparison is the reals'. -/
theorem Scalar.lt?_sound {a b : Scalar} {v : Bool} (h : Scalar.lt? a b = some v) :
    v = true ↔ a.eval < b.eval := by
  unfold Scalar.lt? at h
  split at h
  · rename_i x y hx hy
    have ha := Scalar.encl_holds a hx
    have hb := Scalar.encl_holds b hy
    split at h
    · rename_i hc
      cases h
      have : (x.2 : ℝ) < (y.1 : ℝ) := by exact_mod_cast (Q.lt_iff _ _).mp hc
      simpa using (ha.2.trans_lt this).trans_le hb.1
    · split at h
      · cases h
      · rename_i hc
        cases h
        rw [Bool.not_eq_true, Q.lt_false_iff] at hc
        have : (y.2 : ℝ) ≤ (x.1 : ℝ) := by exact_mod_cast hc
        simpa using (hb.2.trans this).trans ha.1
  · cases h

/-- A decided equality is the reals'. -/
theorem Scalar.eq?_sound {a b : Scalar} {v : Bool} (h : Scalar.eq? a b = some v) :
    v = true ↔ a.eval = b.eval := by
  unfold Scalar.eq? at h
  split at h
  · rename_i hab; cases h; simp [hab]
  · split at h
    · rename_i x y hx hy
      have ha := Scalar.encl_holds a hx
      have hb := Scalar.encl_holds b hy
      split at h
      · rename_i hc
        cases h
        rw [Bool.or_eq_true, Q.lt_iff, Q.lt_iff] at hc
        simp only [Bool.false_eq_true, false_iff]
        rcases hc with hc | hc
        · have : (x.2 : ℝ) < (y.1 : ℝ) := by exact_mod_cast hc
          exact ((ha.2.trans_lt this).trans_le hb.1).ne
        · have : (y.2 : ℝ) < (x.1 : ℝ) := by exact_mod_cast hc
          exact ((hb.2.trans_lt this).trans_le ha.1).ne'
      · split at h
        · rename_i hc
          cases h
          obtain ⟨h1, h2, h3⟩ := hc
          have ha' : a.eval = (x.1 : ℝ) := le_antisymm (by rw [h1]; exact ha.2) ha.1
          have hb' : b.eval = (y.1 : ℝ) := le_antisymm (by rw [h2]; exact hb.2) hb.1
          simp [ha', hb', h3]
        · cases h
    · cases h

/-- A decided floor is the reals'. -/
theorem Scalar.floor?_sound {a : Scalar} {n : Int} (h : Scalar.floor? a = some n) : n = ⌊a.eval⌋ := by
  unfold Scalar.floor? at h
  split at h
  · rename_i x hx
    have ha := Scalar.encl_holds a hx
    split at h
    · rename_i hc
      cases h
      rw [Q.floor_eq, Q.floor_eq] at hc
      rw [Q.floor_eq]
      have h1 : ⌊x.1⌋ ≤ ⌊a.eval⌋ := by rw [← Rat.floor_cast (α := ℝ)]; exact Int.floor_le_floor ha.1
      have h2 : ⌊a.eval⌋ ≤ ⌊x.2⌋ := by rw [← Rat.floor_cast (α := ℝ) x.2]; exact Int.floor_le_floor ha.2
      omega
    · cases h
  · cases h

/-! Every answer is exact (00 R9). -/

theorem truth_iff (P : Prop) : truth P = true ↔ P :=
  (@theValue Bool (fun c => c = true ↔ P) (truth_exists P)).property

theorem NumDomain.theFloor_eq (N : NumDomain) (a : Scalar) : N.theFloor a = N.floorOf a.eval :=
  (@theValue Int (fun n => n = N.floorOf a.eval) ⟨⟨_, rfl⟩⟩).property

/-- A check's `<` is that of what the terms denote. -/
theorem NumDomain.ltb_iff (N : NumDomain) (a b : Scalar) : N.ltb a b = true ↔ N.Lt a.eval b.eval := by
  cases N with
  | real =>
    rw [NumDomain.ltb]
    cases h : Scalar.lt? a b with
    | some v => exact Scalar.lt?_sound h
    | none => exact truth_iff _
  | finite => exact truth_iff _

/-- A check's `<=` is that of what the terms denote. -/
theorem NumDomain.leb_iff (N : NumDomain) (a b : Scalar) : N.leb a b = true ↔ ¬ N.Lt b.eval a.eval := by
  rw [NumDomain.leb, Bool.not_eq_true', ← Bool.not_eq_true, NumDomain.ltb_iff]

/-- A check's `=` is that of what the terms denote. -/
theorem NumDomain.eqb_iff (N : NumDomain) (a b : Scalar) : N.eqb a b = true ↔ N.Eq a.eval b.eval := by
  cases N with
  | real =>
    rw [NumDomain.eqb]
    cases h : Scalar.eq? a b with
    | some v => exact Scalar.eq?_sound h
    | none => exact truth_iff _
  | finite => exact truth_iff _

/-- A count's floor is that of what the term denotes. -/
theorem NumDomain.floor_eq (N : NumDomain) (a : Scalar) : N.floor a = N.floorOf a.eval := by
  cases N with
  | real =>
    rw [NumDomain.floor]
    cases h : Scalar.floor? a with
    | some v => exact Scalar.floor?_sound h
    | none => exact NumDomain.theFloor_eq _ _
  | finite => exact NumDomain.theFloor_eq _ _

end Sys2Proof
end

