-- ==== Sys2Proof/Laws/Goertzel.lean ====
section
/-! SUPPORT. The Goertzel recurrence gives the squared magnitude of the discrete Fourier sum at exactly the
resonator's frequency (43 R112, R113). -/

namespace Sys2Proof.Machine

open Sys2Proof Real

/-- The sum of `w[i] * f i` over a window (43 R112). -/
noncomputable def windowSum (w : List Scalar) (f : ℕ → ℝ) : ℝ :=
  ((w.mapIdx fun i v => v.eval * f i)).sum

@[simp] theorem windowSum_nil (f : ℕ → ℝ) : windowSum [] f = 0 := rfl

theorem windowSum_append (w : List Scalar) (v : Scalar) (f : ℕ → ℝ) :
    windowSum (w ++ [v]) f = windowSum w f + v.eval * f w.length := by
  simp [windowSum, List.mapIdx_append]

/-- The power estimate, defined (43 R112): `C*C + S*S` with `omega` radians a sample. -/
noncomputable def listPower (w : List Scalar) (omega : ℝ) : ℝ :=
  windowSum w (fun i => cos (omega * i)) ^ 2 + windowSum w (fun i => sin (omega * i)) ^ 2

theorem resonator_append (c : Scalar) (w : List Scalar) (v : Scalar) :
    resonator .real c (w ++ [v]) = resonate .real c (resonator .real c w) v := by
  simp [resonator]

/-- A resonator of coefficient `2*cos omega` after a window: its two registers hold the Fourier sums turned by the
window's length. -/
theorem resonator_sums (c : Scalar) (omega : ℝ) (hc : c.eval = 2 * cos omega) (w : List Scalar) :
    (resonator .real c w).1.eval * cos omega - (resonator .real c w).2.eval =
        cos (omega * w.length) * windowSum w (fun i => cos (omega * i))
          + sin (omega * w.length) * windowSum w (fun i => sin (omega * i)) ∧
      (resonator .real c w).1.eval * sin omega =
        sin (omega * w.length) * windowSum w (fun i => cos (omega * i))
          - cos (omega * w.length) * windowSum w (fun i => sin (omega * i)) := by
  induction w using List.reverseRecOn with
  | nil => simp [resonator]
  | append_singleton w v ih =>
    obtain ⟨h1, h2⟩ := ih
    rw [resonator_append, windowSum_append, windowSum_append]
    simp only [resonate, NumDomain.eval_sub, NumDomain.eval_add, NumDomain.eval_mul, hc, List.length_append,
      List.length_singleton]
    push_cast
    rw [mul_add omega, mul_one omega, cos_add, sin_add]
    set C := windowSum w (fun i => cos (omega * i))
    set S := windowSum w (fun i => sin (omega * i))
    set g1 := (resonator .real c w).1.eval
    set g2 := (resonator .real c w).2.eval
    set cn := cos (omega * (w.length : ℝ)) with hcn
    set sn := sin (omega * (w.length : ℝ)) with hsn
    have hu : cos omega ^ 2 + sin omega ^ 2 = 1 := cos_sq_add_sin_sq omega
    have hn : cn ^ 2 + sn ^ 2 = 1 := cos_sq_add_sin_sq _
    constructor
    · linear_combination cos omega * h1 - sin omega * h2 + (g1 * 1) * hu - v.eval * cos omega * hn
    · linear_combination sin omega * h1 + cos omega * h2 - v.eval * sin omega * hn

/-- The resonator's power is the defined power (43 R113 computes R112). -/
theorem resonatorPower_eval (c : Scalar) (omega : ℝ) (hc : c.eval = 2 * cos omega) (w : List Scalar) :
    (resonatorPower .real c (resonator .real c w)).eval = listPower w omega := by
  obtain ⟨h1, h2⟩ := resonator_sums c omega hc w
  simp only [resonatorPower, NumDomain.eval_sub, NumDomain.eval_add, NumDomain.eval_mul, hc, listPower]
  set C := windowSum w (fun i => cos (omega * i))
  set S := windowSum w (fun i => sin (omega * i))
  set g1 := (resonator .real c w).1.eval
  set g2 := (resonator .real c w).2.eval
  have hu : cos omega ^ 2 + sin omega ^ 2 = 1 := cos_sq_add_sin_sq omega
  have hn : cos (omega * (w.length : ℝ)) ^ 2 + sin (omega * (w.length : ℝ)) ^ 2 = 1 := cos_sq_add_sin_sq _
  have e1 : (g1 * cos omega - g2) ^ 2 + (g1 * sin omega) ^ 2 = C ^ 2 + S ^ 2 := by
    rw [h1, h2]; linear_combination (C ^ 2 + S ^ 2) * hn
  linear_combination e1 - g1 ^ 2 * hu

/-- The coefficient of a resonator (43 R113). -/
theorem resonatorCoef_eval (f fs : Scalar) :
    (resonatorCoef .real f fs).eval = 2 * cos (2 * π * (f.eval / fs.eval)) := by
  rw [resonatorCoef, NumDomain.eval_mul rfl, NumDomain.eval_cosTurns rfl, Scalar.eval_rat, Rat.mkRat_eq_div]
  push_cast; rw [div_one]

theorem windowSum_eq (w : List Scalar) (f : ℕ → ℝ) (len : Nat) (g : ℕ → ℝ) (hl : w.length = len)
    (hg : ∀ i (h : i < w.length), (w[i]).eval = g i) : windowSum w f = weightedSum len g f := by
  subst hl
  unfold windowSum weightedSum
  congr 1
  refine List.ext_getElem (by simp) fun i h1 h2 => ?_
  have hi : i < w.length := by simpa using h1
  simp [hg i hi]

theorem listPower_eq (w : List Scalar) (omega : ℝ) (len : Nat) (g : ℕ → ℝ) (hl : w.length = len)
    (hg : ∀ i (h : i < w.length), (w[i]).eval = g i) : listPower w omega = powerAt len g omega := by
  rw [listPower, powerAt, windowSum_eq w _ len g hl hg, windowSum_eq w _ len g hl hg]

@[simp] theorem State.rxWindow_length (s : State) (len k : Nat) : (s.rxWindow len k).length = len := by
  simp [State.rxWindow]

@[simp] theorem taperWindow_length (N : NumDomain) (c : WindowChoice) (w : List Scalar) :
    (taperWindow N c w).length = w.length := by
  unfold taperWindow; split <;> simp

theorem taperWindow_getElem_eval (c : WindowChoice) (w : List Scalar) (i : Nat)
    (h : i < (taperWindow .real c w).length) :
    ((taperWindow .real c w)[i]).eval = (w[i]'(by simpa using h)).eval * windowGainAt c w.length i := by
  unfold windowGainAt
  by_cases hc : Config.winbMin < w.length
  · simp [taperWindow, hc, NumDomain.eval_mul]
  · simp [taperWindow, hc]

@[simp] theorem State.basicWindow_length (s : State) (k : Nat) : (s.basicWindow k).length = s.symbolLen := by
  simp [State.basicWindow]

/-- Sample `i` of tapered window `k` (43 R110, R111). -/
theorem State.basicWindow_getElem_eval {s : State} (hN : s.Real) (k i : Nat) (h : i < (s.basicWindow k).length) :
    ((s.basicWindow k)[i]).eval = s.basicSample k i := by
  have hw : s.basicWindow k = taperWindow .real s.par.winb (s.rxWindow s.symbolLen k) := by
    rw [State.basicWindow, hN]
  simp only [hw]
  refine (taperWindow_getElem_eval s.par.winb (s.rxWindow s.symbolLen k) i (by rw [← hw]; exact h)).trans ?_
  unfold State.basicSample
  simp [State.rxWindow]

/-- `P0` is the power at F0 (43 R112). -/
theorem State.basicP0_eval {s : State} (hN : s.Real) (k : Nat) : (s.basicP0 k).eval = s.basicPower s.f0 k := by
  rw [State.basicP0, State.basicGs0, hN]
  refine (resonatorPower_eval _ _ (resonatorCoef_eval _ _) _).trans ?_
  rw [State.basicPower, listPower_eq _ _ s.symbolLen (s.basicSample k) (s.basicWindow_length k)
    (State.basicWindow_getElem_eval hN k), mul_div_assoc]

/-- `P1` is the power at F1 (43 R112). -/
theorem State.basicP1_eval {s : State} (hN : s.Real) (k : Nat) : (s.basicP1 k).eval = s.basicPower s.f1 k := by
  rw [State.basicP1, State.basicGs1, hN]
  refine (resonatorPower_eval _ _ (resonatorCoef_eval _ _) _).trans ?_
  rw [State.basicPower, listPower_eq _ _ s.symbolLen (s.basicSample k) (s.basicWindow_length k)
    (State.basicWindow_getElem_eval hN k), mul_div_assoc]

@[simp] theorem State.basicBits_length (s : State) : s.basicBits.length = s.windowCount := by
  simp [State.basicBits]

theorem State.basicBits_getElem (s : State) (k : Nat) (h : k < s.basicBits.length) :
    s.basicBits[k] = s.basicBit k := by simp [State.basicBits]

/-- The bit of a window is 1 exactly when the power at F1 exceeds the power at F0 (43 R114). -/
theorem State.basicBit_val {s : State} (hN : s.Real) (k : Nat) :
    (s.basicBit k).val = true ↔ s.basicPower s.f0 k < s.basicPower s.f1 k := by
  rw [State.basicBit, Bit.val_ltOf, State.basicP0_eval hN, State.basicP1_eval hN, hN]; rfl

end Sys2Proof.Machine
end

