-- ==== Sys2Proof/Laws/State.lean ====
section
/-! SUPPORT. What each named update of the state leaves in each field. -/

namespace Sys2Proof.Machine

open Sys2Proof

/-! `takeFault` -/

@[simp] theorem State.takeFault_par (s : State) (c : Cause) : (s.takeFault c).par = s.par := rfl
@[simp] theorem State.takeFault_cmd (s : State) (c : Cause) : (s.takeFault c).cmd = s.cmd := rfl
@[simp] theorem State.takeFault_status (s : State) (c : Cause) : (s.takeFault c).status = 0x02#8 := rfl
@[simp] theorem State.takeFault_cause (s : State) (c : Cause) : (s.takeFault c).cause = causeCode c := rfl
@[simp] theorem State.takeFault_f0 (s : State) (c : Cause) : (s.takeFault c).f0 = s.f0 := rfl
@[simp] theorem State.takeFault_f1 (s : State) (c : Cause) : (s.takeFault c).f1 = s.f1 := rfl
@[simp] theorem State.takeFault_symdur (s : State) (c : Cause) : (s.takeFault c).symdur = s.symdur := rfl
@[simp] theorem State.takeFault_fs (s : State) (c : Cause) : (s.takeFault c).fs = s.fs := rfl
@[simp] theorem State.takeFault_amp (s : State) (c : Cause) : (s.takeFault c).amp = s.amp := rfl
@[simp] theorem State.takeFault_bw (s : State) (c : Cause) : (s.takeFault c).bw = s.bw := rfl
@[simp] theorem State.takeFault_rhi (s : State) (c : Cause) : (s.takeFault c).rhi = s.rhi := rfl
@[simp] theorem State.takeFault_rlo (s : State) (c : Cause) : (s.takeFault c).rlo = s.rlo := rfl
@[simp] theorem State.takeFault_ofreq (s : State) (c : Cause) : (s.takeFault c).ofreq = s.ofreq := rfl
@[simp] theorem State.takeFault_odur (s : State) (c : Cause) : (s.takeFault c).odur = s.odur := rfl
@[simp] theorem State.takeFault_oamp (s : State) (c : Cause) : (s.takeFault c).oamp = s.oamp := rfl
@[simp] theorem State.takeFault_ophase (s : State) (c : Cause) : (s.takeFault c).ophase = s.ophase := rfl
@[simp] theorem State.takeFault_shpn (s : State) (c : Cause) : (s.takeFault c).shpn = s.shpn := rfl
@[simp] theorem State.takeFault_txlen (s : State) (c : Cause) : (s.takeFault c).txlen = s.txlen := rfl
@[simp] theorem State.takeFault_rxlen (s : State) (c : Cause) : (s.takeFault c).rxlen = s.rxlen := rfl
@[simp] theorem State.takeFault_bilen (s : State) (c : Cause) : (s.takeFault c).bilen = s.bilen := rfl
@[simp] theorem State.takeFault_bolen (s : State) (c : Cause) : (s.takeFault c).bolen = s.bolen := rfl
@[simp] theorem State.takeFault_tx (s : State) (c : Cause) : (s.takeFault c).tx = s.tx := rfl
@[simp] theorem State.takeFault_rx (s : State) (c : Cause) : (s.takeFault c).rx = s.rx := rfl
@[simp] theorem State.takeFault_bi (s : State) (c : Cause) : (s.takeFault c).bi = s.bi := rfl
@[simp] theorem State.takeFault_bo (s : State) (c : Cause) : (s.takeFault c).bo = s.bo := rfl
@[simp] theorem State.takeFault_dp (s : State) (c : Cause) : (s.takeFault c).dp = s.dp := rfl
@[simp] theorem State.takeFault_script (s : State) (c : Cause) : (s.takeFault c).script = s.script := rfl
@[simp] theorem State.takeFault_returned (s : State) (c : Cause) : (s.takeFault c).returned = s.returned := rfl

/-! `complete` -/

@[simp] theorem State.complete_par (s : State) : (s.complete).par = s.par := rfl
@[simp] theorem State.complete_cmd (s : State) : (s.complete).cmd = s.cmd := rfl
@[simp] theorem State.complete_status (s : State) : (s.complete).status = 0x01#8 := rfl
@[simp] theorem State.complete_cause (s : State) : (s.complete).cause = 0x00#8 := rfl
@[simp] theorem State.complete_f0 (s : State) : (s.complete).f0 = s.f0 := rfl
@[simp] theorem State.complete_f1 (s : State) : (s.complete).f1 = s.f1 := rfl
@[simp] theorem State.complete_symdur (s : State) : (s.complete).symdur = s.symdur := rfl
@[simp] theorem State.complete_fs (s : State) : (s.complete).fs = s.fs := rfl
@[simp] theorem State.complete_amp (s : State) : (s.complete).amp = s.amp := rfl
@[simp] theorem State.complete_bw (s : State) : (s.complete).bw = s.bw := rfl
@[simp] theorem State.complete_rhi (s : State) : (s.complete).rhi = s.rhi := rfl
@[simp] theorem State.complete_rlo (s : State) : (s.complete).rlo = s.rlo := rfl
@[simp] theorem State.complete_ofreq (s : State) : (s.complete).ofreq = s.ofreq := rfl
@[simp] theorem State.complete_odur (s : State) : (s.complete).odur = s.odur := rfl
@[simp] theorem State.complete_oamp (s : State) : (s.complete).oamp = s.oamp := rfl
@[simp] theorem State.complete_ophase (s : State) : (s.complete).ophase = s.ophase := rfl
@[simp] theorem State.complete_shpn (s : State) : (s.complete).shpn = s.shpn := rfl
@[simp] theorem State.complete_txlen (s : State) : (s.complete).txlen = s.txlen := rfl
@[simp] theorem State.complete_rxlen (s : State) : (s.complete).rxlen = s.rxlen := rfl
@[simp] theorem State.complete_bilen (s : State) : (s.complete).bilen = s.bilen := rfl
@[simp] theorem State.complete_bolen (s : State) : (s.complete).bolen = s.bolen := rfl
@[simp] theorem State.complete_tx (s : State) : (s.complete).tx = s.tx := rfl
@[simp] theorem State.complete_rx (s : State) : (s.complete).rx = s.rx := rfl
@[simp] theorem State.complete_bi (s : State) : (s.complete).bi = s.bi := rfl
@[simp] theorem State.complete_bo (s : State) : (s.complete).bo = s.bo := rfl
@[simp] theorem State.complete_dp (s : State) : (s.complete).dp = s.dp := rfl
@[simp] theorem State.complete_script (s : State) : (s.complete).script = s.script := rfl
@[simp] theorem State.complete_returned (s : State) : (s.complete).returned = s.returned := rfl

/-! `putTx` -/

@[simp] theorem State.putTx_par (s : State) (xs : List Scalar) : (s.putTx xs).par = s.par := rfl
@[simp] theorem State.putTx_cmd (s : State) (xs : List Scalar) : (s.putTx xs).cmd = s.cmd := rfl
@[simp] theorem State.putTx_status (s : State) (xs : List Scalar) : (s.putTx xs).status = s.status := rfl
@[simp] theorem State.putTx_cause (s : State) (xs : List Scalar) : (s.putTx xs).cause = s.cause := rfl
@[simp] theorem State.putTx_f0 (s : State) (xs : List Scalar) : (s.putTx xs).f0 = s.f0 := rfl
@[simp] theorem State.putTx_f1 (s : State) (xs : List Scalar) : (s.putTx xs).f1 = s.f1 := rfl
@[simp] theorem State.putTx_symdur (s : State) (xs : List Scalar) : (s.putTx xs).symdur = s.symdur := rfl
@[simp] theorem State.putTx_fs (s : State) (xs : List Scalar) : (s.putTx xs).fs = s.fs := rfl
@[simp] theorem State.putTx_amp (s : State) (xs : List Scalar) : (s.putTx xs).amp = s.amp := rfl
@[simp] theorem State.putTx_bw (s : State) (xs : List Scalar) : (s.putTx xs).bw = s.bw := rfl
@[simp] theorem State.putTx_rhi (s : State) (xs : List Scalar) : (s.putTx xs).rhi = s.rhi := rfl
@[simp] theorem State.putTx_rlo (s : State) (xs : List Scalar) : (s.putTx xs).rlo = s.rlo := rfl
@[simp] theorem State.putTx_ofreq (s : State) (xs : List Scalar) : (s.putTx xs).ofreq = s.ofreq := rfl
@[simp] theorem State.putTx_odur (s : State) (xs : List Scalar) : (s.putTx xs).odur = s.odur := rfl
@[simp] theorem State.putTx_oamp (s : State) (xs : List Scalar) : (s.putTx xs).oamp = s.oamp := rfl
@[simp] theorem State.putTx_ophase (s : State) (xs : List Scalar) : (s.putTx xs).ophase = s.ophase := rfl
@[simp] theorem State.putTx_shpn (s : State) (xs : List Scalar) : (s.putTx xs).shpn = s.shpn := rfl
@[simp] theorem State.putTx_txlen (s : State) (xs : List Scalar) : (s.putTx xs).txlen = xs.length := rfl
@[simp] theorem State.putTx_rxlen (s : State) (xs : List Scalar) : (s.putTx xs).rxlen = s.rxlen := rfl
@[simp] theorem State.putTx_bilen (s : State) (xs : List Scalar) : (s.putTx xs).bilen = s.bilen := rfl
@[simp] theorem State.putTx_bolen (s : State) (xs : List Scalar) : (s.putTx xs).bolen = s.bolen := rfl
@[simp] theorem State.putTx_tx (s : State) (xs : List Scalar) : (s.putTx xs).tx = s.tx.replace (scalarDefault .tx) xs := rfl
@[simp] theorem State.putTx_rx (s : State) (xs : List Scalar) : (s.putTx xs).rx = s.rx := rfl
@[simp] theorem State.putTx_bi (s : State) (xs : List Scalar) : (s.putTx xs).bi = s.bi := rfl
@[simp] theorem State.putTx_bo (s : State) (xs : List Scalar) : (s.putTx xs).bo = s.bo := rfl
@[simp] theorem State.putTx_dp (s : State) (xs : List Scalar) : (s.putTx xs).dp = s.dp := rfl
@[simp] theorem State.putTx_script (s : State) (xs : List Scalar) : (s.putTx xs).script = s.script := rfl
@[simp] theorem State.putTx_returned (s : State) (xs : List Scalar) : (s.putTx xs).returned = s.returned := rfl

/-! `putBo` -/

@[simp] theorem State.putBo_par (s : State) (bs : List Bit) : (s.putBo bs).par = s.par := rfl
@[simp] theorem State.putBo_cmd (s : State) (bs : List Bit) : (s.putBo bs).cmd = s.cmd := rfl
@[simp] theorem State.putBo_status (s : State) (bs : List Bit) : (s.putBo bs).status = s.status := rfl
@[simp] theorem State.putBo_cause (s : State) (bs : List Bit) : (s.putBo bs).cause = s.cause := rfl
@[simp] theorem State.putBo_f0 (s : State) (bs : List Bit) : (s.putBo bs).f0 = s.f0 := rfl
@[simp] theorem State.putBo_f1 (s : State) (bs : List Bit) : (s.putBo bs).f1 = s.f1 := rfl
@[simp] theorem State.putBo_symdur (s : State) (bs : List Bit) : (s.putBo bs).symdur = s.symdur := rfl
@[simp] theorem State.putBo_fs (s : State) (bs : List Bit) : (s.putBo bs).fs = s.fs := rfl
@[simp] theorem State.putBo_amp (s : State) (bs : List Bit) : (s.putBo bs).amp = s.amp := rfl
@[simp] theorem State.putBo_bw (s : State) (bs : List Bit) : (s.putBo bs).bw = s.bw := rfl
@[simp] theorem State.putBo_rhi (s : State) (bs : List Bit) : (s.putBo bs).rhi = s.rhi := rfl
@[simp] theorem State.putBo_rlo (s : State) (bs : List Bit) : (s.putBo bs).rlo = s.rlo := rfl
@[simp] theorem State.putBo_ofreq (s : State) (bs : List Bit) : (s.putBo bs).ofreq = s.ofreq := rfl
@[simp] theorem State.putBo_odur (s : State) (bs : List Bit) : (s.putBo bs).odur = s.odur := rfl
@[simp] theorem State.putBo_oamp (s : State) (bs : List Bit) : (s.putBo bs).oamp = s.oamp := rfl
@[simp] theorem State.putBo_ophase (s : State) (bs : List Bit) : (s.putBo bs).ophase = s.ophase := rfl
@[simp] theorem State.putBo_shpn (s : State) (bs : List Bit) : (s.putBo bs).shpn = s.shpn := rfl
@[simp] theorem State.putBo_txlen (s : State) (bs : List Bit) : (s.putBo bs).txlen = s.txlen := rfl
@[simp] theorem State.putBo_rxlen (s : State) (bs : List Bit) : (s.putBo bs).rxlen = s.rxlen := rfl
@[simp] theorem State.putBo_bilen (s : State) (bs : List Bit) : (s.putBo bs).bilen = s.bilen := rfl
@[simp] theorem State.putBo_bolen (s : State) (bs : List Bit) : (s.putBo bs).bolen = bs.length := rfl
@[simp] theorem State.putBo_tx (s : State) (bs : List Bit) : (s.putBo bs).tx = s.tx := rfl
@[simp] theorem State.putBo_rx (s : State) (bs : List Bit) : (s.putBo bs).rx = s.rx := rfl
@[simp] theorem State.putBo_bi (s : State) (bs : List Bit) : (s.putBo bs).bi = s.bi := rfl
@[simp] theorem State.putBo_bo (s : State) (bs : List Bit) : (s.putBo bs).bo = s.bo.replace (bitDefault .bo) bs := rfl
@[simp] theorem State.putBo_dp (s : State) (bs : List Bit) : (s.putBo bs).dp = s.dp := rfl
@[simp] theorem State.putBo_script (s : State) (bs : List Bit) : (s.putBo bs).script = s.script := rfl
@[simp] theorem State.putBo_returned (s : State) (bs : List Bit) : (s.putBo bs).returned = s.returned := rfl

/-! `putDp` -/

@[simp] theorem State.putDp_par (s : State) (d : Datapath) : (s.putDp d).par = s.par := rfl
@[simp] theorem State.putDp_cmd (s : State) (d : Datapath) : (s.putDp d).cmd = s.cmd := rfl
@[simp] theorem State.putDp_status (s : State) (d : Datapath) : (s.putDp d).status = s.status := rfl
@[simp] theorem State.putDp_cause (s : State) (d : Datapath) : (s.putDp d).cause = s.cause := rfl
@[simp] theorem State.putDp_f0 (s : State) (d : Datapath) : (s.putDp d).f0 = s.f0 := rfl
@[simp] theorem State.putDp_f1 (s : State) (d : Datapath) : (s.putDp d).f1 = s.f1 := rfl
@[simp] theorem State.putDp_symdur (s : State) (d : Datapath) : (s.putDp d).symdur = s.symdur := rfl
@[simp] theorem State.putDp_fs (s : State) (d : Datapath) : (s.putDp d).fs = s.fs := rfl
@[simp] theorem State.putDp_amp (s : State) (d : Datapath) : (s.putDp d).amp = s.amp := rfl
@[simp] theorem State.putDp_bw (s : State) (d : Datapath) : (s.putDp d).bw = s.bw := rfl
@[simp] theorem State.putDp_rhi (s : State) (d : Datapath) : (s.putDp d).rhi = s.rhi := rfl
@[simp] theorem State.putDp_rlo (s : State) (d : Datapath) : (s.putDp d).rlo = s.rlo := rfl
@[simp] theorem State.putDp_ofreq (s : State) (d : Datapath) : (s.putDp d).ofreq = s.ofreq := rfl
@[simp] theorem State.putDp_odur (s : State) (d : Datapath) : (s.putDp d).odur = s.odur := rfl
@[simp] theorem State.putDp_oamp (s : State) (d : Datapath) : (s.putDp d).oamp = s.oamp := rfl
@[simp] theorem State.putDp_ophase (s : State) (d : Datapath) : (s.putDp d).ophase = s.ophase := rfl
@[simp] theorem State.putDp_shpn (s : State) (d : Datapath) : (s.putDp d).shpn = s.shpn := rfl
@[simp] theorem State.putDp_txlen (s : State) (d : Datapath) : (s.putDp d).txlen = s.txlen := rfl
@[simp] theorem State.putDp_rxlen (s : State) (d : Datapath) : (s.putDp d).rxlen = s.rxlen := rfl
@[simp] theorem State.putDp_bilen (s : State) (d : Datapath) : (s.putDp d).bilen = s.bilen := rfl
@[simp] theorem State.putDp_bolen (s : State) (d : Datapath) : (s.putDp d).bolen = s.bolen := rfl
@[simp] theorem State.putDp_tx (s : State) (d : Datapath) : (s.putDp d).tx = s.tx := rfl
@[simp] theorem State.putDp_rx (s : State) (d : Datapath) : (s.putDp d).rx = s.rx := rfl
@[simp] theorem State.putDp_bi (s : State) (d : Datapath) : (s.putDp d).bi = s.bi := rfl
@[simp] theorem State.putDp_bo (s : State) (d : Datapath) : (s.putDp d).bo = s.bo := rfl
@[simp] theorem State.putDp_dp (s : State) (d : Datapath) : (s.putDp d).dp = d := rfl
@[simp] theorem State.putDp_script (s : State) (d : Datapath) : (s.putDp d).script = s.script := rfl
@[simp] theorem State.putDp_returned (s : State) (d : Datapath) : (s.putDp d).returned = s.returned := rfl

/-! `answer` -/

@[simp] theorem State.answer_par (s : State) (v : Value) : (s.answer v).par = s.par := rfl
@[simp] theorem State.answer_cmd (s : State) (v : Value) : (s.answer v).cmd = s.cmd := rfl
@[simp] theorem State.answer_status (s : State) (v : Value) : (s.answer v).status = s.status := rfl
@[simp] theorem State.answer_cause (s : State) (v : Value) : (s.answer v).cause = s.cause := rfl
@[simp] theorem State.answer_f0 (s : State) (v : Value) : (s.answer v).f0 = s.f0 := rfl
@[simp] theorem State.answer_f1 (s : State) (v : Value) : (s.answer v).f1 = s.f1 := rfl
@[simp] theorem State.answer_symdur (s : State) (v : Value) : (s.answer v).symdur = s.symdur := rfl
@[simp] theorem State.answer_fs (s : State) (v : Value) : (s.answer v).fs = s.fs := rfl
@[simp] theorem State.answer_amp (s : State) (v : Value) : (s.answer v).amp = s.amp := rfl
@[simp] theorem State.answer_bw (s : State) (v : Value) : (s.answer v).bw = s.bw := rfl
@[simp] theorem State.answer_rhi (s : State) (v : Value) : (s.answer v).rhi = s.rhi := rfl
@[simp] theorem State.answer_rlo (s : State) (v : Value) : (s.answer v).rlo = s.rlo := rfl
@[simp] theorem State.answer_ofreq (s : State) (v : Value) : (s.answer v).ofreq = s.ofreq := rfl
@[simp] theorem State.answer_odur (s : State) (v : Value) : (s.answer v).odur = s.odur := rfl
@[simp] theorem State.answer_oamp (s : State) (v : Value) : (s.answer v).oamp = s.oamp := rfl
@[simp] theorem State.answer_ophase (s : State) (v : Value) : (s.answer v).ophase = s.ophase := rfl
@[simp] theorem State.answer_shpn (s : State) (v : Value) : (s.answer v).shpn = s.shpn := rfl
@[simp] theorem State.answer_txlen (s : State) (v : Value) : (s.answer v).txlen = s.txlen := rfl
@[simp] theorem State.answer_rxlen (s : State) (v : Value) : (s.answer v).rxlen = s.rxlen := rfl
@[simp] theorem State.answer_bilen (s : State) (v : Value) : (s.answer v).bilen = s.bilen := rfl
@[simp] theorem State.answer_bolen (s : State) (v : Value) : (s.answer v).bolen = s.bolen := rfl
@[simp] theorem State.answer_tx (s : State) (v : Value) : (s.answer v).tx = s.tx := rfl
@[simp] theorem State.answer_rx (s : State) (v : Value) : (s.answer v).rx = s.rx := rfl
@[simp] theorem State.answer_bi (s : State) (v : Value) : (s.answer v).bi = s.bi := rfl
@[simp] theorem State.answer_bo (s : State) (v : Value) : (s.answer v).bo = s.bo := rfl
@[simp] theorem State.answer_dp (s : State) (v : Value) : (s.answer v).dp = s.dp := rfl
@[simp] theorem State.answer_script (s : State) (v : Value) : (s.answer v).script = s.script := rfl
@[simp] theorem State.answer_returned (s : State) (v : Value) : (s.answer v).returned = s.returned ++ [v] := rfl

/-! `storeCmd` -/

@[simp] theorem State.storeCmd_par (s : State) (b : Byte) : (s.storeCmd b).par = s.par := rfl
@[simp] theorem State.storeCmd_cmd (s : State) (b : Byte) : (s.storeCmd b).cmd = b := rfl
@[simp] theorem State.storeCmd_status (s : State) (b : Byte) : (s.storeCmd b).status = s.status := rfl
@[simp] theorem State.storeCmd_cause (s : State) (b : Byte) : (s.storeCmd b).cause = s.cause := rfl
@[simp] theorem State.storeCmd_f0 (s : State) (b : Byte) : (s.storeCmd b).f0 = s.f0 := rfl
@[simp] theorem State.storeCmd_f1 (s : State) (b : Byte) : (s.storeCmd b).f1 = s.f1 := rfl
@[simp] theorem State.storeCmd_symdur (s : State) (b : Byte) : (s.storeCmd b).symdur = s.symdur := rfl
@[simp] theorem State.storeCmd_fs (s : State) (b : Byte) : (s.storeCmd b).fs = s.fs := rfl
@[simp] theorem State.storeCmd_amp (s : State) (b : Byte) : (s.storeCmd b).amp = s.amp := rfl
@[simp] theorem State.storeCmd_bw (s : State) (b : Byte) : (s.storeCmd b).bw = s.bw := rfl
@[simp] theorem State.storeCmd_rhi (s : State) (b : Byte) : (s.storeCmd b).rhi = s.rhi := rfl
@[simp] theorem State.storeCmd_rlo (s : State) (b : Byte) : (s.storeCmd b).rlo = s.rlo := rfl
@[simp] theorem State.storeCmd_ofreq (s : State) (b : Byte) : (s.storeCmd b).ofreq = s.ofreq := rfl
@[simp] theorem State.storeCmd_odur (s : State) (b : Byte) : (s.storeCmd b).odur = s.odur := rfl
@[simp] theorem State.storeCmd_oamp (s : State) (b : Byte) : (s.storeCmd b).oamp = s.oamp := rfl
@[simp] theorem State.storeCmd_ophase (s : State) (b : Byte) : (s.storeCmd b).ophase = s.ophase := rfl
@[simp] theorem State.storeCmd_shpn (s : State) (b : Byte) : (s.storeCmd b).shpn = s.shpn := rfl
@[simp] theorem State.storeCmd_txlen (s : State) (b : Byte) : (s.storeCmd b).txlen = s.txlen := rfl
@[simp] theorem State.storeCmd_rxlen (s : State) (b : Byte) : (s.storeCmd b).rxlen = s.rxlen := rfl
@[simp] theorem State.storeCmd_bilen (s : State) (b : Byte) : (s.storeCmd b).bilen = s.bilen := rfl
@[simp] theorem State.storeCmd_bolen (s : State) (b : Byte) : (s.storeCmd b).bolen = s.bolen := rfl
@[simp] theorem State.storeCmd_tx (s : State) (b : Byte) : (s.storeCmd b).tx = s.tx := rfl
@[simp] theorem State.storeCmd_rx (s : State) (b : Byte) : (s.storeCmd b).rx = s.rx := rfl
@[simp] theorem State.storeCmd_bi (s : State) (b : Byte) : (s.storeCmd b).bi = s.bi := rfl
@[simp] theorem State.storeCmd_bo (s : State) (b : Byte) : (s.storeCmd b).bo = s.bo := rfl
@[simp] theorem State.storeCmd_dp (s : State) (b : Byte) : (s.storeCmd b).dp = s.dp := rfl
@[simp] theorem State.storeCmd_script (s : State) (b : Byte) : (s.storeCmd b).script = s.script := rfl
@[simp] theorem State.storeCmd_returned (s : State) (b : Byte) : (s.storeCmd b).returned = s.returned := rfl

/-! `putScript` -/

@[simp] theorem State.putScript_par (s : State) (ts : List Txn) : (s.putScript ts).par = s.par := rfl
@[simp] theorem State.putScript_cmd (s : State) (ts : List Txn) : (s.putScript ts).cmd = s.cmd := rfl
@[simp] theorem State.putScript_status (s : State) (ts : List Txn) : (s.putScript ts).status = s.status := rfl
@[simp] theorem State.putScript_cause (s : State) (ts : List Txn) : (s.putScript ts).cause = s.cause := rfl
@[simp] theorem State.putScript_f0 (s : State) (ts : List Txn) : (s.putScript ts).f0 = s.f0 := rfl
@[simp] theorem State.putScript_f1 (s : State) (ts : List Txn) : (s.putScript ts).f1 = s.f1 := rfl
@[simp] theorem State.putScript_symdur (s : State) (ts : List Txn) : (s.putScript ts).symdur = s.symdur := rfl
@[simp] theorem State.putScript_fs (s : State) (ts : List Txn) : (s.putScript ts).fs = s.fs := rfl
@[simp] theorem State.putScript_amp (s : State) (ts : List Txn) : (s.putScript ts).amp = s.amp := rfl
@[simp] theorem State.putScript_bw (s : State) (ts : List Txn) : (s.putScript ts).bw = s.bw := rfl
@[simp] theorem State.putScript_rhi (s : State) (ts : List Txn) : (s.putScript ts).rhi = s.rhi := rfl
@[simp] theorem State.putScript_rlo (s : State) (ts : List Txn) : (s.putScript ts).rlo = s.rlo := rfl
@[simp] theorem State.putScript_ofreq (s : State) (ts : List Txn) : (s.putScript ts).ofreq = s.ofreq := rfl
@[simp] theorem State.putScript_odur (s : State) (ts : List Txn) : (s.putScript ts).odur = s.odur := rfl
@[simp] theorem State.putScript_oamp (s : State) (ts : List Txn) : (s.putScript ts).oamp = s.oamp := rfl
@[simp] theorem State.putScript_ophase (s : State) (ts : List Txn) : (s.putScript ts).ophase = s.ophase := rfl
@[simp] theorem State.putScript_shpn (s : State) (ts : List Txn) : (s.putScript ts).shpn = s.shpn := rfl
@[simp] theorem State.putScript_txlen (s : State) (ts : List Txn) : (s.putScript ts).txlen = s.txlen := rfl
@[simp] theorem State.putScript_rxlen (s : State) (ts : List Txn) : (s.putScript ts).rxlen = s.rxlen := rfl
@[simp] theorem State.putScript_bilen (s : State) (ts : List Txn) : (s.putScript ts).bilen = s.bilen := rfl
@[simp] theorem State.putScript_bolen (s : State) (ts : List Txn) : (s.putScript ts).bolen = s.bolen := rfl
@[simp] theorem State.putScript_tx (s : State) (ts : List Txn) : (s.putScript ts).tx = s.tx := rfl
@[simp] theorem State.putScript_rx (s : State) (ts : List Txn) : (s.putScript ts).rx = s.rx := rfl
@[simp] theorem State.putScript_bi (s : State) (ts : List Txn) : (s.putScript ts).bi = s.bi := rfl
@[simp] theorem State.putScript_bo (s : State) (ts : List Txn) : (s.putScript ts).bo = s.bo := rfl
@[simp] theorem State.putScript_dp (s : State) (ts : List Txn) : (s.putScript ts).dp = s.dp := rfl
@[simp] theorem State.putScript_script (s : State) (ts : List Txn) : (s.putScript ts).script = ts := rfl
@[simp] theorem State.putScript_returned (s : State) (ts : List Txn) : (s.putScript ts).returned = s.returned := rfl

end Sys2Proof.Machine
end

