-- ==== Sys2Proof/Laws/Memory.lean ====
section
/-! SUPPORT. The buffer memories: reads after writes, and the canonical form (20 R40 to R45). -/

namespace Sys2Proof.Machine

open Sys2Proof

variable {α : Type}

theorem Mem.lookup_insert_same (i : Nat) (v : α) (cs : List (Nat × α)) :
    Mem.lookup (Mem.insert i v cs) i = some v := by
  induction cs with
  | nil => simp [Mem.insert, Mem.lookup]
  | cons c cs ih =>
    obtain ⟨j, w⟩ := c
    unfold Mem.insert
    split
    · simp [Mem.lookup]
    · split
      · simp [Mem.lookup]
      · rename_i h; simp [Mem.lookup, h, ih]

theorem Mem.lookup_insert_other {i k : Nat} (h : k ≠ i) (v : α) (cs : List (Nat × α)) :
    Mem.lookup (Mem.insert i v cs) k = Mem.lookup cs k := by
  induction cs with
  | nil => simp [Mem.insert, Mem.lookup, h]
  | cons c cs ih =>
    obtain ⟨j, w⟩ := c
    unfold Mem.insert
    split
    · simp [Mem.lookup, h]
    · split
      · rename_i hij; subst hij; simp [Mem.lookup, h]
      · simp only [Mem.lookup, ih]

theorem Mem.lookup_erase_same (i : Nat) (cs : List (Nat × α)) : Mem.lookup (Mem.erase i cs) i = none := by
  induction cs with
  | nil => rfl
  | cons c cs ih =>
    obtain ⟨j, w⟩ := c
    unfold Mem.erase at ih ⊢
    by_cases h : j = i
    · rw [List.filter_cons_of_neg (by simp [h])]; exact ih
    · rw [List.filter_cons_of_pos (by simp [h]), Mem.lookup, if_neg (Ne.symm h)]; exact ih

theorem Mem.lookup_erase_other {i k : Nat} (h : k ≠ i) (cs : List (Nat × α)) :
    Mem.lookup (Mem.erase i cs) k = Mem.lookup cs k := by
  induction cs with
  | nil => rfl
  | cons c cs ih =>
    obtain ⟨j, w⟩ := c
    unfold Mem.erase at ih ⊢
    by_cases hj : j = i
    · rw [List.filter_cons_of_neg (by simp [hj]), ih, Mem.lookup, if_neg (by rw [hj]; exact h)]
    · rw [List.filter_cons_of_pos (by simp [hj]), Mem.lookup, Mem.lookup, ih]

/-- A read after a write of the same element gives the value written (20 R45). -/
@[simp] theorem Mem.read_write_same [DecidableEq α] (d : Nat → Nat → α) (m : Mem α) (i : Nat) (v : α) :
    (m.write d i v).read d i = v := by
  unfold Mem.read Mem.write
  split
  · rename_i h; simp [Mem.lookup_erase_same, h]
  · simp [Mem.lookup_insert_same]

/-- A write leaves every other element as it was (20 R45). -/
theorem Mem.read_write_other [DecidableEq α] (d : Nat → Nat → α) (m : Mem α) {i k : Nat} (h : k ≠ i) (v : α) :
    (m.write d i v).read d k = m.read d k := by
  unfold Mem.read Mem.write
  split
  · simp [Mem.lookup_erase_other h]
  · simp [Mem.lookup_insert_other h]

theorem Mem.mem_insert {i : Nat} {v : α} {cs : List (Nat × α)} {c : Nat × α} (h : c ∈ Mem.insert i v cs) :
    c = (i, v) ∨ c ∈ cs := by
  induction cs with
  | nil => simpa [Mem.insert] using h
  | cons x cs ih =>
    obtain ⟨j, w⟩ := x
    unfold Mem.insert at h
    split at h
    · simpa using h
    · split at h
      · rcases List.mem_cons.mp h with h | h
        · exact .inl h
        · exact .inr (List.mem_cons_of_mem _ h)
      · rcases List.mem_cons.mp h with h | h
        · exact .inr (h ▸ List.mem_cons_self)
        · exact (ih h).imp id (List.mem_cons_of_mem _)

theorem Mem.pairwise_insert {i : Nat} {v : α} {cs : List (Nat × α)}
    (h : cs.Pairwise (fun a b => a.1 < b.1)) : (Mem.insert i v cs).Pairwise (fun a b => a.1 < b.1) := by
  induction cs with
  | nil => simp [Mem.insert]
  | cons x cs ih =>
    obtain ⟨j, w⟩ := x
    rw [List.pairwise_cons] at h
    unfold Mem.insert
    split
    · rename_i hij
      rw [List.pairwise_cons, List.pairwise_cons]
      refine ⟨fun c hc => ?_, h⟩
      rcases List.mem_cons.mp hc with rfl | hc
      · exact hij
      · exact lt_trans hij (h.1 c hc)
    · split
      · rename_i hij
        subst hij
        exact List.pairwise_cons.mpr h
      · rename_i h1 h2
        rw [List.pairwise_cons]
        refine ⟨fun c hc => ?_, ih h.2⟩
        rcases Mem.mem_insert hc with rfl | hc
        · dsimp only; omega
        · exact h.1 c hc

/-- A write keeps the canonical form. -/
theorem Mem.wf_write [DecidableEq α] {d : Nat → Nat → α} {m : Mem α} (h : m.wf d) (i : Nat) (v : α) :
    (m.write d i v).wf d := by
  unfold Mem.write Mem.wf at *
  split
  · exact ⟨h.1.filter _, fun c hc => h.2 c (List.mem_of_mem_filter hc)⟩
  · rename_i hv
    refine ⟨Mem.pairwise_insert h.1, fun c hc => ?_⟩
    rcases Mem.mem_insert hc with rfl | hc
    · exact hv
    · exact h.2 c hc

/-- A write lists no other element. -/
theorem Mem.mem_write [DecidableEq α] {d : Nat → Nat → α} {m : Mem α} {i : Nat} {v : α} {c : Nat × α}
    (h : c ∈ (m.write d i v).cells) : c.1 = i ∨ c ∈ m.cells := by
  unfold Mem.write at h
  simp only at h
  split at h
  · exact .inr (List.mem_of_mem_filter h)
  · rcases Mem.mem_insert h with rfl | h
    · exact .inl rfl
    · exact .inr h

theorem Mem.mem_cellsFrom [DecidableEq α] {d : Nat → Nat → α} {g : Nat} {xs : List α} {i : Nat} {c : Nat × α}
    (h : c ∈ Mem.cellsFrom d g i xs) : i ≤ c.1 ∧ c.1 < i + xs.length ∧ c.2 ≠ d g c.1 := by
  induction xs generalizing i with
  | nil => simp [Mem.cellsFrom] at h
  | cons x xs ih =>
    unfold Mem.cellsFrom at h
    rw [List.length_cons]
    split at h
    · have := ih h; exact ⟨by omega, by omega, this.2.2⟩
    · rename_i hx
      rcases List.mem_cons.mp h with rfl | h
      · exact ⟨le_rfl, by simp, hx⟩
      · have := ih h; exact ⟨by omega, by omega, this.2.2⟩

theorem Mem.pairwise_cellsFrom [DecidableEq α] (d : Nat → Nat → α) (g : Nat) (xs : List α) (i : Nat) :
    (Mem.cellsFrom d g i xs).Pairwise (fun a b => a.1 < b.1) := by
  induction xs generalizing i with
  | nil => simp [Mem.cellsFrom]
  | cons x xs ih =>
    unfold Mem.cellsFrom
    split
    · exact ih _
    · rw [List.pairwise_cons]
      exact ⟨fun c hc => by have := (Mem.mem_cellsFrom hc).1; dsimp only; omega, ih _⟩

theorem Mem.lookup_of_lt [DecidableEq α] (d : Nat → Nat → α) (g : Nat) (xs : List α) {i k : Nat} (h : k < i) :
    Mem.lookup (Mem.cellsFrom d g i xs) k = none := by
  induction xs generalizing i with
  | nil => rfl
  | cons x xs ih =>
    unfold Mem.cellsFrom
    split
    · exact ih (by omega)
    · rw [Mem.lookup, if_neg (by omega)]; exact ih (by omega)

theorem Mem.lookup_cellsFrom [DecidableEq α] (d : Nat → Nat → α) (g : Nat) (xs : List α) (i k : Nat) :
    (Mem.lookup (Mem.cellsFrom d g i xs) (i + k)).getD (d g (i + k)) = (xs[k]?).getD (d g (i + k)) := by
  induction xs generalizing i k with
  | nil => simp [Mem.cellsFrom, Mem.lookup]
  | cons x xs ih =>
    unfold Mem.cellsFrom
    cases k with
    | zero =>
      split
      · rename_i hx
        have e := Mem.lookup_of_lt d g xs (Nat.lt_add_one i)
        simp only [Nat.add_zero] at *
        rw [e]; simp [hx]
      · simp [Mem.lookup]
    | succ k =>
      have e : i + (k + 1) = i + 1 + k := by omega
      split
      · rw [e, ih]; simp
      · rw [Mem.lookup, if_neg (by omega), e, ih]; simp

/-- An output memory after a completed command: the output, then unspecified elements (20 R42). -/
theorem Mem.read_replace [DecidableEq α] (d : Nat → Nat → α) (m : Mem α) (xs : List α) (k : Nat) :
    (m.replace d xs).read d k = (xs[k]?).getD (d (m.gen + 1) k) := by
  have h := Mem.lookup_cellsFrom d (m.gen + 1) xs 0 k
  rw [Nat.zero_add] at h
  exact h

theorem Mem.wf_replace [DecidableEq α] (d : Nat → Nat → α) (m : Mem α) (xs : List α) : (m.replace d xs).wf d :=
  ⟨Mem.pairwise_cellsFrom _ _ _ _, fun _ hc => (Mem.mem_cellsFrom hc).2.2⟩

theorem Mem.mem_replace [DecidableEq α] {d : Nat → Nat → α} {m : Mem α} {xs : List α} {c : Nat × α}
    (h : c ∈ (m.replace d xs).cells) : c.1 < xs.length := by
  have := (Mem.mem_cellsFrom h).2.1; omega

/-! The memories of a state. -/

/-- TX after a completed command (20 R42). -/
theorem State.txAt_putTx (s : State) (xs : List Scalar) {i : Nat} (h : i < xs.length) :
    (s.putTx xs).txAt i = xs[i] := by
  unfold State.txAt
  rw [State.putTx_tx, Mem.read_replace, List.getElem?_eq_getElem h, Option.getD_some]

/-- BO after a completed command (20 R42). -/
theorem State.boAt_putBo (s : State) (bs : List Bit) {i : Nat} (h : i < bs.length) :
    (s.putBo bs).boAt i = bs[i] := by
  unfold State.boAt
  rw [State.putBo_bo, Mem.read_replace, List.getElem?_eq_getElem h, Option.getD_some]

theorem State.memWf_putTx {s : State} (h : s.memWf) (xs : List Scalar) : (s.putTx xs).memWf :=
  ⟨Mem.wf_replace _ _ _, h.2⟩

theorem State.memWf_putBo {s : State} (h : s.memWf) (bs : List Bit) : (s.putBo bs).memWf :=
  ⟨h.1, h.2.1, h.2.2.1, Mem.wf_replace _ _ _⟩

/-- A host store keeps the canonical form of every memory. -/
theorem State.memWf_setElement {s : State} (h : s.memWf) (m : MemId) (i : Nat) (v : Value) :
    (s.setElement m i v).memWf := by
  unfold State.setElement
  split
  · exact ⟨h.1, Mem.wf_write h.2.1 _ _, h.2.2⟩
  · exact ⟨h.1, h.2.1, Mem.wf_write h.2.2.1 _ _, h.2.2.2⟩
  · exact h

theorem State.memWf_reset : State.reset.memWf := by decide

theorem State.memWf_platformReset (s : State) : s.platformReset.memWf := by
  simp [State.memWf, State.platformReset, Mem.forget, Mem.wf]

end Sys2Proof.Machine
end

