-- ==== Sys2Proof/Laws/Robust.lean ====
section
/-! SUPPORT. The Robust Demodulator's steps: what the peak, the normalised sample, the filter, the energy, the ratio
and the bits are (44 R126 to R133). -/

namespace Sys2Proof.Machine

open Sys2Proof

/-! Normalisation. -/

theorem foldl_peak_eval (xs : List Scalar) (p : Scalar) :
    (xs.foldl (fun p v => NumDomain.real.max p (NumDomain.real.abs v)) p).eval =
      xs.foldl (fun (m : ℝ) v => m ⊔ |v.eval|) p.eval := by
  induction xs generalizing p with
  | nil => rfl
  | cons x xs ih => rw [List.foldl_cons, List.foldl_cons, ih, NumDomain.eval_max rfl, NumDomain.eval_abs rfl]

theorem foldl_max_bounds (xs : List Scalar) (m : ℝ) :
    m ≤ xs.foldl (fun (m : ℝ) v => m ⊔ |v.eval|) m ∧
      (∀ v ∈ xs, |v.eval| ≤ xs.foldl (fun (m : ℝ) v => m ⊔ |v.eval|) m) ∧
      (xs.foldl (fun (m : ℝ) v => m ⊔ |v.eval|) m = m ∨
        ∃ v ∈ xs, |v.eval| = xs.foldl (fun (m : ℝ) v => m ⊔ |v.eval|) m) := by
  induction xs generalizing m with
  | nil => simp
  | cons x xs ih =>
    obtain ⟨h1, h2, h3⟩ := ih (m ⊔ |x.eval|)
    rw [List.foldl_cons]
    refine ⟨le_sup_left.trans h1, ?_, ?_⟩
    · intro v hv
      rcases List.mem_cons.mp hv with rfl | hv
      · exact le_sup_right.trans h1
      · exact h2 v hv
    · rcases h3 with h3 | ⟨v, hv, h3⟩
      · rcases le_total m |x.eval| with hm | hm
        · exact .inr ⟨x, List.mem_cons_self, by rw [h3, sup_eq_right.mpr hm]⟩
        · exact .inl (by rw [h3, sup_eq_left.mpr hm])
      · exact .inr ⟨v, List.mem_cons_of_mem _ hv, h3⟩

/-- PEAK is at least 0 (10 R27). -/
theorem peakOf_nonneg (xs : List Scalar) : 0 ≤ (peakOf .real xs).eval := by
  rw [peakOf, foldl_peak_eval]
  simpa using (foldl_max_bounds xs (Scalar.rat 0).eval).1

/-- PEAK bounds every sample's absolute value (44 R126). -/
theorem peakOf_bound (xs : List Scalar) (v : Scalar) (hv : v ∈ xs) : |v.eval| ≤ (peakOf .real xs).eval := by
  rw [peakOf, foldl_peak_eval]
  exact (foldl_max_bounds xs _).2.1 v hv

/-- PEAK is 0 or some sample's absolute value (44 R126). -/
theorem peakOf_attained (xs : List Scalar) :
    (peakOf .real xs).eval = 0 ∨ ∃ v ∈ xs, |v.eval| = (peakOf .real xs).eval := by
  rw [peakOf, foldl_peak_eval]
  simpa using (foldl_max_bounds xs (Scalar.rat 0).eval).2.2

theorem normalise_eval (p v : Scalar) :
    (normalise .real p v).eval = if p.eval = 0 then v.eval else v.eval / p.eval := by
  rw [normalise, Scalar.eval_select, NumDomain.eval_div rfl]
  by_cases h : p.eval = 0
  · rw [if_pos h, if_pos ((Bit.val_eqOf .real p (.rat 0)).mpr (by simpa [NumDomain.Eq] using h))]
  · have hb : (Bit.eqOf .real p (.rat 0)).val = false := by
      rw [← Bool.not_eq_true, Bit.val_eqOf]; simpa [NumDomain.Eq] using h
    rw [if_neg h, hb]; simp

/-! The filter. -/

@[simp] theorem bpfApply_length (N : NumDomain) (c : FilterChoice) (lo hi fs : Scalar) (w : List Scalar) :
    (bpfApply N c lo hi fs w).length = w.length := by simp [bpfApply]

/-- An all-zero window gives an all-zero output (44 R129 (e)). -/
theorem bpfApply_zero (c : FilterChoice) (lo hi fs : Scalar) (w : List Scalar) (hw : ∀ v ∈ w, v.eval = 0) :
    ∀ y ∈ bpfApply .real c lo hi fs w, y.eval = 0 := by
  intro y hy
  simp only [bpfApply, List.mem_map, List.mem_range] at hy
  obtain ⟨i, -, rfl⟩ := hy
  rw [NumDomain.eval_sum rfl]
  refine List.sum_eq_zero fun r hr => ?_
  simp only [List.mem_map, List.mem_mapIdx] at hr
  obtain ⟨_, ⟨j, hj, rfl⟩, rfl⟩ := hr
  rw [NumDomain.eval_mul rfl, hw _ (List.getElem_mem hj), mul_zero]

/-! Energy and ratio. -/

theorem energy_eval (y : List Scalar) :
    (energy .real y).eval = (y.map fun v => v.eval * v.eval).sum / (y.length : ℝ) := by
  rw [energy, NumDomain.eval_div rfl, NumDomain.eval_sum rfl, Scalar.eval_ofNat, List.map_map]
  congr 2
  exact List.map_congr_left fun v _ => NumDomain.eval_mul rfl v v

/-- An energy is at least 0 (44 R130). -/
theorem energy_nonneg (y : List Scalar) : 0 ≤ (energy .real y).eval := by
  rw [energy_eval]
  refine div_nonneg (List.sum_nonneg fun r hr => ?_) (Nat.cast_nonneg _)
  obtain ⟨v, -, rfl⟩ := List.mem_map.mp hr
  exact mul_self_nonneg _

theorem energy_zero (y : List Scalar) (hy : ∀ v ∈ y, v.eval = 0) : (energy .real y).eval = 0 := by
  rw [energy_eval, List.sum_eq_zero, zero_div]
  intro r hr
  obtain ⟨v, hv, rfl⟩ := List.mem_map.mp hr
  rw [hy v hv, zero_mul]

theorem ratioOf_eval (p0 p1 eps : Scalar) :
    (ratioOf .real p0 p1 eps).eval = p1.eval / (p0.eval + p1.eval + eps.eval) := by
  simp [ratioOf, NumDomain.eval_div, NumDomain.eval_add]

/-- `0 <= RATIO < 1` (44 R131). -/
theorem ratioOf_range (p0 p1 eps : Scalar) (h0 : 0 ≤ p0.eval) (h1 : 0 ≤ p1.eval) (he : 0 < eps.eval) :
    0 ≤ (ratioOf .real p0 p1 eps).eval ∧ (ratioOf .real p0 p1 eps).eval < 1 := by
  rw [ratioOf_eval]
  have hd : 0 < p0.eval + p1.eval + eps.eval := by linarith
  exact ⟨div_nonneg h1 hd.le, (div_lt_one hd).mpr (by linarith)⟩

/-! The decision. -/

@[simp] theorem hysteresis_length (N : NumDomain) (hi lo : Scalar) (last : Bit) (rs : List Scalar) :
    (hysteresis N hi lo last rs).length = rs.length := by
  induction rs generalizing last with
  | nil => rfl
  | cons r rs ih => rw [hysteresis, List.length_cons, ih, List.length_cons]

/-- Each bit is the hysteresis decision on its ratio and the bit before it (44 R132, R133). -/
theorem hysteresis_getElem (N : NumDomain) (hi lo : Scalar) (last : Bit) (rs : List Scalar) (k : Nat)
    (h : k < (hysteresis N hi lo last rs).length) :
    (hysteresis N hi lo last rs)[k] =
      Bit.hystOf N (rs[k]'(by simpa using h)) hi lo
        (if _hk : k = 0 then last else (hysteresis N hi lo last rs)[k - 1]'(by omega)) := by
  induction rs generalizing last k with
  | nil => simp at h
  | cons r rs ih =>
    cases k with
    | zero => rfl
    | succ k =>
      have h' : k < (hysteresis N hi lo (Bit.hystOf N r hi lo last) rs).length := by simpa using h
      have e := ih (Bit.hystOf N r hi lo last) k h'
      simp only [hysteresis, List.getElem_cons_succ, Nat.add_sub_cancel]
      rw [e]
      cases k with
      | zero => rfl
      | succ k => rfl

@[simp] theorem State.robustBits_length (s : State) : s.robustBits.length = s.windowCount := by
  simp [State.robustBits]

/-! The steps of a state's command, over the reals. -/

theorem mem_rxValid (s : State) (v : Scalar) : v ∈ s.rxValid ↔ ∃ i < s.rxlen, s.rxAt i = v := by
  simp [State.rxValid]

/-- PEAK is the peak of the valid extent (44 R126). -/
theorem State.robustPeak_isPeak {s : State} (hN : s.Real) : s.IsPeak s.robustPeak.eval := by
  rw [State.robustPeak, hN]
  refine ⟨peakOf_nonneg _, fun i hi => peakOf_bound _ _ ((mem_rxValid s _).mpr ⟨i, hi, rfl⟩), ?_⟩
  rcases peakOf_attained s.rxValid with h | ⟨v, hv, h⟩
  · exact .inl h
  · obtain ⟨i, hi, rfl⟩ := (mem_rxValid s v).mp hv
    exact .inr ⟨i, hi, h⟩

/-- A buffer has one peak. -/
theorem State.isPeak_unique {s : State} {p q : ℝ} (hp : s.IsPeak p) (hq : s.IsPeak q) : p = q := by
  obtain ⟨p0, pb, pa⟩ := hp
  obtain ⟨q0, qb, qa⟩ := hq
  refine le_antisymm ?_ ?_
  · rcases pa with h | ⟨i, hi, h⟩
    · rw [h]; exact q0
    · rw [← h]; exact qb i hi
  · rcases qa with h | ⟨i, hi, h⟩
    · rw [h]; exact p0
    · rw [← h]; exact pb i hi

@[simp] theorem State.robustWindow_length (s : State) (k : Nat) : (s.robustWindow k).length = s.symbolLen := by
  simp [State.robustWindow]

theorem State.robustWindow_getElem_eval {s : State} (hN : s.Real) (k j : Nat) (h : j < (s.robustWindow k).length) :
    ((s.robustWindow k)[j]).eval = s.normalSample s.robustPeak.eval (k * s.symbolLen + j) := by
  simp [State.robustWindow, hN, normalise_eval, State.normalSample, State.rxWindow]

theorem bpfApply_getElem_eval (c : FilterChoice) (lo hi fs : Scalar) (w : List Scalar) (i : Nat)
    (h : i < (bpfApply .real c lo hi fs w).length) :
    ((bpfApply .real c lo hi fs w)[i]).eval = windowSum w fun j => (bpfWeight .real c lo hi fs w.length i j).eval := by
  simp only [bpfApply, List.getElem_map, List.getElem_range, NumDomain.eval_sum, windowSum]
  congr 1
  refine List.ext_getElem (by simp) fun j h1 h2 => ?_
  simp [NumDomain.eval_mul, mul_comm]

/-- Sample `i` of a filtered window (44 R129). -/
theorem State.filtered_getElem_eval {s : State} (hN : s.Real) (f : Scalar) (k i : Nat)
    (h : i < (bpfApply .real s.par.bpf (bandLo .real f s.bw) (bandHi .real f s.bw) s.fs (s.robustWindow k)).length) :
    ((bpfApply .real s.par.bpf (bandLo .real f s.bw) (bandHi .real f s.bw) s.fs (s.robustWindow k))[i]).eval =
      s.filteredSample s.robustPeak.eval f k i := by
  rw [bpfApply_getElem_eval, State.filteredSample,
    windowSum_eq _ _ s.symbolLen _ (s.robustWindow_length k) (State.robustWindow_getElem_eval hN k),
    State.robustWindow_length]

/-- The energy of a window is the mean square of its filtered samples (44 R130). -/
theorem State.robustEnergy_eval {s : State} (hN : s.Real) (f : Scalar) (k : Nat) :
    (s.robustEnergy f k).eval = s.bandEnergy s.robustPeak.eval f k := by
  rw [State.robustEnergy, hN, energy_eval, State.bandEnergy, bpfApply_length, State.robustWindow_length]
  congr 2
  refine List.ext_getElem (by simp) fun i h1 h2 => ?_
  have hi : i < (bpfApply .real s.par.bpf (bandLo .real f s.bw) (bandHi .real f s.bw) s.fs (s.robustWindow k)).length := by
    simpa using h1
  rw [List.getElem_map, List.getElem_map, List.getElem_range, State.filtered_getElem_eval hN f k i hi, sq]

/-- RATIO of a window (44 R131). -/
theorem State.robustRatio_eval {s : State} (hN : s.Real) (k : Nat) :
    (s.robustRatio k).eval = s.bandRatio s.robustPeak.eval k := by
  rw [State.robustRatio, hN, ratioOf_eval, State.robustEnergy_eval hN, State.robustEnergy_eval hN, State.bandRatio]

/-- The energies are at least 0 (44 R130). -/
theorem State.bandEnergy_nonneg (s : State) (p : ℝ) (f : Scalar) (k : Nat) : 0 ≤ s.bandEnergy p f k := by
  refine div_nonneg (List.sum_nonneg fun r hr => ?_) (Nat.cast_nonneg _)
  obtain ⟨i, -, rfl⟩ := List.mem_map.mp hr
  exact sq_nonneg _

/-- Bit `k` is the hysteresis decision on the ratio of window `k` and the bit before it (44 R132, R133). -/
theorem State.robustBits_getElem (s : State) (k : Nat) (h : k < s.robustBits.length) :
    s.robustBits[k] = Bit.hystOf s.par.num (s.robustRatio k) s.rhi s.rlo
      (if _hk : k = 0 then .zero else s.robustBits[k - 1]'(by omega)) := by
  refine (hysteresis_getElem s.par.num s.rhi s.rlo .zero _ k h).trans ?_
  simp [State.robustBits]

end Sys2Proof.Machine
end

