-- ==== Sys2Proof/Laws/Waveform.lean ====
section
/-! SUPPORT. The oscillator, the shaper and the modulator: lengths and what each sample denotes (40 R81 to R83,
41 R90, R91, 42 R101 to R104). -/

namespace Sys2Proof.Machine

open Sys2Proof Real

/-! The oscillator. -/

@[simp] theorem toneSamples_length (N : NumDomain) (W : PhaseWidth) (a inc : Scalar) (n : Nat) (phi : Scalar) :
    (toneSamples N W a inc n phi).length = n := by
  induction n generalizing phi with
  | zero => rfl
  | succ n ih => rw [toneSamples, List.length_cons, ih]

theorem sin_turns_fract_add (x y : ℝ) : sin (2 * π * (Int.fract x + y)) = sin (2 * π * (x + y)) := by
  have h : 2 * π * (Int.fract x + y) = 2 * π * (x + y) - (⌊x⌋ : ℝ) * (2 * π) := by rw [Int.fract]; ring
  rw [h, Real.sin_sub_int_mul_two_pi]

/-- Sample `i` of a tone, `i` increments after its first phase (40 R83). -/
theorem toneSamples_getElem_eval (a inc : Scalar) (n : Nat) (phi : Scalar) (i : Nat)
    (h : i < (toneSamples .real .exact a inc n phi).length) :
    ((toneSamples .real .exact a inc n phi)[i]).eval = a.eval * sin (2 * π * (phi.eval + i * inc.eval)) := by
  induction n generalizing phi i with
  | zero => simp at h
  | succ n ih =>
    cases i with
    | zero => simp [toneSamples, NumDomain.eval_mul, NumDomain.eval_sinTurns]
    | succ i =>
      have h' : i < (toneSamples .real .exact a inc n (Scalar.frac (Scalar.add phi inc))).length := by
        simpa using h
      have e := ih (Scalar.frac (Scalar.add phi inc)) i h'
      simp only [toneSamples, List.getElem_cons_succ]
      refine e.trans ?_
      rw [Scalar.eval_frac, Scalar.eval_add, sin_turns_fract_add]
      push_cast
      congr 3; ring

/-- What a tone's samples denote depends on what its operands denote alone (40 R84). -/
theorem toneSamples_congr (N : NumDomain) (W : PhaseWidth) {a a' inc inc' : Scalar} (ha : a.eval = a'.eval)
    (hi : inc.eval = inc'.eval) (n : Nat) {phi phi' : Scalar} (hp : phi.eval = phi'.eval) :
    (toneSamples N W a inc n phi).map Scalar.eval = (toneSamples N W a' inc' n phi').map Scalar.eval := by
  induction n generalizing phi phi' with
  | zero => rfl
  | succ n ih =>
    rw [toneSamples, toneSamples, List.map_cons, List.map_cons, N.mul_congr ha (N.sinTurns_congr hp),
      ih (W.hold_congr (N.frac_congr (N.add_congr hp hi)))]

/-- A phase held after `frac` is a fraction of a turn, over NUM_REAL or at a finite width (10 R24). -/
theorem hold_range {N : NumDomain} {W : PhaseWidth} (h : N = .real ∨ W ≠ .exact) (a : Scalar) :
    0 ≤ (W.hold (N.frac a)).eval ∧ (W.hold (N.frac a)).eval < 1 := by
  cases W with
  | exact =>
    rcases h with h | h
    · rw [PhaseWidth.hold, NumDomain.eval_frac h]
      exact ⟨Int.fract_nonneg _, Int.fract_lt_one _⟩
    · exact absurd rfl h
  | bits n => exact Scalar.eval_phase_range n _

/-- PHI stays a fraction of a turn (10 R24). -/
theorem tonePhase_range {N : NumDomain} {W : PhaseWidth} (h : N = .real ∨ W ≠ .exact) (inc : Scalar) (n : Nat)
    (phi : Scalar) (h0 : 0 ≤ phi.eval) (h1 : phi.eval < 1) :
    0 ≤ (tonePhase N W inc n phi).eval ∧ (tonePhase N W inc n phi).eval < 1 := by
  induction n generalizing phi with
  | zero => exact ⟨h0, h1⟩
  | succ n ih =>
    exact ih _ (hold_range h _).1 (hold_range h _).2

theorem startPhase_range {N : NumDomain} {W : PhaseWidth} (h : N = .real ∨ W ≠ .exact) (ph : Scalar) :
    0 ≤ (startPhase N W ph).eval ∧ (startPhase N W ph).eval < 1 := hold_range h _

@[simp] theorem State.oscSamples_length (s : State) : s.oscSamples.length = s.oscLen := toneSamples_length _ _ _ _ _ _

/-- The closed form of an oscillator sample (40 R82), which the accumulator computes. -/
theorem State.oscSamples_getElem_eval {s : State} (hx : s.Exact) (i : Nat) (h : i < s.oscSamples.length) :
    (s.oscSamples[i]).eval =
      toneAt s.ofreq.eval s.fs.eval s.oamp.eval s.ophase.eval i := by
  have hs : s.oscSamples = toneSamples .real .exact s.oamp (Scalar.div s.ofreq s.fs) s.oscLen
      (Scalar.frac (Scalar.turns s.ophase)) := by
    rw [State.oscSamples, State.oscStep, hx.1, hx.2]; rfl
  have e := toneSamples_getElem_eval s.oamp (Scalar.div s.ofreq s.fs) s.oscLen (Scalar.frac (Scalar.turns s.ophase)) i
    (by rw [← hs]; exact h)
  have hpi : (2 * π : ℝ) ≠ 0 := by positivity
  simp only [hs]
  rw [e, toneAt, Scalar.eval_frac, Scalar.eval_turns, Scalar.eval_div, sin_turns_fract_add]
  congr 2
  field_simp
  ring

/-! The shaper. -/

/-- Twice the effective taper length is at most the buffer's length (41 R90). -/
theorem taperLen_le (len n : Nat) : 2 * taperLen len n ≤ len := by
  unfold taperLen
  split <;> omega

@[simp] theorem shapeList_length (N : NumDomain) (c : WindowChoice) (n : Nat) (xs : List Scalar) :
    (shapeList N c n xs).length = xs.length := by rw [shapeList, List.length_mapIdx]

theorem shapeList_getElem (N : NumDomain) (c : WindowChoice) (n : Nat) (xs : List Scalar) (i : Nat)
    (h : i < (shapeList N c n xs).length) :
    (shapeList N c n xs)[i] =
      shapeSample N c xs.length (taperLen xs.length n) i (xs[i]'(by simpa using h)) := by
  simp [shapeList]

theorem shapeSample_eval (c : WindowChoice) (len m i : Nat) (v : Scalar) :
    (shapeSample .real c len m i v).eval = v.eval * gainAt c len m i := by
  unfold shapeSample gainAt
  split
  · rw [NumDomain.eval_mul rfl]
  · split
    · rw [NumDomain.eval_mul rfl]
    · rw [mul_one]

/-- Sample `i` of `Shape(x, n)` is `x[i] * g(i)` (41 R91). -/
theorem shapeList_getElem_eval (c : WindowChoice) (n : Nat) (xs : List Scalar) (i : Nat)
    (h : i < (shapeList .real c n xs).length) :
    ((shapeList .real c n xs)[i]).eval =
      (xs[i]'(by simpa using h)).eval * gainAt c xs.length (taperLen xs.length n) i := by
  rw [shapeList_getElem, shapeSample_eval]

/-- The Hann window's value (41 R91, 43 R111). -/
theorem hannAt_eval (i d : Nat) : (hannAt .real i d).eval = 1 / 2 - 1 / 2 * cos (2 * π * (i / d)) := by
  rw [hannAt, NumDomain.eval_sub rfl, NumDomain.eval_mul rfl, NumDomain.eval_cosTurns rfl, Scalar.eval_rat,
    Scalar.eval_ofNat, Scalar.eval_ofNat, Rat.mkRat_eq_div]
  push_cast
  rfl

/-- `0 <= g <= 1` for the Hann window (41 R91). -/
theorem hannAt_range (i d : Nat) : 0 ≤ (hannAt .real i d).eval ∧ (hannAt .real i d).eval ≤ 1 := by
  rw [hannAt_eval]
  have h1 := Real.cos_le_one (2 * π * ((i : ℝ) / d))
  have h2 := Real.neg_one_le_cos (2 * π * ((i : ℝ) / d))
  constructor <;> linarith

@[simp] theorem State.rxValid_length (s : State) : s.rxValid.length = s.rxlen := by simp [State.rxValid]

@[simp] theorem State.biValid_length (s : State) : s.biValid.length = s.bilen := by simp [State.biValid]

@[simp] theorem State.shapeSamples_length (s : State) : s.shapeSamples.length = s.rxlen := by
  simp [State.shapeSamples]

/-! The modulator. -/

theorem State.symbols_length (s : State) : s.symbols.length = s.symbolCount := by
  simp [State.symbols, syncBits, State.symbolCount, Nat.add_comm]

@[simp] theorem State.symbolSamples_length (s : State) (b : Bit) : (s.symbolSamples b).length = s.symbolLen := by
  simp [State.symbolSamples, State.symbolTone]

/-- A concatenation of pieces of one length, by piece and place in the piece. -/
theorem flatMap_getElem? {α β : Type} (f : α → List β) (n : Nat) (hf : ∀ a, (f a).length = n) (xs : List α)
    (k i : Nat) (hi : i < n) : (xs.flatMap f)[k * n + i]? = (xs[k]?).bind fun a => (f a)[i]? := by
  induction xs generalizing k with
  | nil => simp
  | cons x xs ih =>
    rw [List.flatMap_cons]
    cases k with
    | zero =>
      rw [List.getElem?_append_left (by rw [hf]; omega)]; simp
    | succ k =>
      have e : (k + 1) * n + i - (f x).length = k * n + i := by rw [hf, Nat.succ_mul]; omega
      rw [List.getElem?_append_right (by rw [hf, Nat.succ_mul]; omega), e, ih]; simp

theorem flatMap_length {α β : Type} (f : α → List β) (n : Nat) (hf : ∀ a, (f a).length = n) (xs : List α) :
    (xs.flatMap f).length = xs.length * n := by
  induction xs with
  | nil => simp
  | cons x xs ih => rw [List.flatMap_cons, List.length_append, ih, hf, List.length_cons, Nat.succ_mul, Nat.add_comm]

/-- The output has `M * L` samples (42 R104). -/
@[simp] theorem State.modSamples_length (s : State) : s.modSamples.length = s.symbolCount * s.symbolLen := by
  rw [State.modSamples, flatMap_length _ _ s.symbolSamples_length, State.symbols_length]

/-- Sample `i` of symbol `k` stands at `k*L + i` (42 R104). -/
theorem State.modSamples_getElem (s : State) (k i : Nat) (hk : k < s.symbols.length) (hi : i < s.symbolLen)
    (h : k * s.symbolLen + i < s.modSamples.length) :
    s.modSamples[k * s.symbolLen + i] = (s.symbolSamples s.symbols[k])[i]'(by simpa using hi) := by
  have e := flatMap_getElem? s.symbolSamples s.symbolLen s.symbolSamples_length s.symbols k i hi
  have hb : i < (s.symbolSamples s.symbols[k]).length := by rw [State.symbolSamples_length]; exact hi
  rw [List.getElem?_eq_getElem hk, Option.bind_some, List.getElem?_eq_getElem hb] at e
  exact Option.some.inj ((List.getElem?_eq_getElem h).symm.trans e)

/-- Sample `i` of the shaped tone of a bit (42 R102, R103). -/
theorem State.symbolSamples_getElem_eval {s : State} (hx : s.Exact) (b : Bit) (i : Nat) (h : i < (s.symbolSamples b).length) :
    ((s.symbolSamples b)[i]).eval =
      toneAt (if b.val then s.f1.eval else s.f0.eval) s.fs.eval s.amp.eval 0 i
        * gainAt s.par.taperw s.symbolLen (taperLen s.symbolLen Config.taperN) i := by
  have hs : i < s.symbolLen := by simpa using h
  have hl : (s.symbolTone b).length = s.symbolLen := toneSamples_length _ _ _ _ _ _
  have ht : s.symbolTone b = toneSamples .real .exact s.amp (Scalar.div (Scalar.select b s.f1 s.f0) s.fs) s.symbolLen
      (.rat 0) := by
    rw [State.symbolTone, State.toneStep, hx.1, hx.2]; rfl
  have hy : s.symbolSamples b = shapeList .real s.par.taperw Config.taperN (s.symbolTone b) := by
    rw [State.symbolSamples, hx.1]
  have hg : gainAt s.par.taperw (s.symbolTone b).length (taperLen (s.symbolTone b).length Config.taperN) i =
      gainAt s.par.taperw s.symbolLen (taperLen s.symbolLen Config.taperN) i := by rw [hl]
  simp only [hy]
  refine (shapeList_getElem_eval s.par.taperw Config.taperN (s.symbolTone b) i (by rw [← hy]; exact h)).trans ?_
  rw [hg]
  congr 1
  have e2 := toneSamples_getElem_eval s.amp (Scalar.div (Scalar.select b s.f1 s.f0) s.fs) s.symbolLen (.rat 0) i
    (by simpa using hs)
  simp only [ht]
  refine e2.trans ?_
  rw [toneAt, Scalar.eval_div, Scalar.eval_select, Scalar.eval_rat]
  congr 2
  push_cast; ring

/-- The first eight symbols are the bits of SYNC, bit 7 first (42 R101). -/
theorem State.symbols_sync (s : State) (k : Nat) (hk : k < 8) :
    s.symbols[k]? = some (Bit.ofBool (decide (k % 2 = 0))) := by
  have e : syncBits = [.one, .zero, .one, .zero, .one, .zero, .one, .zero] := by decide
  rw [State.symbols, e]
  interval_cases k <;> rfl

/-- The payload's bits follow in index order (42 R101). -/
theorem State.symbols_payload (s : State) (k : Nat) (hk : k < s.bilen) :
    s.symbols[k + 8]? = some (s.biAt k) := by
  have hl : syncBits.length = 8 := rfl
  rw [State.symbols, List.getElem?_append_right (by omega), hl, Nat.add_sub_cancel]
  simp [State.biValid, hk]

/-- Symbol `k` denotes the bit of 42 R101. -/
theorem State.symbols_val (s : State) (k : Nat) (hk : k < s.symbols.length) :
    (s.symbols[k]).val = s.symbolBit k := by
  rw [State.symbols_length, State.symbolCount] at hk
  unfold State.symbolBit
  split
  · rename_i h8
    have e := s.symbols_sync k h8
    rw [List.getElem?_eq_getElem (by rw [State.symbols_length, State.symbolCount]; omega)] at e
    rw [Option.some.inj e, Bit.val_ofBool]
  · rename_i h8
    have e := s.symbols_payload (k - 8) (by omega)
    rw [List.getElem?_eq_getElem (by rw [State.symbols_length, State.symbolCount]; omega)] at e
    have e2 := Option.some.inj e
    simp only [show k - 8 + 8 = k by omega] at e2
    rw [e2]

end Sys2Proof.Machine
end

