-- ==== Sys2Proof/Laws/Commands.lean ====
section
/-! SUPPORT. What a command can do, said once: its checks, its rejection, its effect, and what each effect leaves. -/

namespace Sys2Proof.Machine

open Sys2Proof

/-- The checks of a command, in order (60 R164). -/
def checksOf : Instr → State → List (Bool × Cause)
  | .osc, s => s.oscChecks
  | .shape, s => s.shapeChecks
  | .mod, s => s.modChecks
  | .demodb, s => s.basicChecks
  | .demodr, s => s.robustChecks

/-- The effect of a command that passed its checks. -/
def effectOf : Instr → State → State
  | .osc, s => s.oscEffect
  | .shape, s => s.shapeEffect
  | .mod, s => s.modEffect
  | .demodb, s => s.basicEffect
  | .demodr, s => s.robustEffect

/-- Every command is its checks and then its effect (60 R155). -/
theorem exec_eq (i : Instr) (s : State) : exec i s = s.runChecked (checksOf i s) (effectOf i) := by
  cases i <;> rfl

theorem State.runChecked_pass {s : State} {cs : List (Bool × Cause)} {f : State → State}
    (h : firstFailing cs = none) : s.runChecked cs f = .next (f s).complete := by
  simp [State.runChecked, h]

theorem State.runChecked_fail {s : State} {cs : List (Bool × Cause)} {f : State → State} {c : Cause}
    (h : firstFailing cs = some c) : s.runChecked cs f = .next (s.takeFault c) := by
  simp [State.runChecked, h]

theorem firstFailing_cons_true (c : Cause) (cs : List (Bool × Cause)) : firstFailing ((true, c) :: cs) = some c := rfl

theorem firstFailing_cons_false (c : Cause) (cs : List (Bool × Cause)) :
    firstFailing ((false, c) :: cs) = firstFailing cs := rfl

/-- No check fails exactly when every check holds. -/
theorem firstFailing_none_iff (cs : List (Bool × Cause)) : firstFailing cs = none ↔ ∀ x ∈ cs, x.1 = false := by
  induction cs with
  | nil => simp [firstFailing]
  | cons x cs ih =>
    obtain ⟨b, c⟩ := x
    cases b <;> simp [firstFailing, ih]

/-- A failing check's cause stands in the list. -/
theorem firstFailing_mem {cs : List (Bool × Cause)} {c : Cause} (h : firstFailing cs = some c) : (true, c) ∈ cs := by
  induction cs with
  | nil => simp [firstFailing] at h
  | cons x cs ih =>
    obtain ⟨b, d⟩ := x
    cases b
    · exact List.mem_cons_of_mem _ (ih h)
    · cases h; exact List.mem_cons_self

/-- What a command can do (60 R155, R165): it is rejected with the cause of its first failing check, or it has its
effect and completes. -/
theorem exec_cases {i : Instr} {s t : State} (h : exec i s = .next t) :
    (∃ c, firstFailing (checksOf i s) = some c ∧ t = s.takeFault c) ∨
      (firstFailing (checksOf i s) = none ∧ t = (effectOf i s).complete) := by
  rw [exec_eq] at h
  cases hc : firstFailing (checksOf i s) with
  | some c => rw [State.runChecked_fail hc] at h; cases h; exact .inl ⟨c, rfl, rfl⟩
  | none => rw [State.runChecked_pass hc] at h; cases h; exact .inr ⟨rfl, rfl⟩

/-- A command always answers a next state (60 R155). -/
theorem exec_answers (i : Instr) (s : State) : ∃ t, exec i s = .next t := by
  rw [exec_eq]
  cases hc : firstFailing (checksOf i s) with
  | some c => exact ⟨_, State.runChecked_fail hc⟩
  | none => exact ⟨_, State.runChecked_pass hc⟩

/-- Every cause a command's checks can give (60 R156). -/
theorem checksOf_codes (i : Instr) (s : State) :
    ∀ x ∈ checksOf i s, 1 ≤ (causeCode x.2).toNat ∧ (causeCode x.2).toNat ≤ 6 := by
  cases i <;>
    simp only [checksOf, State.oscChecks, State.shapeChecks, State.modChecks, State.basicChecks, State.robustChecks,
      List.forall_mem_cons, List.not_mem_nil, false_imp_iff, implies_true, and_true] <;>
    decide

theorem checksOf_cause {i : Instr} {s : State} {c : Cause} (h : firstFailing (checksOf i s) = some c) :
    1 ≤ (causeCode c).toNat ∧ (causeCode c).toNat ≤ 6 := checksOf_codes i s _ (firstFailing_mem h)

/-! A command's effect writes its output memory and length, and the internal registers. -/

/-- The output samples of a command that writes TX. -/
theorem effectOf_osc (s : State) : effectOf .osc s = (s.putTx s.oscSamples).putDp s.oscDp := rfl

theorem effectOf_shape (s : State) : effectOf .shape s = (s.putTx s.shapeSamples).putDp s.shapeDp := rfl

theorem effectOf_mod (s : State) : effectOf .mod s = (s.putTx s.modSamples).putDp s.modDp := rfl

theorem effectOf_demodb (s : State) : effectOf .demodb s = (s.putBo s.basicBits).putDp s.basicDp := rfl

theorem effectOf_demodr (s : State) : effectOf .demodr s = (s.putBo s.robustBits).putDp s.robustDp := rfl

/-- TX after a completed command that writes it. -/
theorem State.txAt_completed (s : State) (xs : List Scalar) (d : Datapath) {i : Nat} (h : i < xs.length) :
    ((s.putTx xs).putDp d).complete.txAt i = xs[i] := State.txAt_putTx s xs h

/-- BO after a completed command that writes it. -/
theorem State.boAt_completed (s : State) (bs : List Bit) (d : Datapath) {i : Nat} (h : i < bs.length) :
    ((s.putBo bs).putDp d).complete.boAt i = bs[i] := State.boAt_putBo s bs h

/-- PHI after OSC is a fraction of a turn (10 R24). -/
theorem State.oscDp_phi_range {s : State} (h : s.par.num = .real ∨ s.par.phw ≠ .exact) :
    0 ≤ s.oscDp.phi.eval ∧ s.oscDp.phi.eval < 1 := by
  have hp := startPhase_range h s.ophase
  exact tonePhase_range h _ _ _ hp.1 hp.2

/-- PHI after MOD is a fraction of a turn (10 R24). -/
theorem State.modDp_phi_range {s : State} (h : s.par.num = .real ∨ s.par.phw ≠ .exact) :
    0 ≤ s.modDp.phi.eval ∧ s.modDp.phi.eval < 1 := tonePhase_range h _ _ _ (by simp) (by simp)

@[simp] theorem State.shapeDp_phi (s : State) : s.shapeDp.phi = s.dp.phi := rfl

@[simp] theorem State.basicDp_phi (s : State) : s.basicDp.phi = s.dp.phi := by
  unfold State.basicDp; split <;> rfl

@[simp] theorem State.robustDp_phi (s : State) : s.robustDp.phi = s.dp.phi := by
  unfold State.robustDp; split <;> rfl

end Sys2Proof.Machine
end

