-- ==== Sys2Proof/Laws/Checks.lean ====
section
/-! SUPPORT. Each check is the spec's condition on what the registers denote, in the number domain of the instance, and
over NUM_REAL the condition over the reals (60 R157 to R162, 00 R9). -/

namespace Sys2Proof.Machine

open Sys2Proof

/-! In every number domain. -/

theorem State.rateBad_iff (s : State) : s.rateBad = true ↔ ¬ s.par.num.Lt 0 s.fs.eval := by
  rw [State.rateBad, NumDomain.leb_iff]; simp

theorem State.durationBad_iff (s : State) : s.durationBad = true ↔ s.par.num.Lt s.odur.eval 0 := by
  rw [State.durationBad, NumDomain.ltb_iff]; simp

theorem State.oscFloor_eq (s : State) : s.oscFloor = s.par.num.floorOf (s.par.num.mul s.fs s.odur).eval :=
  NumDomain.floor_eq _ _

theorem State.symbolFloor_eq (s : State) :
    s.symbolFloor = s.par.num.floorOf (s.par.num.mul s.symdur s.fs).eval := NumDomain.floor_eq _ _

theorem State.windowBad_iff (s : State) : s.windowBad = true ↔ s.symbolFloor < 1 := by
  rw [State.windowBad, decide_eq_true_iff]; rfl

theorem State.freqBad_iff (s : State) : s.freqBad = true ↔ s.par.num.Eq s.f0.eval s.f1.eval ∨
    ¬ s.par.num.Lt s.f0.eval s.nyquist.eval ∨ ¬ s.par.num.Lt s.f1.eval s.nyquist.eval := by
  rw [State.freqBad, Bool.or_eq_true, Bool.or_eq_true, NumDomain.eqb_iff, NumDomain.leb_iff, NumDomain.leb_iff,
    or_assoc]

theorem State.ratioBad_iff (s : State) : s.ratioBad = true ↔ ¬ s.par.num.Lt s.rlo.eval s.rhi.eval := by
  rw [State.ratioBad, Bool.not_eq_true', ← Bool.not_eq_true, NumDomain.ltb_iff]

theorem State.bandBadAt_iff (s : State) (f : Scalar) : s.bandBadAt f = true ↔
    ¬ s.par.num.Lt (bandLo s.par.num f s.bw).eval (bandHi s.par.num f s.bw).eval ∨
      ¬ s.par.num.Lt (bandHi s.par.num f s.bw).eval s.nyquist.eval := by
  rw [State.bandBadAt, Bool.or_eq_true, Bool.not_eq_true', Bool.not_eq_true', ← Bool.not_eq_true, ← Bool.not_eq_true,
    NumDomain.ltb_iff, NumDomain.ltb_iff]

/-- Where no window check fails a symbol has at least one sample (60 R157). -/
theorem State.one_le_symbolLen {s : State} (h : s.windowBad = false) : 1 ≤ s.symbolLen := by
  have hw : ¬ s.symbolFloor < 1 := fun hc => by simp [s.windowBad_iff.mpr hc] at h
  rw [State.symbolLen]; omega

/-! Over NUM_REAL. -/

theorem State.rateBad_real {s : State} (hN : s.Real) : s.rateBad = true ↔ s.fs.eval ≤ 0 := by
  rw [State.rateBad_iff, hN]; exact not_lt

theorem State.durationBad_real {s : State} (hN : s.Real) : s.durationBad = true ↔ s.odur.eval < 0 := by
  rw [State.durationBad_iff, hN]; rfl

theorem State.oscFloor_real {s : State} (hN : s.Real) : s.oscFloor = ⌊s.fs.eval * s.odur.eval⌋ := by
  rw [State.oscFloor_eq, NumDomain.eval_mul hN, hN]; rfl

theorem State.symbolFloor_real {s : State} (hN : s.Real) : s.symbolFloor = ⌊s.symdur.eval * s.fs.eval⌋ := by
  rw [State.symbolFloor_eq, NumDomain.eval_mul hN, hN]; rfl

theorem State.windowBad_real {s : State} (hN : s.Real) :
    s.windowBad = true ↔ ⌊s.symdur.eval * s.fs.eval⌋ < 1 := by
  rw [State.windowBad_iff, State.symbolFloor_real hN]

theorem State.nyquist_real {s : State} (hN : s.Real) : s.nyquist.eval = s.fs.eval / 2 := by
  rw [State.nyquist, NumDomain.eval_div hN]; simp [Rat.mkRat_eq_div]

theorem State.freqBad_real {s : State} (hN : s.Real) :
    s.freqBad = true ↔ s.f0.eval = s.f1.eval ∨ s.fs.eval / 2 ≤ s.f0.eval ∨ s.fs.eval / 2 ≤ s.f1.eval := by
  rw [State.freqBad_iff, State.nyquist_real hN, hN]
  simp only [NumDomain.Lt, NumDomain.Eq, not_lt]

theorem State.ratioBad_real {s : State} (hN : s.Real) : s.ratioBad = true ↔ ¬ s.rlo.eval < s.rhi.eval := by
  rw [State.ratioBad_iff, hN]; rfl

theorem bandLo_real {N : NumDomain} (hN : N = .real) (f bw : Scalar) :
    (bandLo N f bw).eval = max 50 (f.eval - bw.eval) := by
  rw [bandLo, NumDomain.eval_max hN, NumDomain.eval_sub hN]; simp [Config.floorHz, Rat.mkRat_eq_div]

theorem bandHi_real {N : NumDomain} (hN : N = .real) (f bw : Scalar) : (bandHi N f bw).eval = f.eval + bw.eval :=
  NumDomain.eval_add hN _ _

theorem State.bandBadAt_real {s : State} (hN : s.Real) (f : Scalar) :
    s.bandBadAt f = true ↔ ¬ max 50 (f.eval - s.bw.eval) < f.eval + s.bw.eval ∨
      ¬ f.eval + s.bw.eval < s.fs.eval / 2 := by
  rw [State.bandBadAt_iff, State.nyquist_real hN, bandLo_real hN, bandHi_real hN, hN]
  simp only [NumDomain.Lt]

/-- The symbol length is the floor over the reals (10 R18). -/
theorem State.symbolLen_real {s : State} (hN : s.Real) (h : s.windowBad = false) :
    (s.symbolLen : Int) = ⌊s.symdur.eval * s.fs.eval⌋ := by
  have := State.one_le_symbolLen h
  rw [← State.symbolFloor_real hN]
  rw [State.symbolLen] at *; omega

end Sys2Proof.Machine
end

