-- ==== Sys2Proof/Laws/Transactions.lean ====
section
/-! SUPPORT. What each host transaction can do, said once (30 R66), and what the register and element writes leave. -/

namespace Sys2Proof.Machine

open Sys2Proof

/-! A register write leaves every other kind of state as it was. -/

@[simp] theorem State.setReg_par (s : State) (r : Reg) (v : Value) : (s.setReg r v).par = s.par := by
  cases r <;> cases v <;> rfl
@[simp] theorem State.setReg_cmd (s : State) (r : Reg) (v : Value) : (s.setReg r v).cmd = s.cmd := by
  cases r <;> cases v <;> rfl
@[simp] theorem State.setReg_status (s : State) (r : Reg) (v : Value) : (s.setReg r v).status = s.status := by
  cases r <;> cases v <;> rfl
@[simp] theorem State.setReg_cause (s : State) (r : Reg) (v : Value) : (s.setReg r v).cause = s.cause := by
  cases r <;> cases v <;> rfl
@[simp] theorem State.setReg_txlen (s : State) (r : Reg) (v : Value) : (s.setReg r v).txlen = s.txlen := by
  cases r <;> cases v <;> rfl
@[simp] theorem State.setReg_bolen (s : State) (r : Reg) (v : Value) : (s.setReg r v).bolen = s.bolen := by
  cases r <;> cases v <;> rfl
@[simp] theorem State.setReg_tx (s : State) (r : Reg) (v : Value) : (s.setReg r v).tx = s.tx := by
  cases r <;> cases v <;> rfl
@[simp] theorem State.setReg_rx (s : State) (r : Reg) (v : Value) : (s.setReg r v).rx = s.rx := by
  cases r <;> cases v <;> rfl
@[simp] theorem State.setReg_bi (s : State) (r : Reg) (v : Value) : (s.setReg r v).bi = s.bi := by
  cases r <;> cases v <;> rfl
@[simp] theorem State.setReg_bo (s : State) (r : Reg) (v : Value) : (s.setReg r v).bo = s.bo := by
  cases r <;> cases v <;> rfl
@[simp] theorem State.setReg_dp (s : State) (r : Reg) (v : Value) : (s.setReg r v).dp = s.dp := by
  cases r <;> cases v <;> rfl
@[simp] theorem State.setReg_script (s : State) (r : Reg) (v : Value) : (s.setReg r v).script = s.script := by
  cases r <;> cases v <;> rfl
@[simp] theorem State.setReg_returned (s : State) (r : Reg) (v : Value) : (s.setReg r v).returned = s.returned := by
  cases r <;> cases v <;> rfl

/-- A write to a register the host may not write changes nothing (10 R31). -/
theorem State.setReg_readOnly (s : State) (r : Reg) (v : Value) (h : regWritable r = false) : s.setReg r v = s := by
  cases r <;> first | rfl | simp [regWritable] at h

/-- A written register reads as the value written. -/
theorem State.readReg_setReg_same (s : State) (r : Reg) (v : Value) (hc : r ≠ .cmd) (hw : regWritable r = true)
    (hk : v.kind = some (regKind r)) : (s.setReg r v).readReg r = v := by
  cases r <;> first | exact absurd rfl hc | exact absurd hw (by decide) | (cases v <;> first | rfl | cases hk)

/-- Every other register reads as before. -/
theorem State.readReg_setReg_other (s : State) (r q : Reg) (v : Value) (h : q ≠ r) :
    (s.setReg r v).readReg q = s.readReg q := by
  cases r <;> cases v <;> first | rfl | (cases q <;> first | rfl | exact absurd rfl h)

/-- RXLEN and BILEN after a register write: the value written, within the bound, or as before. -/
theorem State.setReg_lengths (s : State) (r : Reg) (v : Value) (h : lengthWithin s r v = true) :
    ((s.setReg r v).rxlen = s.rxlen ∨ (s.setReg r v).rxlen ≤ s.par.rxcap) ∧
      ((s.setReg r v).bilen = s.bilen ∨ (s.setReg r v).bilen ≤ s.par.bicap) := by
  cases r <;> cases v <;> first
    | exact ⟨.inl rfl, .inl rfl⟩
    | exact ⟨.inr (of_decide_eq_true h), .inl rfl⟩
    | exact ⟨.inl rfl, .inr (of_decide_eq_true h)⟩

/-! An element write leaves everything but RX and BI as it was (20 R41). -/

/-- What an element write does: nothing, or one write of RX or of BI. -/
theorem State.setElement_cases (s : State) (m : MemId) (i : Nat) (v : Value) :
    s.setElement m i v = s ∨
      (∃ x, m = .rx ∧ v = .scalar x ∧
        s.setElement m i v = { s with rx := s.rx.write (scalarDefault .rx) i x }) ∨
      (∃ b, m = .bi ∧ v = .bit b ∧
        s.setElement m i v = { s with bi := s.bi.write (bitDefault .bi) i b }) := by
  cases m <;> cases v <;> first
    | exact .inl rfl
    | exact .inr (.inl ⟨_, rfl, rfl, rfl⟩)
    | exact .inr (.inr ⟨_, rfl, rfl, rfl⟩)

/-- A host store to TX or BO changes nothing (20 R41). -/
theorem State.setElement_output (s : State) (m : MemId) (i : Nat) (v : Value) (h : m = .tx ∨ m = .bo) :
    s.setElement m i v = s := by
  rcases h with rfl | rfl <;> cases v <;> rfl

/-! The transactions. -/

/-- What a write of CMD can do (10 R16, 30 R63). -/
theorem runCommand_cases {b : Byte} {s t : State} (h : runCommand b s = .next t) :
    (∃ i, decode b = .ok i ∧ exec i (s.storeCmd b) = .next t) ∨
      ((∃ e, decode b = .error e) ∧ t = (s.storeCmd b).takeFault .illegalCmd) := by
  unfold runCommand at h
  split at h
  · rename_i i hi; exact .inl ⟨i, hi, h⟩
  · rename_i e he; cases h; exact .inr ⟨⟨e, he⟩, rfl⟩

/-- What a register write can do (10 R11, R16, R31). -/
theorem hostWrite_cases {r : Byte} {v : Value} {s t : State} (h : hostWrite r v s = .next t) :
    (regOfNumber r = none ∧ t = s) ∨
      (∃ b, regOfNumber r = some .cmd ∧ v = .byte b ∧ runCommand b s = .next t) ∨
      (∃ reg, regOfNumber r = some reg ∧ lengthWithin s reg v = true ∧ t = s.setReg reg v) := by
  unfold hostWrite at h
  split at h
  · rename_i hr; cases h; exact .inl ⟨hr, rfl⟩
  · rename_i b hr; exact .inr (.inl ⟨b, hr, rfl, h⟩)
  · rename_i n hr
    unfold writeLength at h
    split at h
    · cases h
    · rename_i hn; cases h
      exact .inr (.inr ⟨_, hr, decide_eq_true (not_lt.mp hn), rfl⟩)
  · rename_i n hr
    unfold writeLength at h
    split at h
    · cases h
    · rename_i hn; cases h
      exact .inr (.inr ⟨_, hr, decide_eq_true (not_lt.mp hn), rfl⟩)
  · rename_i v reg hr h1 h2 h3
    cases h
    refine .inr (.inr ⟨reg, hr, ?_, rfl⟩)
    unfold lengthWithin
    split
    · rename_i n; exact (h2 n rfl rfl).elim
    · rename_i n; exact (h3 n rfl rfl).elim
    · rfl

/-- A register read appends one value and changes nothing else (20 R45). -/
theorem hostRead_eq (r : Byte) (s : State) : ∃ v, hostRead r s = s.answer v := by
  unfold hostRead; split <;> exact ⟨_, rfl⟩

/-- What an element write can do (20 R41, 93 U4). -/
theorem hostStore_cases {m : MemId} {i : Nat} {v : Value} {s t : State} (h : hostStore m i v s = .next t) :
    i < s.capacity m ∧ t = s.setElement m i v := by
  unfold hostStore at h
  split at h
  · rename_i hi; cases h; exact ⟨hi, rfl⟩
  · cases h

/-- What an element read can do (20 R41, R42, 93 U4). -/
theorem hostLoad_cases {m : MemId} {i : Nat} {s t : State} (h : hostLoad m i s = .next t) :
    i < s.capacity m ∧ ∃ v, t = s.answer v := by
  unfold hostLoad at h
  split at h
  · rename_i hi; cases h; exact ⟨hi, _, rfl⟩
  · cases h

/-- What a transaction can do (30 R66). -/
theorem transact_cases {x : Txn} {s t : State} (h : transact x s = .next t) :
    x.wf = true ∧
      ((∃ r v, x = .wr r v ∧ hostWrite r v s = .next t) ∨ (∃ v, t = s.answer v) ∨
        ∃ m i v, x = .st m i v ∧ i < s.capacity m ∧ t = s.setElement m i v) := by
  unfold transact at h
  split at h
  · rename_i hw
    refine ⟨hw, ?_⟩
    split at h
    · exact .inl ⟨_, _, rfl, h⟩
    · cases h
      obtain ⟨v, hv⟩ := hostRead_eq _ s
      exact .inr (.inl ⟨v, hv⟩)
    · exact .inr (.inr ⟨_, _, _, rfl, hostStore_cases h⟩)
    · exact .inr (.inl (hostLoad_cases h).2)
  · cases h

/-- What a step can do: nothing, or the first transaction of the script. -/
theorem step_cases {s t : State} (h : step s = .next t) :
    (s.script = [] ∧ t = s) ∨ ∃ x xs, s.script = x :: xs ∧ transact x (s.putScript xs) = .next t := by
  unfold step stepState at h
  split at h
  · rename_i hs; cases h; exact .inl ⟨hs, rfl⟩
  · rename_i x xs hs; exact .inr ⟨x, xs, hs, h⟩

end Sys2Proof.Machine
end

