-- ==== Sys2Proof/Laws/Agree.lean ====
section
/-! SUPPORT. Two states that agree on what a command reads give it the same checks and the same output (10 R32). -/

namespace Sys2Proof.Machine

open Sys2Proof

theorem list_range_map_congr {α : Type} {n : Nat} {f g : Nat → α} (h : ∀ i < n, f i = g i) :
    (List.range n).map f = (List.range n).map g :=
  List.map_congr_left fun i hi => h i (List.mem_range.mp hi)

/-- A window below the number of whole windows lies within the valid extent (43 R110). -/
theorem window_index_lt {n len k i : Nat} (hk : k < n / len) (hi : i < len) : k * len + i < n := by
  have h1 : (k + 1) * len ≤ n / len * len := Nat.mul_le_mul_right len hk
  have h2 := Nat.div_mul_le_self n len
  have h3 : (k + 1) * len = k * len + len := Nat.succ_mul k len
  omega

theorem rxWindow_agree {s t : State} {len k : Nat} (hl : s.rxlen = t.rxlen)
    (h : ∀ i < s.rxlen, s.rxAt i = t.rxAt i) (hk : k < t.rxlen / len) : s.rxWindow len k = t.rxWindow len k :=
  list_range_map_congr fun i hi => h _ (by rw [hl]; exact window_index_lt hk hi)

theorem rxValid_agree {s t : State} (hl : s.rxlen = t.rxlen) (h : ∀ i < s.rxlen, s.rxAt i = t.rxAt i) :
    s.rxValid = t.rxValid := by
  unfold State.rxValid; rw [← hl]; exact list_range_map_congr h

/-- Equal SYMDUR, FS give the same symbol length and window check. -/
theorem symbol_agree {s t : State} (hp : s.par = t.par) (h3 : s.symdur = t.symdur) (h4 : s.fs = t.fs) :
    s.symbolLen = t.symbolLen ∧ s.windowBad = t.windowBad := by
  have hf : s.symbolFloor = t.symbolFloor := by rw [State.symbolFloor, State.symbolFloor, h3, h4, hp]
  exact ⟨by rw [State.symbolLen, State.symbolLen, hf], by rw [State.windowBad, State.windowBad, hf]⟩

/-- Equal F0, F1, FS give the same rate and frequency checks. -/
theorem freq_agree {s t : State} (hp : s.par = t.par) (h1 : s.f0 = t.f0) (h2 : s.f1 = t.f1) (h4 : s.fs = t.fs) :
    s.rateBad = t.rateBad ∧ s.freqBad = t.freqBad := by
  have hn : s.nyquist = t.nyquist := by rw [State.nyquist, State.nyquist, h4, hp]
  exact ⟨by rw [State.rateBad, State.rateBad, h4, hp], by rw [State.freqBad, State.freqBad, h1, h2, hn, hp]⟩

/-- Agreement gives the same checks. -/
theorem checksOf_agree {i : Instr} {s t : State} (h : s.AgreeOn t i) : checksOf i s = checksOf i t := by
  cases i with
  | osc =>
    obtain ⟨hp, h1, h2, h3, h4, h5⟩ := h
    have ha : s.rateBad = t.rateBad := by rw [State.rateBad, State.rateBad, h1, hp]
    have hb : s.durationBad = t.durationBad := by rw [State.durationBad, State.durationBad, h3, hp]
    have hc : s.oscFloor = t.oscFloor := by rw [State.oscFloor, State.oscFloor, h1, h3, hp]
    rw [checksOf, checksOf, State.oscChecks, State.oscChecks, ha, hb, hc, hp]
  | shape =>
    obtain ⟨hp, h1, h2, h3⟩ := h
    rw [checksOf, checksOf, State.shapeChecks, State.shapeChecks, hp, h2]
  | mod =>
    obtain ⟨hp, h1, h2, h3, h4, h5, h6, -⟩ := h
    have hm : s.symbolCount = t.symbolCount := by rw [State.symbolCount, State.symbolCount, h6]
    rw [checksOf, checksOf, State.modChecks, State.modChecks, (freq_agree hp h1 h2 h4).1, (freq_agree hp h1 h2 h4).2,
      (symbol_agree hp h3 h4).2, (symbol_agree hp h3 h4).1, hm, hp]
  | demodb =>
    obtain ⟨hp, h1, h2, h3, h4, h5, -⟩ := h
    have hw : s.windowCount = t.windowCount := by
      rw [State.windowCount, State.windowCount, h5, (symbol_agree hp h3 h4).1]
    rw [checksOf, checksOf, State.basicChecks, State.basicChecks, (freq_agree hp h1 h2 h4).1, (freq_agree hp h1 h2 h4).2,
      (symbol_agree hp h3 h4).2, hw, hp]
  | demodr =>
    obtain ⟨hp, h1, h2, h3, h4, h5, h6, h7, h8, -⟩ := h
    have hw : s.windowCount = t.windowCount := by
      rw [State.windowCount, State.windowCount, h8, (symbol_agree hp h3 h4).1]
    have hn : s.nyquist = t.nyquist := by rw [State.nyquist, State.nyquist, h4, hp]
    have hr : s.ratioBad = t.ratioBad := by rw [State.ratioBad, State.ratioBad, h6, h7, hp]
    have hb : s.bandBad = t.bandBad := by
      rw [State.bandBad, State.bandBad, State.bandBadAt, State.bandBadAt, State.bandBadAt, State.bandBadAt, h1, h2, h5,
        hn, hp]
    rw [checksOf, checksOf, State.robustChecks, State.robustChecks, (freq_agree hp h1 h2 h4).1,
      (freq_agree hp h1 h2 h4).2, (symbol_agree hp h3 h4).2, hr, hb, hw, hp]

theorem oscSamples_agree {s t : State} (h : s.AgreeOn t .osc) : s.oscSamples = t.oscSamples := by
  obtain ⟨hp, h1, h2, h3, h4, h5⟩ := h
  simp only [State.oscSamples, State.oscStep, State.oscLen, State.oscFloor, *]

theorem shapeSamples_agree {s t : State} (h : s.AgreeOn t .shape) : s.shapeSamples = t.shapeSamples := by
  obtain ⟨hp, h1, h2, h3⟩ := h
  simp only [State.shapeSamples, rxValid_agree h2 h3, hp, h1]

theorem modSamples_agree {s t : State} (h : s.AgreeOn t .mod) : s.modSamples = t.modSamples := by
  obtain ⟨hp, h1, h2, h3, h4, h5, h6, h7⟩ := h
  have hb : s.symbols = t.symbols := by
    unfold State.symbols State.biValid; rw [← h6]; rw [list_range_map_congr h7]
  have hf : s.symbolSamples = t.symbolSamples := by
    funext b
    simp only [State.symbolSamples, State.symbolTone, State.toneStep, State.symbolLen, State.symbolFloor, *]
  rw [State.modSamples, State.modSamples, hb, hf]

theorem basicBits_agree {s t : State} (h : s.AgreeOn t .demodb) : s.basicBits = t.basicBits := by
  obtain ⟨hp, h1, h2, h3, h4, h5, h6⟩ := h
  have hl : s.symbolLen = t.symbolLen := by simp only [State.symbolLen, State.symbolFloor, h3, h4, hp]
  have hc : s.windowCount = t.windowCount := by rw [State.windowCount, State.windowCount, h5, hl]
  unfold State.basicBits
  rw [hc]
  refine list_range_map_congr fun k hk => ?_
  have hw : s.basicWindow k = t.basicWindow k := by
    rw [State.basicWindow, State.basicWindow, hp, hl, rxWindow_agree h5 h6 hk]
  simp only [State.basicBit, State.basicP0, State.basicP1, State.basicGs0, State.basicGs1, hw, h1, h2, h4, hp]

theorem robustBits_agree {s t : State} (h : s.AgreeOn t .demodr) : s.robustBits = t.robustBits := by
  obtain ⟨hp, h1, h2, h3, h4, h5, h6, h7, h8, h9⟩ := h
  have hl : s.symbolLen = t.symbolLen := by simp only [State.symbolLen, State.symbolFloor, h3, h4, hp]
  have hc : s.windowCount = t.windowCount := by rw [State.windowCount, State.windowCount, h8, hl]
  have hpk : s.robustPeak = t.robustPeak := by rw [State.robustPeak, State.robustPeak, rxValid_agree h8 h9, hp]
  unfold State.robustBits
  rw [hc, h6, h7, hp]
  congr 1
  refine list_range_map_congr fun k hk => ?_
  have hw : s.robustWindow k = t.robustWindow k := by
    rw [State.robustWindow, State.robustWindow, hl, hpk, hp, rxWindow_agree h8 h9 hk]
  simp only [State.robustRatio, State.robustEnergy, hw, hp, h1, h2, h4, h5]

end Sys2Proof.Machine
end

