-- ==== Sys2Proof/Laws/PerInstr.lean ====
section
/-! SUPPORT. Statements made per instruction (30 R60, R61). -/

namespace Sys2Proof.Laws.Encoding

open Sys2Proof

/-- A command is well formed, its Byte has RSV = 0 and its operation code in OP, and the decoder reads it back. -/
def Statement (i : Instr) : Prop :=
  i.wf = true ∧ rsvField (encode i) = 0 ∧ opField (encode i) = opCode i ∧
    decodeTableWord 8 (encode i).toNat = some i

theorem osc : Statement .osc := by unfold Statement; decide

theorem shape : Statement .shape := by unfold Statement; decide

theorem mod : Statement .mod := by unfold Statement; decide

theorem demodb : Statement .demodb := by unfold Statement; decide

theorem demodr : Statement .demodr := by unfold Statement; decide

end Sys2Proof.Laws.Encoding
end

