-- ==== Sys2Proof/Tests/Slice0.lean ====
section
/-! SUPPORT. The model's own tests: command words written out from 30 R60, the spec's vectors (95), an ill-formed term
for each check of WellFormed, and a witness for the hypotheses of each statement. -/

namespace Sys2Proof.Tests

open Sys2Proof Sys2Proof.Machine

/-! ## Helpers -/

/-- The next state, if there is one. -/
def after (o : Host.Outcome State Fault Refusal) : Option State :=
  match o with
  | .next t => some t
  | _ => none

/-- STATUS and CAUSE after a command. -/
def flagsAfter (i : Instr) (s : State) : Option (Byte × Byte) := (after (exec i s)).map fun t => (t.status, t.cause)

/-- The valid samples of TX after a command. -/
def txAfter (i : Instr) (s : State) : Option (List Scalar) :=
  (after (exec i s)).map fun t => (List.range t.txlen).map t.txAt

/-- The valid bits of BO after a command. -/
def boAfter (i : Instr) (s : State) : Option (List Bit) :=
  (after (exec i s)).map fun t => (List.range t.bolen).map t.boAt

/-- A rational numeral. -/
def num (p : Int) (q : Nat) : Scalar := .rat (mkRat p q)

/-- The instance of the tests. -/
def tiny : Params := { Params.default with txcap := 40, rxcap := 40, bicap := 4, bocap := 4 }

/-- The configuration of V-MOD-1 and V-DMB-1. -/
def base : State :=
  { State.reset with par := tiny, f0 := num 1 1, f1 := num 2 1, fs := num 8 1, symdur := num 1 2, amp := num 1 1 }

/-- The configuration of V-DMR-2, with windows of one sample. -/
def robust : State :=
  { State.reset with par := tiny, f0 := num 100 1, f1 := num 200 1, fs := num 800 1, symdur := num 1 800, bw := num 40 1 }

/-- Samples in RX. -/
def withRx (s : State) (xs : List Scalar) : State :=
  { s with rx := (Mem.unwritten Scalar).replace (scalarDefault .rx) xs, rxlen := xs.length }

/-- The operands of V-OSC-1. -/
def oscBase : State :=
  { base with ofreq := num 1 1, odur := num 1 1, oamp := num 1 1, ophase := num 0 1 }

/-! ## Decoding, from the encodings of 30 R60, R61 -/

theorem test_decode_osc : decode 0b00000001#8 = .ok .osc := by rfl
theorem test_decode_shape : decode 0b00000010#8 = .ok .shape := by rfl
theorem test_decode_mod : decode 0b00000011#8 = .ok .mod := by rfl
theorem test_decode_demodb : decode 0b00000100#8 = .ok .demodb := by rfl
theorem test_decode_demodr : decode 0b00000101#8 = .ok .demodr := by rfl

/-- 30 R63: OP = 0, 6, 7 with RSV = 0. -/
theorem test_decode_unused : decode 0x00#8 = .error .opUnused ∧ decode 0x06#8 = .error .opUnused ∧
    decode 0x07#8 = .error .opUnused := ⟨rfl, rfl, rfl⟩

/-- V-FLT-1: OP = 1 with RSV not 0. -/
theorem test_decode_reserved : decode 0x81#8 = .error .reservedBitsSet ∧ decode 0x09#8 = .error .reservedBitsSet :=
  ⟨rfl, rfl⟩

/-- No other Byte is a command (30 R64). -/
theorem test_decode_count : ((List.range 256).filter fun w => (decodeTableWord 8 w).isSome) = [1, 2, 3, 4, 5] := by
  decide +kernel

/-! ## WellFormed smoke -/

theorem smoke_command_reserved_bits : commandByteWf 0x0B#8 = false := by decide
theorem smoke_command_unused_op : commandByteWf 0x06#8 = false ∧ commandByteWf 0x00#8 = false := by decide
theorem smoke_wr_wrong_type : (Txn.wr 0x10#8 (.bit .one)).wf = false := by decide
theorem smoke_wr_no_type : (Txn.wr 0x03#8 (.unspecified (.read 0))).wf = false := by decide
theorem smoke_st_wrong_type : (Txn.st .bi 0 (.scalar (.rat 0))).wf = false := by decide
theorem smoke_wf : Instr.osc.wf = true ∧ commandByteWf 0x05#8 = true ∧ (Txn.wr 0x10#8 (.scalar .pi)).wf = true ∧
    (Txn.st .bi 0 (.bit .one)).wf = true := by decide

/-! ## The spec's vectors -/

/-- V-OSC-3: FS = 4, OFREQ = 1, ODUR = 1, OAMP = 0.5, OPHASE = pi/2. -/
theorem test_osc_quarter_turns :
    txAfter .osc { base with fs := num 4 1, ofreq := num 1 1, odur := num 1 1, oamp := num 1 2,
                             ophase := Scalar.div .pi (num 2 1) }
      = some [num 1 2, num 0 1, num (-1) 2, num 0 1] := by decide +kernel

/-- V-OSC-8: FS = -8 and ODUR = -0.1 give OPERAND. -/
theorem test_osc_operand : flagsAfter .osc { oscBase with fs := num (-8) 1 } = some (0x02#8, 0x05#8) ∧
    flagsAfter .osc { oscBase with odur := num (-1) 10 } = some (0x02#8, 0x05#8) := by decide +kernel

/-- V-SHP-7: RXLEN = 5, SHPN = 2, RX = 2, -4, 6, -8, 10. -/
theorem test_shape_gains :
    txAfter .shape { withRx base [num 2 1, num (-4) 1, num 6 1, num (-8) 1, num 10 1] with shpn := 2 }
      = some [num 0 1, num (-3) 1, num 6 1, num (-6) 1, num 0 1] := by decide +kernel

/-- V-SHP-2: RXLEN = 3, SHPN = 5 is clamped to 1. -/
theorem test_shape_clamp :
    txAfter .shape { withRx base [num 1 1, num 1 1, num 1 1] with shpn := 5 }
      = some [num 0 1, num 1 1, num 0 1] := by decide +kernel

/-- V-MOD-1: the first symbol, an F1 tone, is 0, 0.75, 0, 0; 32 samples. -/
theorem test_mod_first_symbol :
    (txAfter .mod base).map (fun xs => (xs.length, xs.take 4)) = some (32, [num 0 1, num 3 4, num 0 1, num 0 1]) := by
  decide +kernel

/-- V-MOD-5: F1 equal to F0, and F1 equal to FS/2, give CFG_FREQ. -/
theorem test_mod_freq : flagsAfter .mod { base with f1 := num 1 1 } = some (0x02#8, 0x02#8) ∧
    flagsAfter .mod { base with f1 := num 4 1 } = some (0x02#8, 0x02#8) := by decide +kernel

/-- V-DMB-1: RX = 0, 1, 0, -1 gives P1 = 4. -/
theorem test_demodb_power :
    (withRx base [num 0 1, num 1 1, num 0 1, num (-1) 1]).basicP1 0 = num 4 1 := by decide +kernel

/-- V-DMB-9: a window of no sample gives CFG_WINDOW; V-DMB-7: an empty buffer gives an empty bit string. -/
theorem test_demodb_window : flagsAfter .demodb { base with symdur := num 1 9 } = some (0x02#8, 0x01#8) ∧
    boAfter .demodb base = some [] := by decide +kernel

/-- V-DMR-1: the comparator. -/
theorem test_demodr_comparator :
    hysteresis .real (num 29 50) (num 21 50) .zero
      ([(1, 1), (1, 9), (1, 1), (45, 55), (9, 1), (42, 58), (41, 59), (58, 42), (59, 41), (0, 0)].map
        fun p => ratioOf .real (num p.1 1) (num p.2 1) (.rat Config.epsDefault))
      = [.zero, .one, .one, .one, .zero, .zero, .one, .zero, .zero, .zero] := by decide +kernel

/-- V-DMR-4: silence with RHI = -0.1, RLO = -0.2 decodes to ones, with the reset thresholds to zeros. -/
theorem test_demodr_silence :
    boAfter .demodr { withRx robust [num 0 1, num 0 1, num 0 1] with rhi := num (-1) 10, rlo := num (-1) 5 }
      = some [.one, .one, .one] ∧
    boAfter .demodr (withRx robust [num 0 1, num 0 1, num 0 1]) = some [.zero, .zero, .zero] := by decide +kernel

/-- V-FLT-2: the order of DEMODR's checks. -/
theorem test_priority :
    flagsAfter .demodr { robust with fs := num 0 1, symdur := num 0 1, f1 := num 100 1, rhi := num 21 50, bw := num 0 1 }
      = some (0x02#8, 0x05#8) ∧
    flagsAfter .demodr { robust with symdur := num 0 1, f1 := num 100 1, rhi := num 21 50, bw := num 0 1 }
      = some (0x02#8, 0x01#8) ∧
    flagsAfter .demodr { robust with f1 := num 100 1, rhi := num 21 50, bw := num 0 1 } = some (0x02#8, 0x02#8) ∧
    flagsAfter .demodr { robust with rhi := num 21 50, bw := num 0 1 } = some (0x02#8, 0x03#8) ∧
    flagsAfter .demodr { robust with bw := num 0 1 } = some (0x02#8, 0x04#8) ∧
    flagsAfter .demodr { robust with rxlen := 5 } = some (0x02#8, 0x06#8) ∧
    flagsAfter .demodr robust = some (0x01#8, 0x00#8) := by decide +kernel

/-- V-FRM-1, V-FRM-2. -/
theorem test_framer_text : textToBits [72, 105] =
      some [false, true, false, false, true, false, false, false, false, true, true, false, true, false, false, true] ∧
    bitsToText [false, true, false, false, true, false, false, false, false, true, true, false, true, false, false, true,
      true] = [72, 105] := by decide +kernel

/-- V-FRM-3: the first occurrence begins at index 2; an absent pattern passes the input through. -/
theorem test_framer_strip :
    stripPreamble [false, false, true, false, true, false, true, false, true, false, true, true, true]
      = [true, true, true] ∧
    stripPreamble [false, false, false, true, true, true] = [false, false, false, true, true, true] := by
  decide +kernel

/-- 30 R68: `bits BI, "01"` is two stores and the write of BILEN (0x32). -/
theorem test_script_bits : scriptBits [false, true] =
    [.st .bi 0 (.bit .zero), .st .bi 1 (.bit .one), .wr 0x32#8 (.count 2)] := by decide +kernel

/-- The encoder's statement holds of every command, by the per-command lemmas. -/
theorem test_encoding (i : Instr) : Laws.Encoding.Statement i := by
  cases i
  · exact Laws.Encoding.osc
  · exact Laws.Encoding.shape
  · exact Laws.Encoding.mod
  · exact Laws.Encoding.demodb
  · exact Laws.Encoding.demodr

/-! ## Witnesses: the hypotheses of each statement can be met -/

/-- A command none of whose checks fails completes. -/
theorem completes {i : Instr} {s : State} (h : firstFailing (checksOf i s) = none) :
    ∃ t, exec i s = .next t ∧ t.status = 0x01#8 := by
  rw [exec_eq, State.runChecked_pass h]; exact ⟨_, rfl, rfl⟩

theorem witness_IllegalBytesRaiseIllegalCmd :
    0x00#8 ∉ [0x01#8, 0x02#8, 0x03#8, 0x04#8, 0x05#8] ∧ 0x06#8 ∉ [0x01#8, 0x02#8, 0x03#8, 0x04#8, 0x05#8] ∧
      0xFF#8 ∉ [0x01#8, 0x02#8, 0x03#8, 0x04#8, 0x05#8] := by decide

theorem witness_CmdHoldsTheByteWritten :
    (∃ t, transact (.wr 0x00#8 (.byte 0x00#8)) base = .next t) ∧
      (∃ t, transact (.wr 0x00#8 (.byte 0x05#8)) base = .next t) ∧ ∃ t, exec .mod base = .next t :=
  ⟨⟨_, rfl⟩, exec_answers .demodr (base.storeCmd 0x05#8), exec_answers _ _⟩

theorem witness_StepRunsTheDecodedCommand :
    (base.withFetchWord 8 4).script = .wr 0x00#8 (.byte 0x04#8) :: [] ∧ regOfNumber 0x00#8 = some .cmd ∧
      decode 0x04#8 = .ok .demodb := ⟨rfl, rfl, rfl⟩

theorem witness_StepIsTheNextTransaction :
    base.script = [] ∧ (base.withFetchWord 8 0).script = .wr 0x00#8 (.byte 0x00#8) :: [] ∧
      ∃ t, transact (.rd 0x10#8) base = .next t := ⟨rfl, rfl, _, rfl⟩

theorem witness_FaultChangesStatusAndCauseOnly :
    ∃ t, transact (.wr 0x00#8 (.byte 0xFF#8)) base = .next t ∧ t.status ≠ 0x01#8 := ⟨_, rfl, by decide⟩

theorem witness_FirstFailingCheckGivesTheCause (i : Instr) : ∃ t, exec i base = .next t := exec_answers _ _

theorem witness_EmptyInputCompletes :
    base.rateBad = false ∧ base.durationBad = false ∧ base.oscFloor = 0 ∧ base.rxlen = 0 ∧ base.windowBad = false ∧
      base.freqBad = false ∧ base.bilen = 0 ∧ 8 * base.symbolLen ≤ base.par.txcap ∧ base.rxlen < base.symbolLen ∧
      robust.rateBad = false ∧ robust.windowBad = false ∧ robust.freqBad = false ∧ robust.ratioBad = false ∧
      robust.bandBad = false ∧ robust.rxlen < robust.symbolLen := by decide +kernel

/-- The test states are of an instance over NUM_REAL with an exact phase. -/
theorem base_exact : base.Exact ∧ oscBase.Exact ∧ robust.Exact ∧ State.reset.Exact :=
  ⟨⟨rfl, rfl⟩, ⟨rfl, rfl⟩, ⟨rfl, rfl⟩, rfl, rfl⟩

theorem num_eval (p : Int) (q : Nat) : (num p q).eval = (p : ℝ) / q := by simp [num, Rat.mkRat_eq_div]

/-- The registers over the reals: FS = 8, SYMDUR = 1/2, so that SYMDUR*FS = 4. -/
theorem base_evals : base.fs.eval = 8 ∧ base.symdur.eval = 1 / 2 ∧ base.f0.eval = 1 ∧ base.f1.eval = 2 ∧
    base.odur.eval = 0 ∧ ⌊base.symdur.eval * base.fs.eval⌋ = 4 := by
  have h1 : base.fs.eval = 8 := by show (num 8 1).eval = _; rw [num_eval]; norm_num
  have h2 : base.symdur.eval = 1 / 2 := by show (num 1 2).eval = _; rw [num_eval]; norm_num
  refine ⟨h1, h2, ?_, ?_, by show (Scalar.rat 0).eval = _; simp, ?_⟩
  · show (num 1 1).eval = _; rw [num_eval]; norm_num
  · show (num 2 1).eval = _; rw [num_eval]; norm_num
  · rw [h1, h2, Int.floor_eq_iff]; norm_num

/-- FS = 0; ODUR = -1/10; FS*ODUR = 8*5 = TXCAP; FS*ODUR = 41, one above. -/
theorem witness_OscRejects :
    ({ base with fs := num 0 1 } : State).Real ∧ ({ base with fs := num 0 1 } : State).fs.eval ≤ 0 ∧
    ({ base with odur := num (-1) 10 } : State).odur.eval < 0 ∧
    ((tiny.txcap : Int) < ⌊(num 8 1).eval * (num 41 8).eval⌋ ∧ 0 < (num 8 1).eval ∧ 0 ≤ (num 41 8).eval) ∧
    (⌊(num 8 1).eval * (num 5 1).eval⌋ ≤ (tiny.txcap : Int) ∧ 0 ≤ (num 5 1).eval) := by
  have e1 : ⌊(num 8 1).eval * (num 41 8).eval⌋ = 41 := by
    rw [num_eval, num_eval, Int.floor_eq_iff]; norm_num
  have e2 : ⌊(num 8 1).eval * (num 5 1).eval⌋ = 40 := by
    rw [num_eval, num_eval, Int.floor_eq_iff]; norm_num
  refine ⟨rfl, ?_, ?_, ⟨?_, ?_, ?_⟩, ?_, ?_⟩
  · show (num 0 1).eval ≤ 0; rw [num_eval]; norm_num
  · show (num (-1) 10).eval < 0; rw [num_eval]; norm_num
  · rw [e1]; decide
  · rw [num_eval]; norm_num
  · rw [num_eval]; norm_num
  · rw [e2]; decide
  · rw [num_eval]; norm_num

theorem witness_ShapeRejects : ({ base with rxlen := 41 } : State).par.txcap < 41 ∧
    ({ base with rxlen := 40 } : State).rxlen ≤ base.par.txcap ∧ base.rxlen = 0 := by decide

/-- FS = 0; SYMDUR*FS = 8/9; F1 = F0; F1 = FS/2; (BILEN + 8)*4 = 44 and 40 against TXCAP = 40. -/
theorem witness_ModRejects : base.Real ∧ 0 < base.fs.eval ∧ (num 0 1).eval ≤ 0 ∧
    ⌊(num 1 9).eval * base.fs.eval⌋ < 1 ∧ 1 ≤ ⌊base.symdur.eval * base.fs.eval⌋ ∧
    base.f0.eval = (num 1 1).eval ∧ base.fs.eval / 2 ≤ (num 4 1).eval ∧
    base.f0.eval ≠ base.f1.eval ∧ base.f0.eval < base.fs.eval / 2 ∧ base.f1.eval < base.fs.eval / 2 ∧
    (base.par.txcap : Int) < ((3 : Nat) + 8) * ⌊base.symdur.eval * base.fs.eval⌋ ∧
    ((2 : Nat) + 8) * ⌊base.symdur.eval * base.fs.eval⌋ ≤ (base.par.txcap : Int) := by
  obtain ⟨h1, h2, h3, h4, -, h6⟩ := base_evals
  have e : ⌊(num 1 9).eval * base.fs.eval⌋ = 0 := by rw [num_eval, h1, Int.floor_eq_iff]; norm_num
  refine ⟨rfl, ?_, ?_, ?_, ?_, ?_, ?_, ?_, ?_, ?_, ?_, ?_⟩
  · rw [h1]; norm_num
  · rw [num_eval]; norm_num
  · rw [e]; norm_num
  · rw [h6]; norm_num
  · rfl
  · rw [h1, num_eval]; norm_num
  · rw [h3, h4]; norm_num
  · rw [h1, h3]; norm_num
  · rw [h1, h4]; norm_num
  · rw [h6]; decide
  · rw [h6]; decide

/-- The capacity clauses: 20 samples are 5 windows of 4, 19 samples are 4, against BOCAP = 4; the others as for MOD. -/
theorem witness_BasicRejects : base.Real ∧
    (base.par.bocap : Int) < ((20 : Nat) : Int) / ⌊base.symdur.eval * base.fs.eval⌋ ∧
    ((19 : Nat) : Int) / ⌊base.symdur.eval * base.fs.eval⌋ ≤ (base.par.bocap : Int) := by
  rw [base_evals.2.2.2.2.2]; exact ⟨rfl, by decide, by decide⟩

/-- The registers of the DEMODR configuration over the reals. -/
theorem robust_evals : robust.fs.eval = 800 ∧ robust.f0.eval = 100 ∧ robust.f1.eval = 200 ∧ robust.bw.eval = 40 ∧
    robust.rhi.eval = 29 / 50 ∧ robust.rlo.eval = 21 / 50 ∧ ⌊robust.symdur.eval * robust.fs.eval⌋ = 1 := by
  have h1 : robust.fs.eval = 800 := by show (num 800 1).eval = _; rw [num_eval]; norm_num
  have h2 : robust.symdur.eval = 1 / 800 := by show (num 1 800).eval = _; rw [num_eval]; norm_num
  refine ⟨h1, ?_, ?_, ?_, ?_, ?_, ?_⟩
  · show (num 100 1).eval = _; rw [num_eval]; norm_num
  · show (num 200 1).eval = _; rw [num_eval]; norm_num
  · show (num 40 1).eval = _; rw [num_eval]; norm_num
  · show (num 29 50).eval = _; rw [num_eval]; norm_num
  · show (num 21 50).eval = _; rw [num_eval]; norm_num
  · rw [h1, h2, Int.floor_eq_iff]; norm_num

/-- FS, window and frequency clauses as for MOD; RHI = RLO; BW = 0 makes a band empty, F1 + BW = FS/2 at F1 = 360;
neither band is bad here; 5 and 4 windows against BOCAP = 4. -/
theorem witness_RobustRejects : robust.Real ∧ 0 < robust.fs.eval ∧
    1 ≤ ⌊robust.symdur.eval * robust.fs.eval⌋ ∧ robust.f0.eval ≠ robust.f1.eval ∧
    robust.f0.eval < robust.fs.eval / 2 ∧ robust.f1.eval < robust.fs.eval / 2 ∧
    (num 21 50).eval ≤ robust.rlo.eval ∧ robust.rlo.eval < robust.rhi.eval ∧
    ¬ max 50 (robust.f0.eval - (num 0 1).eval) < robust.f0.eval + (num 0 1).eval ∧
    ¬ (num 360 1).eval + robust.bw.eval < robust.fs.eval / 2 ∧
    (∀ f ∈ [robust.f0.eval, robust.f1.eval], ¬ (¬ max 50 (f - robust.bw.eval) < f + robust.bw.eval ∨
      ¬ f + robust.bw.eval < robust.fs.eval / 2)) ∧
    (robust.par.bocap : Int) < ((5 : Nat) : Int) / ⌊robust.symdur.eval * robust.fs.eval⌋ ∧
    ((4 : Nat) : Int) / ⌊robust.symdur.eval * robust.fs.eval⌋ ≤ (robust.par.bocap : Int) := by
  obtain ⟨h1, h2, h3, h4, h5, h6, h7⟩ := robust_evals
  rw [h7, h1, h2, h3, h4, h5, h6, num_eval, num_eval, num_eval]
  refine ⟨rfl, ?_, le_rfl, ?_, ?_, ?_, ?_, ?_, ?_, ?_, ?_, by decide, by decide⟩ <;> norm_num

theorem witness_OscSamplesAreTheClosedForm : oscBase.rateBad = false ∧ oscBase.durationBad = false ∧
    oscBase.oscFloor ≤ (oscBase.par.txcap : Int) ∧ oscBase.oscFloor = 8 := by decide +kernel

theorem witness_PhaseAccumulatorAdvances : ∃ t, exec .osc oscBase = .next t ∧ t.status = 0x01#8 :=
  completes (by decide +kernel)

/-- Another command has run in between: the second state differs in TXLEN and in F0; and its ODUR is another term of
the same value, `pi/pi`. -/
theorem witness_OscIsPure : ∃ s' t t', oscBase.par = s'.par ∧ oscBase.fs.eval = s'.fs.eval ∧
    oscBase.ofreq.eval = s'.ofreq.eval ∧ oscBase.odur.eval = s'.odur.eval ∧ oscBase.odur ≠ s'.odur ∧
    oscBase.oamp.eval = s'.oamp.eval ∧ oscBase.ophase.eval = s'.ophase.eval ∧ exec .osc oscBase = .next t ∧
    exec .osc s' = .next t' ∧ t.status = 0x01#8 := by
  obtain ⟨t, h, hs⟩ := witness_PhaseAccumulatorAdvances
  refine ⟨{ oscBase with txlen := 3, f0 := .pi, odur := .over .pi .pi }, t, _, rfl, rfl, rfl, ?_, by decide, rfl, rfl,
    h, (exec_answers .osc { oscBase with txlen := 3, f0 := .pi, odur := .over .pi .pi }).choose_spec, hs⟩
  show (num 1 1).eval = Real.pi / Real.pi
  rw [num_eval, div_self Real.pi_ne_zero]; norm_num

/-- Each clause: amplitude 0, frequency 0, half the sample rate. -/
theorem witness_OscCornerCases :
    (∃ t, exec .osc { oscBase with oamp := num 0 1 } = .next t ∧ t.status = 0x01#8) ∧ (num 0 1).eval = 0 ∧
    (∃ t, exec .osc { oscBase with ofreq := num 0 1 } = .next t ∧ t.status = 0x01#8) ∧
    (∃ t, exec .osc { oscBase with ofreq := num 4 1 } = .next t ∧ t.status = 0x01#8) ∧
    (num 4 1).eval = oscBase.fs.eval / 2 ∧ 0 < oscBase.fs.eval ∧ oscBase.ophase.eval = 0 := by
  have h1 : oscBase.fs.eval = 8 := base_evals.1
  refine ⟨completes (by decide +kernel), by rw [num_eval]; norm_num, completes (by decide +kernel),
    completes (by decide +kernel), by rw [h1, num_eval]; norm_num, by rw [h1]; norm_num, ?_⟩
  show (num 0 1).eval = 0; rw [num_eval]; norm_num

/-- SHPN = 2 of 4 samples (no clamp), 3 of 5 (clamped to 2), 0 (no taper), 40 samples at the capacity. -/
theorem witness_ShapeClampsTheTaper : (2 : Nat) = (if 2 * 2 ≤ 4 then 2 else 4 / 2) ∧
    (2 : Nat) = (if 2 * 3 ≤ 5 then 3 else 5 / 2) ∧ (0 : Nat) = (if 2 * 0 ≤ 4 then 0 else 4 / 2) ∧
    ({ base with rxlen := 40 } : State).rxlen ≤ base.par.txcap := by decide

theorem witness_ShapeGains : (2 : Nat) = taperLen 5 3 ∧ 0 < 2 ∧ ({ base with rxlen := 5, shpn := 3 } : State).rxlen
    ≤ base.par.txcap ∧ base.par.taperw = .hann := by decide

theorem witness_HannTaperRises : 0 < 1 ∧ 0 < 2 ∧ 2 ≤ 2 ∧ 0 < 1 ∧ 1 < 2 := by decide

theorem witness_ShapeIsLinear : [num 2 1].length = [num 4 1].length ∧
    ∀ i < [num 4 1].length, ([num 4 1].getD i (.rat 0)).eval
      = 1 * ([num 2 1].getD i (.rat 0)).eval + 2 * ([num 1 1].getD i (.rat 0)).eval := by
  refine ⟨rfl, fun i hi => ?_⟩
  obtain rfl : i = 0 := by simpa using hi
  show (num 4 1).eval = 1 * (num 2 1).eval + 2 * (num 1 1).eval
  rw [num_eval, num_eval, num_eval]; norm_num

/-- BILEN = 2 is the largest payload of four-sample symbols that TXCAP = 40 holds. -/
theorem witness_ModSendsSyncAndPayload : ({ base with bilen := 2 } : State).rateBad = false ∧
    ({ base with bilen := 2 } : State).windowBad = false ∧ ({ base with bilen := 2 } : State).freqBad = false ∧
    (2 + 8) * base.symbolLen ≤ base.par.txcap ∧ 0 < base.symbolLen := by decide +kernel

theorem witness_ModSymbolsStartAndEndAtZero : (∃ t, exec .mod base = .next t ∧ t.status = 0x01#8) ∧
    base.par.taperw = .hann ∧ 2 ≤ base.symbolLen := ⟨completes (by decide +kernel), rfl, by decide +kernel⟩

/-- One window of four samples (not tapered), and one of eight (tapered). -/
theorem witness_BasicBitsComparePowers :
    base.rateBad = false ∧ base.windowBad = false ∧ base.freqBad = false ∧ 4 / base.symbolLen = 1 ∧
    19 / base.symbolLen ≤ base.par.bocap ∧ ({ base with symdur := num 1 1 } : State).windowBad = false ∧
    4 < ({ base with symdur := num 1 1 } : State).symbolLen := by decide +kernel

theorem witness_HannWindowIsSymmetric : 2 ≤ 2 ∧ 2 ≤ 5 ∧ 4 < 5 := by decide

/-- RX = 0, 3, 0, 0: one sample other than 0, at index 1, so that the powers tie. -/
theorem witness_BasicTiesDecodeToZero :
    (∃ t, exec .demodb (withRx base [num 0 1, num 3 1, num 0 1, num 0 1]) = .next t ∧ t.status = 0x01#8) ∧
    (withRx base [num 0 1, num 3 1, num 0 1, num 0 1]).windowCount = 1 ∧
    ∀ i < 4, i ≠ 1 → ((withRx base [num 0 1, num 3 1, num 0 1, num 0 1]).rxAt (0 * 4 + i)).eval = 0 := by
  refine ⟨completes (by decide +kernel), by decide +kernel, fun i hi h1 => ?_⟩
  have : (withRx base [num 0 1, num 3 1, num 0 1, num 0 1]).rxAt (0 * 4 + i) = .rat 0 := by
    revert h1 hi; revert i; decide +kernel
  rw [this]; simp

/-- A tie of a window with no sample 0: RX = 1, 2, 1, 2 with F0 = 1 and F1 = -1. -/
theorem witness_BasicTiesDecodeToZero_mirror :
    (∃ t, exec .demodb { withRx base [num 1 1, num 2 1, num 1 1, num 2 1] with f1 := num (-1) 1 } = .next t ∧
      t.status = 0x01#8) ∧
    ∀ k, ({ withRx base [num 1 1, num 2 1, num 1 1, num 2 1] with f1 := num (-1) 1 } : State).basicPower (num (-1) 1) k
      = ({ withRx base [num 1 1, num 2 1, num 1 1, num 2 1] with f1 := num (-1) 1 } : State).basicPower (num 1 1) k := by
  refine ⟨completes (by decide +kernel), fun k => ?_⟩
  have h : ∀ w : ℝ, 2 * Real.pi * (num (-1) 1).eval / w = -(2 * Real.pi * (num 1 1).eval / w) := by
    intro w; rw [num_eval, num_eval]; push_cast; ring
  have n : ∀ (len : ℕ) (w f : ℕ → ℝ), weightedSum len w (fun i => -f i) = -weightedSum len w f := by
    intro len w f
    unfold weightedSum
    induction List.range len with
    | nil => simp
    | cons x xs ih => simp only [List.map_cons, List.sum_cons, ih]; ring
  simp only [State.basicPower, powerAt, h, neg_mul, Real.cos_neg, Real.sin_neg, n, neg_sq]

/-- RX = 1 and RX = -3, so that c = -3. -/
theorem witness_BasicIgnoresScale : ∃ t t', (-3 : ℝ) ≠ 0 ∧
    (∀ i < 1, ((withRx base [num (-3) 1]).rxAt i).eval = -3 * ((withRx base [num 1 1]).rxAt i).eval) ∧
    exec .demodb (withRx base [num 1 1]) = .next t ∧ exec .demodb (withRx base [num (-3) 1]) = .next t' ∧
    t.status = 0x01#8 := by
  obtain ⟨t, h, hs⟩ := completes (i := .demodb) (s := withRx base [num 1 1]) (by decide +kernel)
  refine ⟨t, _, by norm_num, fun i hi => ?_, h, (exec_answers .demodb _).choose_spec, hs⟩
  obtain rfl : i = 0 := by omega
  show (num (-3) 1).eval = -3 * (num 1 1).eval
  rw [num_eval, num_eval]; norm_num

/-- Four windows of one sample, at the capacity; the peak of the buffer exists. -/
theorem witness_RobustBitsFollowTheRatio : robust.rateBad = false ∧ robust.windowBad = false ∧
    robust.freqBad = false ∧ robust.ratioBad = false ∧ robust.bandBad = false ∧
    4 / robust.symbolLen ≤ robust.par.bocap ∧ 0 < 4 / robust.symbolLen := by decide +kernel

theorem witness_RobustBitsFollowTheRatio_peak : ∃ p : ℝ, (withRx robust [num 1 1, num (-2) 1]).IsPeak p :=
  ⟨_, State.robustPeak_isPeak rfl⟩

/-- The peak 0 and a peak other than 0, each in a completed command. -/
theorem witness_RobustNormalisesByThePeak :
    (∃ t, exec .demodr robust = .next t) ∧ robust.robustPeak.eval = 0 ∧ robust.rxlen = 0 ∧
    (∃ t, exec .demodr (withRx robust [num (-2) 1]) = .next t) ∧ (withRx robust [num (-2) 1]).robustPeak.eval ≠ 0 ∧
    0 < (withRx robust [num (-2) 1]).symbolLen := by
  have h0 : robust.robustPeak = .rat 0 := by decide +kernel
  have h2 : (withRx robust [num (-2) 1]).robustPeak = .rat 2 := by decide +kernel
  exact ⟨exec_answers _ _, by rw [h0]; simp, rfl, exec_answers _ _, by rw [h2]; simp, by decide +kernel⟩

theorem witness_FilterIsLinear : [num 2 1].length = [num 4 1].length ∧ [num 1 1].length = [num 4 1].length ∧
    ∀ i < [num 4 1].length, ([num 4 1].getD i (.rat 0)).eval
      = 1 * ([num 2 1].getD i (.rat 0)).eval + 2 * ([num 1 1].getD i (.rat 0)).eval :=
  ⟨rfl, rfl, witness_ShapeIsLinear.2⟩

open Classical in
theorem witness_StandInFilterKeepsTheBand (lo hi fs : Scalar) : ∃ (w : List Scalar) (X Y : ℕ → ℂ) (fq : ℕ → ℝ),
    0 < w.length ∧ (∀ q, fq q = (min q (w.length - q) : ℕ) * fs.eval / w.length) ∧
    (∀ q, X q = ∑ i ∈ Finset.range w.length, ((w.getD i (.rat 0)).eval : ℂ) *
      Complex.exp (-(2 * Real.pi * Complex.I * i * q / w.length))) ∧
    (∀ q, (lo.eval ≤ fq q ∧ fq q ≤ hi.eval → Y q = X q) ∧ (¬ (lo.eval ≤ fq q ∧ fq q ≤ hi.eval) → Y q = 0)) := by
  let w : List Scalar := [num 1 1, num 2 1]
  let fq : ℕ → ℝ := fun q => (min q (w.length - q) : ℕ) * fs.eval / w.length
  let X : ℕ → ℂ := fun q => ∑ i ∈ Finset.range w.length, ((w.getD i (.rat 0)).eval : ℂ) *
      Complex.exp (-(2 * Real.pi * Complex.I * i * q / w.length))
  exact ⟨w, X, fun q => if lo.eval ≤ fq q ∧ fq q ≤ hi.eval then X q else 0, fq, by decide, fun _ => rfl, fun _ => rfl,
    fun q => ⟨fun h => if_pos h, fun h => if_neg h⟩⟩

theorem witness_RatioIsAFraction : robust.Real ∧ 0 < robust.par.eps.eval := by
  refine ⟨rfl, ?_⟩
  show 0 < (Scalar.rat Config.epsDefault).eval
  simp [Config.epsDefault, Rat.mkRat_eq_div]

theorem witness_LastDoesNotPersist : ∃ t, exec .demodr (withRx robust [num 1 1]) = .next t ∧ t.status = 0x01#8 :=
  completes (by decide +kernel)

/-- A silent window, with RHI at least 0 and with RHI below 0. -/
theorem witness_RobustSilence : (∃ t, exec .demodr (withRx robust [num 0 1]) = .next t ∧ t.status = 0x01#8) ∧
    (∃ t, exec .demodr { withRx robust [num 0 1] with rhi := num (-1) 10, rlo := num (-1) 5 } = .next t ∧
      t.status = 0x01#8) ∧
    ∀ i < 1, ((withRx robust [num 0 1]).rxAt i).eval = 0 := by
  refine ⟨completes (by decide +kernel), completes (by decide +kernel), fun i hi => ?_⟩
  obtain rfl : i = 0 := by omega
  show (num 0 1).eval = 0
  rw [num_eval]; norm_num

/-- RX = 1 and RX = 3, so that c = 3. -/
theorem witness_RobustIgnoresPositiveScale : ∃ t t', (0 : ℝ) < 3 ∧
    (∀ i < 1, ((withRx robust [num 3 1]).rxAt i).eval = 3 * ((withRx robust [num 1 1]).rxAt i).eval) ∧
    exec .demodr (withRx robust [num 1 1]) = .next t ∧ exec .demodr (withRx robust [num 3 1]) = .next t' ∧
    t.status = 0x01#8 := by
  obtain ⟨t, h, hs⟩ := witness_LastDoesNotPersist
  refine ⟨t, _, by norm_num, fun i hi => ?_, h, (exec_answers .demodr _).choose_spec, hs⟩
  obtain rfl : i = 0 := by omega
  show (num 3 1).eval = 3 * (num 1 1).eval
  rw [num_eval, num_eval]; norm_num

/-- Each command of the frame, completed and rejected. -/
theorem witness_TransmitFrame : (∃ t, exec .osc oscBase = .next t ∧ t.status = 0x01#8) ∧
    (∃ t, exec .shape base = .next t ∧ t.status = 0x01#8) ∧ (∃ t, exec .mod base = .next t ∧ t.status = 0x01#8) ∧
    ∃ t, exec .mod { base with f1 := num 1 1 } = .next t ∧ t.status ≠ 0x01#8 :=
  ⟨completes (by decide +kernel), completes (by decide +kernel), completes (by decide +kernel), _,
    (exec_eq .mod _).trans (State.runChecked_fail (c := .cfgFreq) (by decide +kernel)), by decide +kernel⟩

theorem witness_ReceiveFrame : (∃ t, exec .demodb base = .next t ∧ t.status = 0x01#8) ∧
    (∃ t, exec .demodr robust = .next t ∧ t.status = 0x01#8) ∧
    ∃ t, exec .demodr { robust with bw := num 0 1 } = .next t ∧ t.status ≠ 0x01#8 :=
  ⟨completes (by decide +kernel), completes (by decide +kernel), _,
    (exec_eq .demodr _).trans (State.runChecked_fail (c := .cfgBand) (by decide +kernel)), by decide +kernel⟩

theorem witness_OutputBeyondTheLengthIsUnspecified : (∃ t, exec .mod base = .next t ∧ t.status = 0x01#8) ∧
    ∃ t, exec .demodr robust = .next t ∧ t.status = 0x01#8 :=
  ⟨witness_TransmitFrame.2.2.1, witness_ReceiveFrame.2.1⟩

/-- Two states that differ in AMP, which DEMODB does not read, and in a sample beyond RXLEN. -/
theorem witness_CommandsReadOnlyTheirInputs :
    (withRx base [num 1 1]).AgreeOn { withRx base [num 1 1, num 7 1] with amp := .pi, rxlen := 1 } .demodb ∧
    (∃ t, exec .demodb (withRx base [num 1 1]) = .next t ∧ t.status = 0x01#8) ∧
    ∃ t, exec .demodb { withRx base [num 1 1, num 7 1] with amp := .pi, rxlen := 1 } = .next t := by
  refine ⟨⟨rfl, rfl, rfl, rfl, rfl, rfl, fun i hi => ?_⟩, completes (by decide +kernel), exec_answers _ _⟩
  obtain rfl : i = 0 := by
    have : i < 1 := hi
    omega
  decide +kernel

theorem witness_InternalRegistersAreDead : ∃ t, exec .demodb base = .next t := exec_answers _ _

/-- A Scalar register, and RXLEN at its bound. -/
theorem witness_RegisterWriteThenRead : regWritable .f0 = true ∧ Reg.f0 ≠ .cmd ∧
    (Value.scalar .pi).kind = some (regKind .f0) ∧ lengthWithin base .f0 (.scalar .pi) = true ∧
    regWritable .rxlen = true ∧ Reg.rxlen ≠ .cmd ∧ (Value.count 40).kind = some (regKind .rxlen) ∧
    lengthWithin base .rxlen (.count 40) = true := by decide

/-- The ends of each reserved range and their neighbours; a read-only register. -/
theorem witness_ReservedAndReadOnlyAccess :
    ([0x03#8, 0x0F#8, 0x1B#8, 0x1F#8, 0x25#8, 0x2F#8, 0x34#8, 0xFF#8].all fun r => (regOfNumber r).isNone) = true ∧
    ([0x02#8, 0x10#8, 0x1A#8, 0x20#8, 0x24#8, 0x30#8, 0x33#8].all fun r => (regOfNumber r).isSome) = true ∧
    (Txn.wr 0x03#8 (.count 5)).wf = true ∧ (Txn.wr 0x30#8 (.count 5)).wf = true ∧
    regOfNumber 0x30#8 = some .txlen := by decide

theorem witness_ReadsHaveNoSideEffects : ∃ t, transact (.ld .rx 0) base = .next t := ⟨_, rfl⟩

/-- The last element of each memory. -/
theorem witness_StoreThenLoad : 39 < base.par.rxcap ∧ 3 < base.par.bicap ∧ 39 < base.par.txcap ∧
    3 < base.par.bocap := by decide

/-- Below the length; at the length and below the capacity. -/
theorem witness_LoadReturnsTheElement : 0 < ({ base with txlen := 1, rxlen := 1, bilen := 1, bolen := 1 } : State).txlen ∧
    0 < base.par.txcap ∧ 0 < base.par.rxcap ∧ 0 < base.par.bicap ∧ 0 < base.par.bocap ∧
    ({ base with txlen := 1 } : State).length .tx ≤ 1 ∧ 1 < base.capacity .tx := by decide

/-- Each at the first value outside. -/
theorem witness_UndefinedTransactionsStop : base.capacity .tx ≤ 40 ∧ base.capacity .bi ≤ 4 ∧
    (Value.bit .one).kind = some (memKind .bi) ∧ base.par.rxcap < 41 ∧ base.par.bicap < 5 ∧
    (Value.bit .one).kind ≠ some (regKind .f0) ∧ (Value.bit .one).kind ≠ some (memKind .rx) := by decide

theorem witness_LegalTransactionsNeverStop :
    Machine.Txn.legal (.wr 0x10#8 (.scalar .pi)) base = true ∧ Machine.Txn.legal (.wr 0x00#8 (.byte 0xFF#8)) base = true ∧
    Machine.Txn.legal (.wr 0x31#8 (.count 40)) base = true ∧ Machine.Txn.legal (.rd 0x33#8) base = true ∧
    Machine.Txn.legal (.st .rx 39 (.scalar .pi)) base = true ∧ Machine.Txn.legal (.ld .bo 3) base = true := by decide

theorem witness_ResetAnyTime : Reg.cmd ≠ .eps ∧ Reg.shpn ≠ .eps := by decide

theorem witness_HardwiredRegisters : ∃ t, step (base.withFetchWord 8 3) = .next t := exec_answers .mod (base.storeCmd 3#8)

theorem witness_FramerRoundTrip : ∀ c ∈ [72, 105, 0, 255], c < 256 := by decide

/-- The state right after reset with a command next meets the invariant, and steps. -/
theorem witness_StepKeepsInv : Machine.Inv (State.reset.withFetchWord 8 3) ∧
    ∃ t, step (State.reset.withFetchWord 8 3) = .next t := by
  refine ⟨?_, exec_answers .mod (State.reset.storeCmd 3#8)⟩
  constructor
  · exact State.memWf_reset
  all_goals first | decide | skip
  · intro _; show 0 ≤ (Scalar.rat 0).eval ∧ (Scalar.rat 0).eval < (1 : ℝ); simp
  · show 0 < (Scalar.rat Config.epsDefault).eval; simp [Config.epsDefault, Rat.mkRat_eq_div]

/-- Both number domains; a completed OSC. -/
theorem witness_ChecksAskTheNumberDomain :
    NumDomain.real = base.par.num ∧ (∃ s : State, NumDomain.finite = s.par.num) ∧
      ∃ t, exec .osc oscBase = .next t ∧ t.status = 0x01#8 :=
  ⟨rfl, ⟨{ base with par := { tiny with num := .finite } }, rfl⟩, witness_PhaseAccumulatorAdvances⟩

theorem witness_PeakHoldsThePeak : robust.Real ∧
    ∃ t, exec .demodr (withRx robust [num (-2) 1]) = .next t ∧ t.status = 0x01#8 :=
  ⟨rfl, completes (by decide +kernel)⟩

/-- A phase of 8 bits, over NUM_REAL: OSC and MOD. -/
theorem witness_PhaseWidthBoundsPhi :
    (∃ t, exec .osc { oscBase with par := { tiny with phw := .bits 8 } } = .next t ∧ t.status = 0x01#8) ∧
    ∃ t, exec .mod { base with par := { tiny with phw := .bits 8 } } = .next t ∧ t.status = 0x01#8 :=
  ⟨completes (by decide +kernel), completes (by decide +kernel)⟩

/-! ## Checks and counts on terms that are no numerals (00 R9) -/

/-- 10 R18: SYMDUR = 1/pi and FS = 100*pi give L = 100. -/
theorem test_symbol_length_pi :
    ({ base with symdur := .over (.rat 1) .pi, fs := .times (.rat 100) .pi } : State).symbolLen = 100 := by
  have h : (Scalar.over (.rat 1) .pi).eval * (Scalar.times (.rat 100) .pi).eval = 100 := by
    have := Real.pi_ne_zero
    simp only [Scalar.eval]; push_cast; field_simp
  have : ({ base with symdur := .over (.rat 1) .pi, fs := .times (.rat 100) .pi } : State).symbolFloor = 100 := by
    rw [State.symbolFloor_real rfl, h, Int.floor_eq_iff]; norm_num
  rw [State.symbolLen, this]; rfl

/-- 60 R159: RHI = RLO = pi/4 gives the condition of CFG_RATIO. -/
theorem test_ratio_pi : ({ robust with rhi := .over .pi (.rat 4), rlo := .over .pi (.rat 4) } : State).ratioBad = true :=
  (State.ratioBad_real rfl).mpr (lt_irrefl _)

/-- 60 R158: F0 = 500*pi is half of FS = 1000*pi, the condition of CFG_FREQ. -/
theorem test_freq_pi :
    ({ base with f0 := .times (.rat 500) .pi, fs := .times (.rat 1000) .pi } : State).freqBad = true := by
  rw [State.freqBad_real rfl]
  right; left
  simp only [Scalar.eval]; push_cast; linarith

/-- 40 R81: FS = 8 and ODUR the sine of 1/8 turn, about 0.707, give N = 5. -/
theorem test_osc_count_sine : ({ oscBase with odur := .sinTurns (num 1 8) } : State).oscLen = 5 := by
  have h : (num 8 1).eval * (Scalar.sinTurns (num 1 8)).eval = 4 * Real.sqrt 2 := by
    have e : 2 * Real.pi * (num 1 8).eval = Real.pi / 4 := by rw [num_eval]; push_cast; ring
    rw [Scalar.eval, e, Real.sin_pi_div_four, num_eval]; push_cast; ring
  have : ({ oscBase with odur := .sinTurns (num 1 8) } : State).oscFloor = 5 := by
    rw [State.oscFloor_real rfl]
    show ⌊(num 8 1).eval * (Scalar.sinTurns (num 1 8)).eval⌋ = 5
    have hs := Real.sq_sqrt (show (0 : ℝ) ≤ 2 by norm_num)
    have h0 := Real.sqrt_nonneg 2
    rw [h, Int.floor_eq_iff]
    constructor <;> push_cast <;> nlinarith
  rw [State.oscLen, this]; rfl

end Sys2Proof.Tests
end

/-! What commands, transactions and steps leave of CMD and of the parameters (00 R5, 10 R16, R21), and the
statements of 10_state on CMD and on the hardwired registers. -/

namespace Sys2Proof.Machine

open Sys2Proof

/-! ## Commands -/

/-- The decoder reads a command back from its Byte (30 R60, R61). -/
@[simp] theorem decode_encode (i : Instr) : decode (encode i) = .ok i := by
  cases i <;> rfl

/-- A command's effect writes one output memory and the internal registers (20 R42, 93 U11). -/
theorem effectOf_cases (i : Instr) (s : State) :
    (∃ xs d, effectOf i s = (s.putTx xs).putDp d) ∨ ∃ bs d, effectOf i s = (s.putBo bs).putDp d := by
  cases i with
  | osc => exact .inl ⟨_, _, effectOf_osc s⟩
  | shape => exact .inl ⟨_, _, effectOf_shape s⟩
  | mod => exact .inl ⟨_, _, effectOf_mod s⟩
  | demodb => exact .inr ⟨_, _, effectOf_demodb s⟩
  | demodr => exact .inr ⟨_, _, effectOf_demodr s⟩

@[simp] theorem effectOf_cmd (i : Instr) (s : State) : (effectOf i s).cmd = s.cmd := by
  obtain ⟨xs, d, h⟩ | ⟨bs, d, h⟩ := effectOf_cases i s <;> simp [h]

@[simp] theorem effectOf_par (i : Instr) (s : State) : (effectOf i s).par = s.par := by
  obtain ⟨xs, d, h⟩ | ⟨bs, d, h⟩ := effectOf_cases i s <;> simp [h]

/-- No command writes CMD, whether it completes or is rejected (10 R16). -/
theorem exec_cmd {i : Instr} {s t : State} (h : exec i s = .next t) : t.cmd = s.cmd := by
  obtain ⟨c, -, rfl⟩ | ⟨-, rfl⟩ := exec_cases h
  · exact State.takeFault_cmd s c
  · simp

theorem exec_par {i : Instr} {s t : State} (h : exec i s = .next t) : t.par = s.par := by
  obtain ⟨c, -, rfl⟩ | ⟨-, rfl⟩ := exec_cases h
  · exact State.takeFault_par s c
  · simp

/-! ## Writes of CMD -/

/-- A write of a Byte to register number 0x00 is typed and is a write of CMD (10 R11). -/
theorem transact_wr_cmd (w : Byte) (s : State) : transact (.wr 0x00#8 (.byte w)) s = runCommand w s := rfl

/-- A write of a command's Byte stores it and runs that command (10 R16). -/
theorem runCommand_encode (i : Instr) (s : State) : runCommand (encode i) s = exec i (s.storeCmd (encode i)) := by
  simp [runCommand]

/-- CMD holds the Byte written, whether or not the Byte is a command's (10 R16, 30 R63). -/
theorem runCommand_cmd {b : Byte} {s t : State} (h : runCommand b s = .next t) : t.cmd = b := by
  obtain ⟨i, -, hi⟩ | ⟨-, rfl⟩ := runCommand_cases h
  · exact (exec_cmd hi).trans (s.storeCmd_cmd b)
  · rfl

theorem runCommand_par {b : Byte} {s t : State} (h : runCommand b s = .next t) : t.par = s.par := by
  obtain ⟨i, -, hi⟩ | ⟨-, rfl⟩ := runCommand_cases h
  · exact (exec_par hi).trans (s.storeCmd_par b)
  · rfl

/-! ## The parameters through a step -/

@[simp] theorem State.setElement_par (s : State) (m : MemId) (i : Nat) (v : Value) :
    (s.setElement m i v).par = s.par := by
  obtain h | ⟨x, -, -, h⟩ | ⟨b, -, -, h⟩ := s.setElement_cases m i v <;> rw [h]

theorem hostWrite_par {r : Byte} {v : Value} {s t : State} (h : hostWrite r v s = .next t) : t.par = s.par := by
  obtain ⟨-, rfl⟩ | ⟨b, -, -, hb⟩ | ⟨reg, -, -, rfl⟩ := hostWrite_cases h
  · rfl
  · exact runCommand_par hb
  · exact State.setReg_par s reg v

theorem transact_par {x : Txn} {s t : State} (h : transact x s = .next t) : t.par = s.par := by
  obtain ⟨-, ⟨r, v, -, hw⟩ | ⟨v, rfl⟩ | ⟨m, i, v, -, -, rfl⟩⟩ := transact_cases h
  · exact hostWrite_par hw
  · exact State.answer_par s v
  · exact State.setElement_par s m i v

/-- No step changes a parameter of the block (00 R5). -/
theorem step_par {s t : State} (h : step s = .next t) : t.par = s.par := by
  obtain ⟨-, rfl⟩ | ⟨x, xs, -, hx⟩ := step_cases h
  · rfl
  · exact (transact_par hx).trans (s.putScript_par xs)

/-! ## The statements -/

/-- Settles O4: a write of CMD is `runCommand`, whose first act stores the Byte, and no command writes CMD. -/
theorem cmdHoldsTheByteWritten : Obligations.CmdHoldsTheByteWritten := by
  refine ⟨rfl, fun _ => rfl, fun s i => ?runs, fun s t w h => ?holds, fun s t i h => exec_cmd h⟩
  case runs => exact (transact_wr_cmd _ s).trans (runCommand_encode i s)
  case holds => exact runCommand_cmd ((transact_wr_cmd w s).symm.trans h)

/-- Settles O53: SYNC and TAPERN are constants, and EPS is a parameter of the block, which no step changes. -/
theorem hardwiredRegisters : Obligations.HardwiredRegisters := by
  refine fun s => ⟨rfl, rfl, rfl, by decide, fun t h => ⟨rfl, rfl, ?eps⟩⟩
  case eps => exact congrArg (fun p : Params => Value.scalar p.eps) (step_par h)

end Sys2Proof.Machine

/-! The command Byte (30 R60 to R64): which Bytes decode, and what a write of any other does; the statements of
30_encoding on the opcode map and on illegal Bytes. -/

namespace Sys2Proof.Machine

open Sys2Proof

/-! ## The decoder -/

/-- A Byte is its field RSV above its field OP (30 R60). -/
theorem rsvField_append_opField (w : Byte) : rsvField w ++ opField w = w := by
  have hadj : (3 : ℕ) = 0 + 3 := rfl
  calc rsvField w ++ opField w
      _ = w.extractLsb' 0 8 := BitVec.extractLsb'_append_extractLsb'_eq_extractLsb' hadj
      _ = w := BitVec.extractLsb'_eq_self

/-- A Byte that decodes has RSV = 0 and the command's operation code in OP (30 R60, R61, R63). -/
theorem fields_of_decode {w : Byte} {i : Instr} (h : decode w = .ok i) : rsvField w = 0 ∧ opField w = opCode i := by
  unfold decode at h
  split at h
  case isTrue => cases h
  case isFalse hrsv =>
    refine ⟨not_not.mp hrsv, BitVec.eq_of_toNat_eq ?_⟩
    split at h <;> cases h <;> assumption

/-- The opcode map: a command is read from the Byte that encodes it and from no other (30 R61). -/
theorem decode_eq_ok_iff {w : Byte} {i : Instr} : decode w = .ok i ↔ w = encode i := by
  constructor
  · intro h
    obtain ⟨hrsv, hop⟩ := fields_of_decode h
    rw [← rsvField_append_opField w, hrsv, hop, encode]
  · rintro rfl
    exact decode_encode i

/-- The five command Bytes (30 R61). -/
theorem encode_mem_commandBytes (i : Instr) : encode i ∈ [0x01#8, 0x02#8, 0x03#8, 0x04#8, 0x05#8] := by
  cases i <;> decide

/-! ## A write of a Byte that is no command's -/

/-- A Byte that no command encodes to runs nothing: it is stored, and ILLEGAL_CMD is taken (30 R63). -/
theorem runCommand_of_ne_encode {w : Byte} (h : ∀ i, w ≠ encode i) (s : State) :
    runCommand w s = .next ((s.storeCmd w).takeFault .illegalCmd) := by
  unfold runCommand
  split
  · next i hi => exact absurd (decode_eq_ok_iff.mp hi) (h i)
  · rfl

/-! ## The statements -/

/-- Settles O1: a Byte decodes to a command exactly when it is the Byte that encodes it. -/
theorem opcodeMap : Obligations.OpcodeMap :=
  ⟨fun _ => decode_eq_ok_iff, fun _ => decode_eq_ok_iff, fun _ => decode_eq_ok_iff, fun _ => decode_eq_ok_iff,
    fun _ => decode_eq_ok_iff⟩

/-- Settles O3: a Byte outside the five is no command's, so its write stores it and takes ILLEGAL_CMD. -/
theorem illegalBytesRaiseIllegalCmd : Obligations.IllegalBytesRaiseIllegalCmd := by
  intro s w hw
  have hne : ∀ i, w ≠ encode i := fun i h => hw (h ▸ encode_mem_commandBytes i)
  calc transact (.wr 0x00#8 (.byte w)) s
      _ = runCommand w s := transact_wr_cmd w s
      _ = .next ((s.storeCmd w).takeFault .illegalCmd) := runCommand_of_ne_encode hne s

end Sys2Proof.Machine

/-! The Oscillator (40 R81 to R85): what OSC does by its checks, and how its checks and samples depend on what its
operand registers denote; the statements of 40_oscillator on the checks, the closed form and purity. -/

namespace Sys2Proof.Machine

open Sys2Proof

/-! ## A command by its first failing check -/

/-- A command with a failing check takes that check's fault (60 R164, R165). -/
theorem exec_of_firstFailing_some {i : Instr} {s : State} {c : Cause} (h : firstFailing (checksOf i s) = some c) :
    exec i s = .next (s.takeFault c) :=
  (exec_eq i s).trans (State.runChecked_fail h)

/-- A command none of whose checks fails has its effect and completes (60 R155). -/
theorem exec_of_firstFailing_none {i : Instr} {s : State} (h : firstFailing (checksOf i s) = none) :
    exec i s = .next (effectOf i s).complete :=
  (exec_eq i s).trans (State.runChecked_pass h)

/-! ## The checks of OSC (40 R85) -/

theorem exec_osc_operand {s : State} (h : s.rateBad = true ∨ s.durationBad = true) :
    exec .osc s = .next (s.takeFault .operand) :=
  exec_of_firstFailing_some (by rcases h with h | h <;> simp [checksOf, State.oscChecks, firstFailing, h])

theorem exec_osc_capacity {s : State} (hr : s.rateBad = false) (hd : s.durationBad = false)
    (hc : (s.par.txcap : Int) < s.oscFloor) : exec .osc s = .next (s.takeFault .capacity) :=
  exec_of_firstFailing_some (by simp [checksOf, State.oscChecks, firstFailing, hr, hd, hc])

theorem exec_osc_completes {s : State} (hr : s.rateBad = false) (hd : s.durationBad = false)
    (hc : s.oscFloor ≤ (s.par.txcap : Int)) :
    exec .osc s = .next ((s.putTx s.oscSamples).putDp s.oscDp).complete :=
  exec_of_firstFailing_none (by simp [checksOf, State.oscChecks, firstFailing, hr, hd, hc])

theorem State.rateBad_eq_false_real {s : State} (hN : s.Real) : s.rateBad = false ↔ 0 < s.fs.eval := by
  rw [← Bool.not_eq_true, State.rateBad_real hN, not_le]

theorem State.durationBad_eq_false_real {s : State} (hN : s.Real) : s.durationBad = false ↔ 0 ≤ s.odur.eval := by
  rw [← Bool.not_eq_true, State.durationBad_real hN, not_lt]

/-- Over the reals, operands that pass the checks give a count of at least 0 (40 R81, R85). -/
theorem State.oscFloor_nonneg_real {s : State} (hN : s.Real) (hr : s.rateBad = false) (hd : s.durationBad = false) :
    0 ≤ s.oscFloor := by
  have hfs : 0 < s.fs.eval := (State.rateBad_eq_false_real hN).mp hr
  have hodur : 0 ≤ s.odur.eval := (State.durationBad_eq_false_real hN).mp hd
  rw [State.oscFloor_real hN]
  exact Int.floor_nonneg.mpr (mul_nonneg hfs.le hodur)

/-- A count of at least 0 is the floor itself (40 R81). -/
theorem State.oscLen_eq_oscFloor {s : State} (h : 0 ≤ s.oscFloor) : (s.oscLen : Int) = s.oscFloor :=
  Int.toNat_of_nonneg h

/-! ## What OSC reads of its operands (40 R84) -/

/-- Two states of equal parameters whose operand registers of OSC denote equal values (40 R84). -/
structure State.SameOscValues (s t : State) : Prop where
  par : s.par = t.par
  fs : s.fs.eval = t.fs.eval
  ofreq : s.ofreq.eval = t.ofreq.eval
  odur : s.odur.eval = t.odur.eval
  oamp : s.oamp.eval = t.oamp.eval
  ophase : s.ophase.eval = t.ophase.eval

theorem startPhase_congr (N : NumDomain) (W : PhaseWidth) {ph ph' : Scalar} (h : ph.eval = ph'.eval) :
    (startPhase N W ph).eval = (startPhase N W ph').eval :=
  W.hold_congr (N.frac_congr (N.turns_congr h))

/-- Lists with equal images have equal images element by element. -/
theorem apply_getElem_of_map_eq {α β : Type} {f : α → β} {xs ys : List α} (h : xs.map f = ys.map f) {i : Nat}
    (hx : i < xs.length) (hy : i < ys.length) : f xs[i] = f ys[i] :=
  calc f xs[i]
    _ = (xs.map f)[i]'(by simpa using hx) := (List.getElem_map f).symm
    _ = (ys.map f)[i]'(by simpa using hy) := List.getElem_of_eq h _
    _ = f ys[i] := List.getElem_map f

section
variable {s t : State} (h : s.SameOscValues t)
include h

theorem State.SameOscValues.rateBad_eq : s.rateBad = t.rateBad := by
  rw [Bool.eq_iff_iff, State.rateBad_iff, State.rateBad_iff, h.par, h.fs]

theorem State.SameOscValues.durationBad_eq : s.durationBad = t.durationBad := by
  rw [Bool.eq_iff_iff, State.durationBad_iff, State.durationBad_iff, h.par, h.odur]

theorem State.SameOscValues.oscFloor_eq : s.oscFloor = t.oscFloor := by
  rw [State.oscFloor_eq, State.oscFloor_eq, h.par, NumDomain.mul_congr _ h.fs h.odur]

theorem State.SameOscValues.checksOf_eq : checksOf .osc s = checksOf .osc t := by
  rw [checksOf, checksOf, State.oscChecks, State.oscChecks, h.rateBad_eq, h.durationBad_eq, h.oscFloor_eq, h.par]

theorem State.SameOscValues.oscLen_eq : s.oscLen = t.oscLen := by
  rw [State.oscLen, State.oscLen, h.oscFloor_eq]

/-- The samples denote the same numbers, whatever terms they are. -/
theorem State.SameOscValues.map_eval_oscSamples :
    s.oscSamples.map Scalar.eval = t.oscSamples.map Scalar.eval := by
  have hstep : s.oscStep.eval = t.oscStep.eval := by
    rw [State.oscStep, State.oscStep, h.par, NumDomain.div_congr _ h.ofreq h.fs]
  rw [State.oscSamples, State.oscSamples, h.par, h.oscLen_eq]
  exact toneSamples_congr _ _ h.oamp hstep _ (startPhase_congr _ _ h.ophase)

theorem State.SameOscValues.oscSamples_getElem_eval {i : Nat} (hs : i < s.oscSamples.length)
    (ht : i < t.oscSamples.length) : (s.oscSamples[i]).eval = (t.oscSamples[i]).eval :=
  apply_getElem_of_map_eq h.map_eval_oscSamples hs ht

end

/-! ## The statements -/

/-- Settles O11: over the reals the checks of OSC are R85's conditions, and its outcome is that of the first that
fails. -/
theorem oscRejects : Obligations.OscRejects := by
  intro s hN
  refine ⟨fun h => ?operand, fun hfs hodur hcap => ?capacity, fun hfs hodur hcap => ?completes⟩
  case operand =>
    exact exec_osc_operand (h.imp (State.rateBad_real hN).mpr (State.durationBad_real hN).mpr)
  all_goals
    have hr : s.rateBad = false := (State.rateBad_eq_false_real hN).mpr hfs
    have hd : s.durationBad = false := (State.durationBad_eq_false_real hN).mpr hodur
    rw [← State.oscFloor_real hN] at hcap
  case capacity => exact exec_osc_capacity hr hd hcap
  case completes => exact ⟨_, exec_osc_completes hr hd hcap, rfl, rfl⟩

/-- Settles O16: a completed OSC leaves `oscSamples` in TX, as many as its count, and the phase accumulator computes
the closed form. -/
theorem oscSamplesAreTheClosedForm : Obligations.OscSamplesAreTheClosedForm := by
  intro s hr hd hcap
  have hlen : ((s.putTx s.oscSamples).putDp s.oscDp).complete.txlen = s.oscLen := s.oscSamples_length
  refine ⟨_, exec_osc_completes hr hd hcap, rfl, rfl, fun h0 => ?floor, fun hN => ?real, fun hx i hi => ?samples⟩
  case floor => rw [hlen, State.oscLen_eq_oscFloor h0]
  case real => rw [hlen, State.oscLen_eq_oscFloor (State.oscFloor_nonneg_real hN hr hd), State.oscFloor_real hN]
  case samples =>
    rw [State.txAt_completed s _ _ hi]
    exact State.oscSamples_getElem_eval hx i hi

/-- Settles O18: OSC's checks and what its samples denote are functions of what its five operands denote. -/
theorem oscIsPure : Obligations.OscIsPure := by
  intro s s' t t' hpar hfs hofreq hodur hoamp hophase ht ht'
  have h : s.SameOscValues s' := ⟨hpar, hfs, hofreq, hodur, hoamp, hophase⟩
  obtain ⟨c, hc, rfl⟩ | ⟨hc, rfl⟩ := exec_cases ht
  all_goals rw [h.checksOf_eq] at hc
  case inl =>
    cases (exec_of_firstFailing_some hc).symm.trans ht'
    refine ⟨rfl, rfl, fun hdone => ?_⟩
    rw [State.takeFault_status] at hdone
    exact absurd hdone (by decide)
  case inr =>
    cases (exec_of_firstFailing_none hc).symm.trans ht'
    have hlen : s.oscSamples.length = s'.oscSamples.length := by simp [h.oscLen_eq]
    refine ⟨rfl, rfl, fun _ => ⟨hlen, fun i hi => ?_⟩⟩
    have hi' : i < s'.oscSamples.length := hlen ▸ hi
    rw [effectOf_osc, effectOf_osc, State.txAt_completed s _ _ hi, State.txAt_completed s' _ _ hi']
    exact h.oscSamples_getElem_eval hi hi'

end Sys2Proof.Machine

/-! The Symbol Shaper (41 R90 to R93): what SHAPE does by its check, and the samples that its tapers leave untouched;
the statements of 41_symbol_shaper on the check and on the clamp. -/

namespace Sys2Proof.Machine

open Sys2Proof

/-! ## The check of SHAPE (41 R93) -/

theorem exec_shape_capacity {s : State} (h : s.par.txcap < s.rxlen) :
    exec .shape s = .next (s.takeFault .capacity) :=
  exec_of_firstFailing_some (by simp [checksOf, State.shapeChecks, firstFailing, h])

theorem exec_shape_completes {s : State} (h : s.rxlen ≤ s.par.txcap) :
    exec .shape s = .next ((s.putTx s.shapeSamples).putDp s.shapeDp).complete :=
  exec_of_firstFailing_none (by simp [checksOf, State.shapeChecks, firstFailing, h])

/-- A completed SHAPE puts out as many samples as it takes in (41 R92). -/
theorem State.txlen_shape_completed (s : State) :
    ((s.putTx s.shapeSamples).putDp s.shapeDp).complete.txlen = s.rxlen := s.shapeSamples_length

/-! ## The samples (41 R90, R91) -/

/-- The effective taper length in R90's own order of cases. -/
theorem taperLen_eq_ite (len n : Nat) : taperLen len n = if 2 * n ≤ len then n else len / 2 := by
  unfold taperLen
  split <;> split <;> omega

/-- A sample between the two tapers has gain 1 (41 R91). -/
theorem shapeSample_of_untapered (N : NumDomain) (c : WindowChoice) {len m i : Nat} (hrise : m ≤ i)
    (hfall : i < len - m) (v : Scalar) : shapeSample N c len m i v = v := by
  have not_rising : ¬ (0 < m ∧ i < m) := fun h => absurd h.2 hrise.not_gt
  have not_falling : ¬ (0 < m ∧ len - m ≤ i) := fun h => absurd h.2 hfall.not_ge
  rw [shapeSample, if_neg not_rising, if_neg not_falling]

/-- Sample `i` of SHAPE is a function of `RX[i]` alone (41 R91, R92). -/
theorem State.shapeSamples_getElem (s : State) {i : Nat} (h : i < s.shapeSamples.length) :
    s.shapeSamples[i] =
      shapeSample s.par.num s.par.taperw s.rxlen (taperLen s.rxlen s.shpn) i (s.rxAt i) := by
  simp only [State.shapeSamples, shapeList_getElem, State.rxValid_length]
  simp [State.rxValid]

/-- A completed SHAPE copies every sample between its two tapers from RX to TX (41 R91, R92). -/
theorem State.txAt_shape_of_untapered (s : State) {i : Nat} (hrise : taperLen s.rxlen s.shpn ≤ i)
    (hfall : i < s.rxlen - taperLen s.rxlen s.shpn) :
    ((s.putTx s.shapeSamples).putDp s.shapeDp).complete.txAt i = s.rxAt i := by
  have hi : i < s.shapeSamples.length := s.shapeSamples_length.symm ▸ hfall.trans_le (Nat.sub_le _ _)
  rw [State.txAt_completed s _ _ hi, State.shapeSamples_getElem, shapeSample_of_untapered _ _ hrise hfall]

/-! ## The statements -/

/-- Settles O12: the one check of SHAPE is R93's, a failure leaves all but the flags, and a completed SHAPE has as many
samples as its input. -/
theorem shapeRejects : Obligations.ShapeRejects := by
  refine fun s => ⟨fun h => ?capacity, fun h => ?completes⟩
  case capacity => exact exec_shape_capacity h
  case completes => exact ⟨_, exec_shape_completes h, rfl, rfl, fun h0 => s.txlen_shape_completed.trans h0⟩

/-- Settles O20: twice the clamped length fits the buffer, and the samples between the tapers, which are all of them
where the length is 0, are copied. -/
theorem shapeClampsTheTaper : Obligations.ShapeClampsTheTaper := by
  intro s m hm hcap
  obtain rfl : m = taperLen s.rxlen s.shpn := hm.trans (taperLen_eq_ite _ _).symm
  refine ⟨taperLen_le _ _, rfl, _, exec_shape_completes hcap, rfl, rfl, s.txlen_shape_completed, ?unmodified, ?middle⟩
  case unmodified =>
    intro h0 i hi
    exact s.txAt_shape_of_untapered (by omega) (by omega)
  case middle =>
    intro i hrise hfall
    exact s.txAt_shape_of_untapered hrise hfall

end Sys2Proof.Machine

/-! The Modulator (42 R100 to R105): what MOD does by its checks, and sample `i` of symbol `k` in TX after it; the
statements of 42_modulator on the checks and on the symbols sent. -/

namespace Sys2Proof.Machine

open Sys2Proof

/-! ## The checks of MOD (42 R105) -/

section
variable {s : State}

theorem exec_mod_operand (hr : s.rateBad = true) : exec .mod s = .next (s.takeFault .operand) :=
  exec_of_firstFailing_some (by simp [checksOf, State.modChecks, firstFailing, hr])

theorem exec_mod_window (hr : s.rateBad = false) (hw : s.windowBad = true) :
    exec .mod s = .next (s.takeFault .cfgWindow) :=
  exec_of_firstFailing_some (by simp [checksOf, State.modChecks, firstFailing, hr, hw])

theorem exec_mod_freq (hr : s.rateBad = false) (hw : s.windowBad = false) (hf : s.freqBad = true) :
    exec .mod s = .next (s.takeFault .cfgFreq) :=
  exec_of_firstFailing_some (by simp [checksOf, State.modChecks, firstFailing, hr, hw, hf])

theorem exec_mod_capacity (hr : s.rateBad = false) (hw : s.windowBad = false) (hf : s.freqBad = false)
    (hc : s.par.txcap < s.symbolCount * s.symbolLen) : exec .mod s = .next (s.takeFault .capacity) :=
  exec_of_firstFailing_some (by simp [checksOf, State.modChecks, firstFailing, hr, hw, hf, hc])

theorem exec_mod_completes (hr : s.rateBad = false) (hw : s.windowBad = false) (hf : s.freqBad = false)
    (hc : s.symbolCount * s.symbolLen ≤ s.par.txcap) :
    exec .mod s = .next ((s.putTx s.modSamples).putDp s.modDp).complete :=
  exec_of_firstFailing_none (by simp [checksOf, State.modChecks, firstFailing, hr, hw, hf, hc])

theorem State.windowBad_eq_false_real (hN : s.Real) : s.windowBad = false ↔ 1 ≤ ⌊s.symdur.eval * s.fs.eval⌋ := by
  rw [← Bool.not_eq_true, State.windowBad_real hN, not_lt]

theorem State.freqBad_eq_false_real (hN : s.Real) : s.freqBad = false ↔
    s.f0.eval ≠ s.f1.eval ∧ s.f0.eval < s.fs.eval / 2 ∧ s.f1.eval < s.fs.eval / 2 := by
  rw [← Bool.not_eq_true, State.freqBad_real hN, not_or, not_or, not_le, not_le]

/-- Over the reals, the count that the check of CAPACITY compares is `(BILEN + 8) * floor(SYMDUR * FS)` (42 R104). -/
theorem State.modCount_real (hN : s.Real) (hw : s.windowBad = false) :
    ((s.symbolCount * s.symbolLen : ℕ) : ℤ) = (s.bilen + 8) * ⌊s.symdur.eval * s.fs.eval⌋ := by
  rw [Nat.cast_mul, State.symbolLen_real hN hw, State.symbolCount, Nat.cast_add, Nat.cast_ofNat]

end

/-! ## The samples of MOD (42 R101 to R104) -/

/-- A completed MOD puts out `L` samples for each bit of SYNC and of the payload (42 R104). -/
theorem State.txlen_mod_completed (s : State) :
    ((s.putTx s.modSamples).putDp s.modDp).complete.txlen = (s.bilen + 8) * s.symbolLen := s.modSamples_length

/-- Sample `i` of symbol `k` lies within the output (42 R104). -/
theorem State.symbol_index_lt (s : State) {k i : Nat} (hk : k < s.symbolCount) (hi : i < s.symbolLen) :
    k * s.symbolLen + i < s.modSamples.length := by
  have hL : 0 < s.symbolLen := Nat.zero_lt_of_lt hi
  rw [State.modSamples_length]
  exact window_index_lt (by rwa [Nat.mul_div_cancel _ hL]) hi

/-- After a completed MOD, sample `i` of symbol `k` is the tone of that symbol's bit, from phase 0, times the gain of
the clamped taper (42 R101 to R104). -/
theorem State.txAt_mod_eval {s : State} (hx : s.Exact) {k i : Nat} (hk : k < s.symbolCount) (hi : i < s.symbolLen) :
    (((s.putTx s.modSamples).putDp s.modDp).complete.txAt (k * s.symbolLen + i)).eval =
      toneAt (if s.symbolBit k then s.f1.eval else s.f0.eval) s.fs.eval s.amp.eval 0 i *
        gainAt s.par.taperw s.symbolLen (taperLen s.symbolLen Config.taperN) i := by
  have hsym : k < s.symbols.length := s.symbols_length.symm ▸ hk
  have hlt := s.symbol_index_lt hk hi
  rw [State.txAt_completed s _ _ hlt, State.modSamples_getElem s k i hsym hi hlt,
    State.symbolSamples_getElem_eval hx, State.symbols_val s k hsym]

/-! ## The statements -/

/-- Settles O13: over the reals the checks of MOD are R105's conditions, and its outcome is that of the first that
fails. -/
theorem modRejects : Obligations.ModRejects := by
  intro s hN
  have rate : 0 < s.fs.eval → s.rateBad = false := (State.rateBad_eq_false_real hN).mpr
  have window : 1 ≤ ⌊s.symdur.eval * s.fs.eval⌋ → s.windowBad = false := (State.windowBad_eq_false_real hN).mpr
  refine ⟨fun hfs => ?operand, fun hfs hL => ?window, fun hfs hL hbad => ?freq,
    fun hfs hL hne h0 h1 hcap => ?capacity, fun hfs hL hne h0 h1 hcap => ?completes⟩
  case operand => exact exec_mod_operand ((State.rateBad_real hN).mpr hfs)
  case window => exact exec_mod_window (rate hfs) ((State.windowBad_real hN).mpr hL)
  case freq => exact exec_mod_freq (rate hfs) (window hL) ((State.freqBad_real hN).mpr hbad)
  all_goals
    have hf : s.freqBad = false := (State.freqBad_eq_false_real hN).mpr ⟨hne, h0, h1⟩
    rw [← State.modCount_real hN (window hL)] at hcap
  case capacity => exact exec_mod_capacity (rate hfs) (window hL) hf (Int.ofNat_lt.mp hcap)
  case completes => exact ⟨_, exec_mod_completes (rate hfs) (window hL) hf (Int.ofNat_le.mp hcap), rfl, rfl⟩

/-- Settles O24: a completed MOD leaves `modSamples` in TX, the shaped tones of SYNC and of the payload one after the
other. -/
theorem modSendsSyncAndPayload : Obligations.ModSendsSyncAndPayload := by
  intro s hr hw hf hcap
  refine ⟨_, exec_mod_completes hr hw hf hcap, rfl, rfl, s.txlen_mod_completed,
    fun hN => State.symbolLen_real hN hw, fun hx k hk i hi b hb => ?samples⟩
  case samples =>
    obtain rfl : b = s.symbolBit k := hb
    rw [State.txAt_mod_eval hx hk hi, toneAt, add_zero]
    rfl

end Sys2Proof.Machine

/-! The Basic Demodulator (43 R110 to R116): what DEMODB does by its checks, and bit `k` of BO after it; the statements
of 43_basic_demodulator on the checks and on the decision. -/

namespace Sys2Proof.Machine

open Sys2Proof

/-! ## The checks of DEMODB (43 R116) -/

section
variable {s : State}

theorem exec_demodb_operand (hr : s.rateBad = true) : exec .demodb s = .next (s.takeFault .operand) :=
  exec_of_firstFailing_some (by simp [checksOf, State.basicChecks, firstFailing, hr])

theorem exec_demodb_window (hr : s.rateBad = false) (hw : s.windowBad = true) :
    exec .demodb s = .next (s.takeFault .cfgWindow) :=
  exec_of_firstFailing_some (by simp [checksOf, State.basicChecks, firstFailing, hr, hw])

theorem exec_demodb_freq (hr : s.rateBad = false) (hw : s.windowBad = false) (hf : s.freqBad = true) :
    exec .demodb s = .next (s.takeFault .cfgFreq) :=
  exec_of_firstFailing_some (by simp [checksOf, State.basicChecks, firstFailing, hr, hw, hf])

theorem exec_demodb_capacity (hr : s.rateBad = false) (hw : s.windowBad = false) (hf : s.freqBad = false)
    (hc : s.par.bocap < s.windowCount) : exec .demodb s = .next (s.takeFault .capacity) :=
  exec_of_firstFailing_some (by simp [checksOf, State.basicChecks, firstFailing, hr, hw, hf, hc])

theorem exec_demodb_completes (hr : s.rateBad = false) (hw : s.windowBad = false) (hf : s.freqBad = false)
    (hc : s.windowCount ≤ s.par.bocap) :
    exec .demodb s = .next ((s.putBo s.basicBits).putDp s.basicDp).complete :=
  exec_of_firstFailing_none (by simp [checksOf, State.basicChecks, firstFailing, hr, hw, hf, hc])

/-- Over the reals, the count that the check of CAPACITY compares is `floor(RXLEN / L)` with
`L = floor(SYMDUR * FS)` (43 R110, R116). -/
theorem State.windowCount_real (hN : s.Real) (hw : s.windowBad = false) :
    (s.windowCount : ℤ) = (s.rxlen : ℤ) / ⌊s.symdur.eval * s.fs.eval⌋ := by
  rw [State.windowCount, Int.natCast_div, State.symbolLen_real hN hw]

end

/-! ## The bits of DEMODB (43 R110 to R114) -/

/-- A completed DEMODB puts out one bit for each whole window (43 R110, R114). -/
theorem State.bolen_demodb_completed (s : State) :
    ((s.putBo s.basicBits).putDp s.basicDp).complete.bolen = s.rxlen / s.symbolLen := s.basicBits_length

/-- Only windows longer than four samples are tapered (43 R111). -/
theorem windowGainAt_eq_ite (c : WindowChoice) (len i : Nat) :
    windowGainAt c len i = if 4 < len then (winbAt .real c len i).eval else 1 := rfl

/-- After a completed DEMODB, bit `k` compares the two powers of tapered window `k` (43 R114). -/
theorem State.boAt_demodb_val {s : State} (hN : s.Real) {k : Nat} (hk : k < s.windowCount) :
    (((s.putBo s.basicBits).putDp s.basicDp).complete.boAt k).val = true ↔
      s.basicPower s.f0 k < s.basicPower s.f1 k := by
  have hlen : k < s.basicBits.length := s.basicBits_length.symm ▸ hk
  rw [State.boAt_completed s _ _ hlen, State.basicBits_getElem, State.basicBit_val hN]

/-! ## The statements -/

/-- Settles O14: over the reals the checks of DEMODB are R116's conditions, and its outcome is that of the first that
fails. -/
theorem basicRejects : Obligations.BasicRejects := by
  intro s hN
  have rate : 0 < s.fs.eval → s.rateBad = false := (State.rateBad_eq_false_real hN).mpr
  have window : 1 ≤ ⌊s.symdur.eval * s.fs.eval⌋ → s.windowBad = false := (State.windowBad_eq_false_real hN).mpr
  refine ⟨fun hfs => ?operand, fun hfs hL => ?window, fun hfs hL hbad => ?freq,
    fun hfs hL hne h0 h1 hcap => ?capacity, fun hfs hL hne h0 h1 hcap => ?completes⟩
  case operand => exact exec_demodb_operand ((State.rateBad_real hN).mpr hfs)
  case window => exact exec_demodb_window (rate hfs) ((State.windowBad_real hN).mpr hL)
  case freq => exact exec_demodb_freq (rate hfs) (window hL) ((State.freqBad_real hN).mpr hbad)
  all_goals
    have hf : s.freqBad = false := (State.freqBad_eq_false_real hN).mpr ⟨hne, h0, h1⟩
    rw [← State.windowCount_real hN (window hL)] at hcap
  case capacity => exact exec_demodb_capacity (rate hfs) (window hL) hf (Int.ofNat_lt.mp hcap)
  case completes => exact ⟨_, exec_demodb_completes (rate hfs) (window hL) hf (Int.ofNat_le.mp hcap), rfl, rfl⟩

/-- Settles O27: a completed DEMODB leaves `basicBits` in BO, and the resonators compute the powers of R112 of the
samples of each tapered window. -/
theorem basicBitsComparePowers : Obligations.BasicBitsComparePowers := by
  intro s hr hw hf hcap
  refine ⟨_, exec_demodb_completes hr hw hf hcap, rfl, rfl, s.bolen_demodb_completed,
    fun hN => State.symbolLen_real hN hw, fun hN k hk w hsample => ?bits⟩
  case bits =>
    obtain rfl : w = s.basicSample k := funext fun i => by
      rw [hsample, State.basicSample, windowGainAt_eq_ite]
    exact State.boAt_demodb_val hN (hk.trans_eq s.bolen_demodb_completed)

end Sys2Proof.Machine

/-! The Robust Demodulator (44 R125 to R134): what DEMODR does by its checks, the samples it normalises, and bit `k` of
BO after it; the statements of 44_robust_demodulator on the checks, the decision, the peak and the ratio. -/

namespace Sys2Proof.Machine

open Sys2Proof

/-! ## The checks of DEMODR (44 R134) -/

section
variable {s : State}

theorem exec_demodr_operand (hr : s.rateBad = true) : exec .demodr s = .next (s.takeFault .operand) :=
  exec_of_firstFailing_some (by simp [checksOf, State.robustChecks, firstFailing, hr])

theorem exec_demodr_window (hr : s.rateBad = false) (hw : s.windowBad = true) :
    exec .demodr s = .next (s.takeFault .cfgWindow) :=
  exec_of_firstFailing_some (by simp [checksOf, State.robustChecks, firstFailing, hr, hw])

theorem exec_demodr_freq (hr : s.rateBad = false) (hw : s.windowBad = false) (hf : s.freqBad = true) :
    exec .demodr s = .next (s.takeFault .cfgFreq) :=
  exec_of_firstFailing_some (by simp [checksOf, State.robustChecks, firstFailing, hr, hw, hf])

/-! The checks that only DEMODR has follow those of rate, window and frequency. -/

section
variable (hr : s.rateBad = false) (hw : s.windowBad = false) (hf : s.freqBad = false)
include hr hw hf

theorem exec_demodr_ratio (hq : s.ratioBad = true) : exec .demodr s = .next (s.takeFault .cfgRatio) :=
  exec_of_firstFailing_some (by simp [checksOf, State.robustChecks, firstFailing, hr, hw, hf, hq])

theorem exec_demodr_band (hq : s.ratioBad = false) (hb : s.bandBad = true) :
    exec .demodr s = .next (s.takeFault .cfgBand) :=
  exec_of_firstFailing_some (by simp [checksOf, State.robustChecks, firstFailing, hr, hw, hf, hq, hb])

theorem exec_demodr_capacity (hq : s.ratioBad = false) (hb : s.bandBad = false)
    (hc : s.par.bocap < s.windowCount) : exec .demodr s = .next (s.takeFault .capacity) :=
  exec_of_firstFailing_some (by simp [checksOf, State.robustChecks, firstFailing, hr, hw, hf, hq, hb, hc])

theorem exec_demodr_completes (hq : s.ratioBad = false) (hb : s.bandBad = false)
    (hc : s.windowCount ≤ s.par.bocap) :
    exec .demodr s = .next ((s.putBo s.robustBits).putDp s.robustDp).complete :=
  exec_of_firstFailing_none (by simp [checksOf, State.robustChecks, firstFailing, hr, hw, hf, hq, hb, hc])

end

theorem State.ratioBad_eq_false_real (hN : s.Real) : s.ratioBad = false ↔ s.rlo.eval < s.rhi.eval := by
  rw [← Bool.not_eq_true, State.ratioBad_real hN, not_not]

/-- Over the reals, the check of CFG_BAND fails when a band is empty or reaches half the sample rate (44 R128, R134). -/
theorem State.bandBad_real (hN : s.Real) : s.bandBad = true ↔ ∃ f ∈ [s.f0.eval, s.f1.eval],
    ¬ max 50 (f - s.bw.eval) < f + s.bw.eval ∨ ¬ f + s.bw.eval < s.fs.eval / 2 := by
  simp only [State.bandBad, Bool.or_eq_true, State.bandBadAt_real hN, List.exists_mem_cons_iff, List.mem_singleton,
    exists_eq_left]

end

/-! ## The normalised buffer (44 R126, R127) -/

/-- DEMODR writes nothing of RX, whether it completes or is rejected (10 R32, 20 R53). -/
theorem exec_demodr_rx {s t : State} (h : exec .demodr s = .next t) : t.rx = s.rx := by
  obtain ⟨c, -, rfl⟩ | ⟨-, rfl⟩ := exec_cases h
  · exact State.takeFault_rx s c
  · rw [effectOf_demodr, State.complete_rx, State.putDp_rx, State.putBo_rx]

/-- Element `j` of the block's window `k` is the normalised sample `k*L + j` (44 R126, R127). -/
theorem State.robustWindow_getD_eval {s : State} (hN : s.Real) (k : Nat) {j : Nat} (hj : j < s.symbolLen) :
    ((s.robustWindow k).getD j (.rat 0)).eval = s.normalSample s.robustPeak.eval (k * s.symbolLen + j) := by
  have hlen : j < (s.robustWindow k).length := (s.robustWindow_length k).symm ▸ hj
  rw [List.getD_eq_getElem _ _ hlen, State.robustWindow_getElem_eval hN]

/-- A peak of 0 leaves every sample as it is (44 R126). -/
theorem State.normalSample_zero (s : State) (j : Nat) : s.normalSample 0 j = (s.rxAt j).eval := if_pos rfl

/-- Division by a positive peak scales absolute values (44 R126). -/
theorem State.abs_normalSample (s : State) {p : ℝ} (hp : 0 < p) (j : Nat) :
    |s.normalSample p j| = |(s.rxAt j).eval| / p := by
  rw [State.normalSample, if_neg hp.ne', abs_div, abs_of_pos hp]

section
variable {s : State} {p : ℝ} (h : s.IsPeak p)
include h

theorem State.IsPeak.eq_zero_of_empty (hlen : s.rxlen = 0) : p = 0 := by
  obtain ⟨-, -, h0 | ⟨i, hi, -⟩⟩ := h
  · exact h0
  · exact absurd (hlen ▸ hi) i.not_lt_zero

theorem State.IsPeak.pos_of_ne_zero (hp : p ≠ 0) : 0 < p := lt_of_le_of_ne h.1 hp.symm

/-- A buffer of peak 0 is silent, normalised or not (44 R126). -/
theorem State.IsPeak.normalSample_eq_zero (hp : p = 0) {j : Nat} (hj : j < s.rxlen) : s.normalSample p j = 0 := by
  subst hp
  obtain ⟨-, bound, -⟩ := h
  rw [State.normalSample_zero]
  exact abs_nonpos_iff.mp (bound j hj)

/-- Some normalised sample reaches 1 unless the peak is 0 (44 R126). -/
theorem State.IsPeak.exists_abs_normalSample_eq_one (hp : p ≠ 0) : ∃ j < s.rxlen, |s.normalSample p j| = 1 := by
  have hpos : 0 < p := h.pos_of_ne_zero hp
  obtain ⟨-, -, h0 | ⟨i, hi, attained⟩⟩ := h
  · exact absurd h0 hp
  · exact ⟨i, hi, by rw [s.abs_normalSample hpos, attained, div_self hp]⟩

/-- No normalised sample exceeds 1 in absolute value (44 R126). -/
theorem State.IsPeak.abs_normalSample_le_one {j : Nat} (hj : j < s.rxlen) : |s.normalSample p j| ≤ 1 := by
  by_cases hp : p = 0
  · rw [h.normalSample_eq_zero hp hj, abs_zero]
    exact zero_le_one
  · have hpos : 0 < p := h.pos_of_ne_zero hp
    obtain ⟨-, bound, -⟩ := h
    rw [s.abs_normalSample hpos]
    exact (div_le_one hpos).mpr (bound j hj)

end

/-! ## Energy and ratio (44 R130, R131) -/

/-- Over the reals, the energy the block computes is at least 0 (44 R130, R131). -/
theorem State.robustEnergy_nonneg {s : State} (hN : s.Real) (f : Scalar) (k : Nat) : 0 ≤ (s.robustEnergy f k).eval := by
  rw [State.robustEnergy_eval hN]
  exact s.bandEnergy_nonneg _ _ _

/-- The ratio the block computes, from the energies it computes (44 R131). -/
theorem State.robustRatio_eval_energies {s : State} (hN : s.Real) (k : Nat) : (s.robustRatio k).eval =
    (s.robustEnergy s.f1 k).eval /
      ((s.robustEnergy s.f0 k).eval + (s.robustEnergy s.f1 k).eval + s.par.eps.eval) := by
  rw [State.robustRatio, hN, ratioOf_eval]

theorem State.robustRatio_range {s : State} (hN : s.Real) (heps : 0 < s.par.eps.eval) (k : Nat) :
    0 ≤ (s.robustRatio k).eval ∧ (s.robustRatio k).eval < 1 := by
  rw [State.robustRatio, hN]
  exact ratioOf_range _ _ _ (State.robustEnergy_nonneg hN _ k) (State.robustEnergy_nonneg hN _ k) heps

/-- EPS pulls the ratio of a window with energy in band 1 down (44 R131). -/
theorem State.robustRatio_lt {s : State} (hN : s.Real) (heps : 0 < s.par.eps.eval) (k : Nat)
    (hpos : 0 < (s.robustEnergy s.f1 k).eval) : (s.robustRatio k).eval <
      (s.robustEnergy s.f1 k).eval / ((s.robustEnergy s.f0 k).eval + (s.robustEnergy s.f1 k).eval) := by
  rw [State.robustRatio_eval_energies hN]
  have hsum : 0 < (s.robustEnergy s.f0 k).eval + (s.robustEnergy s.f1 k).eval :=
    add_pos_of_nonneg_of_pos (State.robustEnergy_nonneg hN _ k) hpos
  exact div_lt_div_of_pos_left hpos hsum (lt_add_of_pos_right _ heps)

/-! ## The bits of DEMODR (44 R132, R133) -/

/-- A completed DEMODR puts out one bit for each whole window (44 R127, R132). -/
theorem State.bolen_demodr_completed (s : State) :
    ((s.putBo s.robustBits).putDp s.robustDp).complete.bolen = s.rxlen / s.symbolLen := s.robustBits_length

open Classical in
/-- After a completed DEMODR, bit `k` is 1 above RHI, 0 below RLO, and otherwise the bit before it, 0 before the first
window (44 R132, R133). -/
theorem State.boAt_demodr_val {s t : State} (hN : s.Real)
    (ht : t = ((s.putBo s.robustBits).putDp s.robustDp).complete) {k : Nat} (hk : k < s.windowCount) :
    (t.boAt k).val =
      if s.rhi.eval < s.bandRatio s.robustPeak.eval k then true
      else if s.bandRatio s.robustPeak.eval k < s.rlo.eval then false
      else if k = 0 then false else (t.boAt (k - 1)).val := by
  subst ht
  have hlen : k < s.robustBits.length := s.robustBits_length.symm ▸ hk
  rw [State.boAt_completed s _ _ hlen, State.boAt_completed s _ _ ((Nat.sub_le k 1).trans_lt hlen),
    State.robustBits_getElem, Bit.val_hystOf, State.robustRatio_eval hN, hN, apply_dite Bit.val]
  rfl

/-! ## The statements -/

/-- Settles O15: over the reals the checks of DEMODR are R134's conditions, and its outcome is that of the first that
fails. -/
theorem robustRejects : Obligations.RobustRejects := by
  intro s hN badBand hband
  rw [← State.bandBad_real hN] at hband
  have rate : 0 < s.fs.eval → s.rateBad = false := (State.rateBad_eq_false_real hN).mpr
  have window : 1 ≤ ⌊s.symdur.eval * s.fs.eval⌋ → s.windowBad = false := (State.windowBad_eq_false_real hN).mpr
  have ratio : s.rlo.eval < s.rhi.eval → s.ratioBad = false := (State.ratioBad_eq_false_real hN).mpr
  have band : ¬ badBand → s.bandBad = false := fun hb => Bool.eq_false_iff.mpr (mt hband.mpr hb)
  refine ⟨fun hfs => ?operand, fun hfs hL => ?window, fun hfs hL hbad => ?freq, fun hfs hL hne h0 h1 => ?later⟩
  case operand => exact exec_demodr_operand ((State.rateBad_real hN).mpr hfs)
  case window => exact exec_demodr_window (rate hfs) ((State.windowBad_real hN).mpr hL)
  case freq => exact exec_demodr_freq (rate hfs) (window hL) ((State.freqBad_real hN).mpr hbad)
  case later =>
    have hr := rate hfs
    have hw := window hL
    have hf : s.freqBad = false := (State.freqBad_eq_false_real hN).mpr ⟨hne, h0, h1⟩
    rw [← State.windowCount_real hN hw]
    refine ⟨fun hq => ?ratio, fun hq hb => ?band, fun hq hb hcap => ?capacity, fun hq hb hcap => ?completes⟩
    case ratio => exact exec_demodr_ratio hr hw hf ((State.ratioBad_real hN).mpr hq.not_gt)
    case band => exact exec_demodr_band hr hw hf (ratio hq) (hband.mp hb)
    case capacity => exact exec_demodr_capacity hr hw hf (ratio hq) (band hb) (Int.ofNat_lt.mp hcap)
    case completes =>
      exact ⟨_, exec_demodr_completes hr hw hf (ratio hq) (band hb) (Int.ofNat_le.mp hcap), rfl, rfl⟩

/-- Settles O31: a completed DEMODR leaves `robustBits` in BO, and a buffer has one peak, so the ratio it decides by is
R131's for that peak. -/
theorem robustBitsFollowTheRatio : Obligations.RobustBitsFollowTheRatio := by
  intro s hr hw hf hq hb hcap
  refine ⟨_, exec_demodr_completes hr hw hf hq hb hcap, rfl, rfl, s.bolen_demodr_completed,
    fun hN => State.symbolLen_real hN hw, fun hN p hp k hk => ?bits⟩
  case bits =>
    obtain rfl : p = s.robustPeak.eval := State.isPeak_unique hp (State.robustPeak_isPeak hN)
    rw [State.boAt_demodr_val hN rfl (hk.trans_eq s.bolen_demodr_completed)]
    refine ⟨fun above => ?one, fun hhi below => ?zero, fun hhi hlo => ?dead⟩
    case one => rw [if_pos above]
    case zero => rw [if_neg hhi.not_gt, if_pos below]
    case dead => rw [if_neg hhi.not_gt, if_neg hlo.not_gt]

/-- Settles O32: the block's PEAK is the buffer's peak, and each window holds the samples normalised by it. -/
theorem robustNormalisesByThePeak : Obligations.RobustNormalisesByThePeak := by
  intro s hN
  have hp : s.IsPeak s.robustPeak.eval := State.robustPeak_isPeak hN
  refine ⟨fun t => exec_demodr_rx, _, rfl, hp, hp.eq_zero_of_empty, fun k j hj => ?elements, fun k j hj hlt => ?bound,
    fun j => hp.abs_normalSample_le_one, hp.exists_abs_normalSample_eq_one, fun h0 j => hp.normalSample_eq_zero h0⟩
  case elements => exact State.robustWindow_getD_eval hN k hj
  case bound =>
    rw [State.robustWindow_getD_eval hN k hj]
    exact hp.abs_normalSample_le_one hlt

/-- Settles O35: the energies are at least 0, so with EPS > 0 the denominator is positive and exceeds the numerator. -/
theorem ratioIsAFraction : Obligations.RatioIsAFraction := by
  rintro s k _ _ _ hN heps rfl rfl rfl
  have formula := State.robustRatio_eval_energies hN k
  have nonneg0 : 0 ≤ (s.robustEnergy s.f0 k).eval := State.robustEnergy_nonneg hN s.f0 k
  have nonneg1 : 0 ≤ (s.robustEnergy s.f1 k).eval := State.robustEnergy_nonneg hN s.f1 k
  obtain ⟨ratio_nonneg, ratio_lt_one⟩ := State.robustRatio_range hN heps k
  refine ⟨formula, nonneg0, nonneg1, le_add_of_nonneg_left (add_nonneg nonneg0 nonneg1), ratio_nonneg, ratio_lt_one,
    fun _ h1 => ?silent, State.robustRatio_lt hN heps k⟩
  case silent => rw [formula, h1, zero_div]

end Sys2Proof.Machine

/-! Block faults (60 R155, R156, R165 to R167): a write of CMD takes a fault or completes, and empty input is no fault;
the statements of 60_exceptions on both. -/

namespace Sys2Proof.Machine

open Sys2Proof

/-! ## The outcome of a write of CMD (60 R155, R165) -/

/-- A write of CMD takes one of the seven faults on the state that holds the Byte, or it runs a command that completes
(60 R155, R156, R165). -/
theorem runCommand_outcome {b : Byte} {s t : State} (h : runCommand b s = .next t) :
    (∃ c, t = (s.storeCmd b).takeFault c ∧ 1 ≤ (causeCode c).toNat ∧ (causeCode c).toNat ≤ 7) ∨
      ∃ i, t = (effectOf i (s.storeCmd b)).complete := by
  obtain ⟨i, -, hi⟩ | ⟨-, rfl⟩ := runCommand_cases h
  case inr => exact .inl ⟨.illegalCmd, rfl, by decide, by decide⟩
  case inl =>
    obtain ⟨c, hc, rfl⟩ | ⟨-, rfl⟩ := exec_cases hi
    · obtain ⟨code_pos, code_le_six⟩ := checksOf_cause hc
      exact .inl ⟨c, rfl, code_pos, code_le_six.trans (Nat.le_succ 6)⟩
    · exact .inr ⟨i, rfl⟩

/-! ## The counts of empty input (60 R167) -/

/-- A zero floor of the product of the operands gives no sample (40 R81, R86). -/
theorem State.oscLen_eq_zero {s : State} (h : s.oscFloor = 0) : s.oscLen = 0 := by
  rw [State.oscLen, h, Int.toNat_zero]

/-- Fewer samples than one window are no complete window (43 R110, R117). -/
theorem State.windowCount_eq_zero {s : State} (h : s.rxlen < s.symbolLen) : s.windowCount = 0 := Nat.div_eq_of_lt h

/-- A completed OSC puts out as many samples as its count (40 R81). -/
theorem State.txlen_osc_completed (s : State) :
    ((s.putTx s.oscSamples).putDp s.oscDp).complete.txlen = s.oscLen := s.oscSamples_length

/-! ## The statements -/

/-- Settles O7: a write of CMD that does not complete takes a fault, and a fault writes STATUS and CAUSE alone. -/
theorem faultChangesStatusAndCauseOnly : Obligations.FaultChangesStatusAndCauseOnly := by
  intro s t w h hnot
  obtain ⟨c, rfl, hcode⟩ | ⟨i, rfl⟩ := runCommand_outcome ((transact_wr_cmd w s).symm.trans h)
  · exact ⟨rfl, hcode⟩
  · exact absurd rfl hnot

/-- Settles O10: an empty input makes the output's count 0 (MOD: the eight symbols of SYNC), which every capacity
holds, so a command whose other checks hold completes. -/
theorem emptyInputCompletes : Obligations.EmptyInputCompletes := by
  refine fun s => ⟨fun hr hd hzero => ?osc, fun hzero => ?shape, fun hr hw hf hzero hcap => ?mod,
    fun hr hw hf hshort => ?demodb, fun hr hw hf hq hb hshort => ?demodr⟩
  case osc =>
    have hcap : s.oscFloor ≤ (s.par.txcap : Int) := hzero ▸ Int.natCast_nonneg _
    exact ⟨_, exec_osc_completes hr hd hcap, rfl, s.txlen_osc_completed.trans (State.oscLen_eq_zero hzero)⟩
  case shape =>
    have hcap : s.rxlen ≤ s.par.txcap := hzero ▸ Nat.zero_le _
    exact ⟨_, exec_shape_completes hcap, rfl, s.txlen_shape_completed.trans hzero⟩
  case mod =>
    have hsync : s.symbolCount = 8 := congrArg (· + 8) hzero
    refine ⟨_, exec_mod_completes hr hw hf (hsync ▸ hcap), rfl, ?_⟩
    calc ((s.putTx s.modSamples).putDp s.modDp).complete.txlen
        _ = s.symbolCount * s.symbolLen := s.txlen_mod_completed
        _ = 8 * s.symbolLen := by rw [hsync]
  case demodb =>
    have hzero := State.windowCount_eq_zero hshort
    have hcap : s.windowCount ≤ s.par.bocap := hzero ▸ Nat.zero_le _
    exact ⟨_, exec_demodb_completes hr hw hf hcap, rfl, s.bolen_demodb_completed.trans hzero⟩
  case demodr =>
    have hzero := State.windowCount_eq_zero hshort
    have hcap : s.windowCount ≤ s.par.bocap := hzero ▸ Nat.zero_le _
    exact ⟨_, exec_demodr_completes hr hw hf hq hb hcap, rfl, s.bolen_demodr_completed.trans hzero⟩

end Sys2Proof.Machine

/-! The outcome of a command, read from STATUS, and what the checks of a completed command say; the invariant, at reset
and through a step (10 R14, R22, R24, R30, 20 R40 to R42). -/

namespace Sys2Proof.Machine

open Sys2Proof

/-! ## The outcome of a command by STATUS (60 R155, R165, R166) -/

theorem State.takeFault_not_done (s : State) (c : Cause) : (s.takeFault c).status ≠ 0x01#8 := by
  rw [State.takeFault_status]
  decide

/-- A command that sets DONE failed no check and had its effect (10 R14, 60 R155). -/
theorem exec_completed {i : Instr} {s t : State} (h : exec i s = .next t) (hdone : t.status = 0x01#8) :
    firstFailing (checksOf i s) = none ∧ t = (effectOf i s).complete := by
  obtain ⟨c, -, rfl⟩ | completed := exec_cases h
  · exact absurd hdone (s.takeFault_not_done c)
  · exact completed

/-! ## What the checks say when none fails (60 R164) -/

section
variable {s : State}

theorem firstFailing_osc_none_iff : firstFailing (checksOf .osc s) = none ↔
    (s.rateBad = false ∧ s.durationBad = false) ∧ s.oscFloor ≤ (s.par.txcap : Int) := by
  simp [firstFailing_none_iff, checksOf, State.oscChecks]

theorem firstFailing_shape_none_iff : firstFailing (checksOf .shape s) = none ↔ s.rxlen ≤ s.par.txcap := by
  simp [firstFailing_none_iff, checksOf, State.shapeChecks]

theorem firstFailing_mod_none_iff : firstFailing (checksOf .mod s) = none ↔
    s.rateBad = false ∧ s.windowBad = false ∧ s.freqBad = false ∧ s.symbolCount * s.symbolLen ≤ s.par.txcap := by
  simp [firstFailing_none_iff, checksOf, State.modChecks]

theorem firstFailing_demodb_none_iff : firstFailing (checksOf .demodb s) = none ↔
    s.rateBad = false ∧ s.windowBad = false ∧ s.freqBad = false ∧ s.windowCount ≤ s.par.bocap := by
  simp [firstFailing_none_iff, checksOf, State.basicChecks]

theorem firstFailing_demodr_none_iff : firstFailing (checksOf .demodr s) = none ↔
    s.rateBad = false ∧ s.windowBad = false ∧ s.freqBad = false ∧ s.ratioBad = false ∧ s.bandBad = false ∧
      s.windowCount ≤ s.par.bocap := by
  simp [firstFailing_none_iff, checksOf, State.robustChecks]

end

/-! ## The invariant through each update of the state -/

section
variable {s : State} (h : Inv s)
include h

theorem Inv.takeFault {c : Cause} (hc : 1 ≤ (causeCode c).toNat ∧ (causeCode c).toNat ≤ 7) : Inv (s.takeFault c) :=
  { h with statusOk := .inr (.inr ⟨rfl, hc⟩) }

theorem Inv.complete : Inv s.complete := { h with statusOk := .inr (.inl ⟨rfl, rfl⟩) }

/-- Output within the capacity, written from index 0, keeps TX canonical and empty above TXLEN (20 R42). -/
theorem Inv.putTx {xs : List Scalar} (hcap : xs.length ≤ s.par.txcap) : Inv (s.putTx xs) :=
  { h with
    memWf := State.memWf_putTx h.memWf xs
    txCells := fun _ hc => Mem.mem_replace hc
    txBound := hcap }

/-- Output within the capacity, written from index 0, keeps BO canonical and empty above BOLEN (20 R42). -/
theorem Inv.putBo {bs : List Bit} (hcap : bs.length ≤ s.par.bocap) : Inv (s.putBo bs) :=
  { h with
    memWf := State.memWf_putBo h.memWf bs
    boCells := fun _ hc => Mem.mem_replace hc
    boBound := hcap }

theorem Inv.putDp {d : Datapath}
    (hphi : s.par.num = .real ∨ s.par.phw ≠ .exact → 0 ≤ d.phi.eval ∧ d.phi.eval < 1) : Inv (s.putDp d) :=
  { h with phiRange := hphi }

theorem Inv.answer (v : Value) : Inv (s.answer v) := { h with }

theorem Inv.storeCmd (b : Byte) : Inv (s.storeCmd b) := { h with }

theorem Inv.putScript (ts : List Txn) : Inv (s.putScript ts) := { h with }

/-- A register write within the bound of a length register (10 R22). -/
theorem Inv.setReg {r : Reg} {v : Value} (hlen : lengthWithin s r v = true) : Inv (s.setReg r v) := by
  obtain ⟨hrx, hbi⟩ := s.setReg_lengths r v hlen
  constructor
  case rxBound =>
    rw [State.setReg_par]
    exact hrx.elim (fun e => e.trans_le h.rxBound) id
  case biBound =>
    rw [State.setReg_par]
    exact hbi.elim (fun e => e.trans_le h.biBound) id
  case memWf => simpa [State.memWf] using h.memWf
  case txCells => simpa using h.txCells
  case rxCells => simpa using h.rxCells
  case biCells => simpa using h.biCells
  case boCells => simpa using h.boCells
  case txBound => simpa using h.txBound
  case boBound => simpa using h.boBound
  case statusOk => simpa [State.StatusOk] using h.statusOk
  case phiRange => simpa using h.phiRange
  case epsPos => simpa using h.epsPos

/-- A store to an element that exists (20 R40, R41). -/
theorem Inv.setElement {m : MemId} {i : Nat} {v : Value} (hi : i < s.capacity m) : Inv (s.setElement m i v) := by
  have hwf := State.memWf_setElement h.memWf m i v
  obtain e | ⟨x, rfl, -, e⟩ | ⟨b, rfl, -, e⟩ := s.setElement_cases m i v
  · rw [e]
    exact h
  · rw [e] at hwf ⊢
    exact { h with memWf := hwf, rxCells := fun c hc => (Mem.mem_write hc).elim (fun e => e ▸ hi) (h.rxCells c) }
  · rw [e] at hwf ⊢
    exact { h with memWf := hwf, biCells := fun c hc => (Mem.mem_write hc).elim (fun e => e ▸ hi) (h.biCells c) }

/-! ## The invariant through a step -/

/-- A command that passes its checks has an output within the capacity and leaves PHI a fraction of a turn. -/
theorem Inv.effectOf {i : Instr} (hpass : firstFailing (checksOf i s) = none) : Inv (effectOf i s) := by
  cases i with
  | osc =>
    have hcap : s.oscFloor ≤ (s.par.txcap : Int) := (firstFailing_osc_none_iff.mp hpass).2
    exact (h.putTx (s.oscSamples_length.trans_le (Int.toNat_le.mpr hcap))).putDp State.oscDp_phi_range
  | shape =>
    have hcap := firstFailing_shape_none_iff.mp hpass
    exact (h.putTx (s.shapeSamples_length.trans_le hcap)).putDp h.phiRange
  | mod =>
    obtain ⟨-, -, -, hcap⟩ := firstFailing_mod_none_iff.mp hpass
    exact (h.putTx (s.modSamples_length.trans_le hcap)).putDp State.modDp_phi_range
  | demodb =>
    obtain ⟨-, -, -, hcap⟩ := firstFailing_demodb_none_iff.mp hpass
    exact (h.putBo (s.basicBits_length.trans_le hcap)).putDp (s.basicDp_phi ▸ h.phiRange)
  | demodr =>
    obtain ⟨-, -, -, -, -, hcap⟩ := firstFailing_demodr_none_iff.mp hpass
    exact (h.putBo (s.robustBits_length.trans_le hcap)).putDp (s.robustDp_phi ▸ h.phiRange)

theorem Inv.exec {i : Instr} {t : State} (ht : exec i s = .next t) : Inv t := by
  obtain ⟨c, hc, rfl⟩ | ⟨hpass, rfl⟩ := exec_cases ht
  · obtain ⟨code_pos, code_le_six⟩ := checksOf_cause hc
    exact h.takeFault ⟨code_pos, code_le_six.trans (Nat.le_succ 6)⟩
  · exact (h.effectOf hpass).complete

theorem Inv.runCommand {b : Byte} {t : State} (ht : runCommand b s = .next t) : Inv t := by
  obtain ⟨i, -, hi⟩ | ⟨-, rfl⟩ := runCommand_cases ht
  · exact (h.storeCmd b).exec hi
  · exact (h.storeCmd b).takeFault (by decide)

theorem Inv.transact {x : Txn} {t : State} (ht : transact x s = .next t) : Inv t := by
  obtain ⟨-, ⟨r, v, -, hw⟩ | ⟨v, rfl⟩ | ⟨m, i, v, -, hi, rfl⟩⟩ := transact_cases ht
  · obtain ⟨-, rfl⟩ | ⟨b, -, -, hb⟩ | ⟨reg, -, hlen, rfl⟩ := hostWrite_cases hw
    · exact h
    · exact h.runCommand hb
    · exact h.setReg hlen
  · exact h.answer v
  · exact h.setElement hi

end

/-! ## The statements -/

/-- Settles O55: at reset every memory and length is empty, PHI is 0, and EPS is the default. -/
theorem resetMeetsInv : Obligations.ResetMeetsInv where
  memWf := State.memWf_reset
  txCells := by decide
  rxCells := by decide
  biCells := by decide
  boCells := by decide
  txBound := Nat.zero_le _
  rxBound := Nat.zero_le _
  biBound := Nat.zero_le _
  boBound := Nat.zero_le _
  statusOk := .inl ⟨rfl, rfl⟩
  phiRange := fun _ => by simp [State.reset, Datapath.reset]
  epsPos := by
    have hpos : (0 : ℚ) < Config.epsDefault := by decide
    exact Rat.cast_pos.mpr hpos

/-- Settles O56: a step is nothing or the next transaction of the script, and each update of the state that a
transaction makes keeps the invariant. -/
theorem stepKeepsInv : Obligations.StepKeepsInv := by
  intro s t h ht
  obtain ⟨-, rfl⟩ | ⟨x, xs, -, hx⟩ := step_cases ht
  · exact h
  · exact (h.putScript xs).transact hx

end Sys2Proof.Machine

/-! The flags, the causes and what each check asks (60 R156 to R164, 10 R14, R15); the statements of 60_exceptions on
them. -/

namespace Sys2Proof.Machine

open Sys2Proof

/-! ## Every write of CMD answers (60 R155) -/

theorem runCommand_answers (b : Byte) (s : State) : ∃ t, runCommand b s = .next t := by
  unfold runCommand
  split
  · exact exec_answers _ _
  · exact ⟨_, rfl⟩

@[simp] theorem State.takeFault_done (s : State) (c : Cause) : (s.takeFault c).done = false := by simp [State.done]

@[simp] theorem State.takeFault_err (s : State) (c : Cause) : (s.takeFault c).err = true := by simp [State.err]

@[simp] theorem State.complete_done (s : State) : s.complete.done = true := by simp [State.done]

@[simp] theorem State.complete_err (s : State) : s.complete.err = false := by simp [State.err]

/-- No code uses the reserved bits of CAUSE (10 R15, 60 R156). -/
theorem causeCode_reserved (c : Cause) : (causeCode c).extractLsb' 3 5 = 0#5 := by
  cases c <;> rfl

/-- STATUS and CAUSE are no operand: a command's checks and its effect are the same whatever they hold (10 R32). -/
theorem exec_flags (i : Instr) (s : State) (a b : Byte) : exec i { s with status := a, cause := b } = exec i s := by
  have checks : checksOf i { s with status := a, cause := b } = checksOf i s := by cases i <;> rfl
  have effect : (effectOf i { s with status := a, cause := b }).complete = (effectOf i s).complete := by
    cases i <;> rfl
  cases hc : firstFailing (checksOf i s) with
  | some c => rw [exec_of_firstFailing_some hc, exec_of_firstFailing_some (checks ▸ hc)]; rfl
  | none => rw [exec_of_firstFailing_none hc, exec_of_firstFailing_none (checks ▸ hc), effect]

/-! ## CAUSE as the code of the first failing check (60 R164) -/

/-- The code that CAUSE takes of the first failing check, 0 where none fails (60 R156, R164). -/
def firstCode (cs : List (Bool × Cause)) : Byte := (firstFailing cs).elim 0x00#8 causeCode

@[simp] theorem firstCode_nil : firstCode [] = 0x00#8 := rfl

@[simp] theorem firstCode_cons (b : Bool) (c : Cause) (cs : List (Bool × Cause)) :
    firstCode ((b, c) :: cs) = if b then causeCode c else firstCode cs := by
  cases b <;> rfl

theorem exec_cause {i : Instr} {s t : State} (h : exec i s = .next t) : t.cause = firstCode (checksOf i s) := by
  obtain ⟨c, hc, rfl⟩ | ⟨hc, rfl⟩ := exec_cases h <;> rw [firstCode, hc] <;> rfl

/-! ## The statements -/

/-- Settles O8: a write of CMD takes one of the seven faults or completes, and each of the two writes both flags. -/
theorem flagsTellTheOutcome : Obligations.FlagsTellTheOutcome := by
  refine ⟨fun s w => ?outcome, fun s a b i => exec_flags i s a b⟩
  case outcome =>
    obtain ⟨t, ht⟩ := runCommand_answers w s
    refine ⟨t, (transact_wr_cmd w s).trans ht, ?_⟩
    obtain ⟨c, rfl, hcode⟩ | ⟨i, rfl⟩ := runCommand_outcome ht
    · exact ⟨.inr ⟨by simp, by simp, hcode⟩, by simp, causeCode_reserved c⟩
    · exact ⟨.inl ⟨by simp, by simp, rfl⟩, by simp, by simp⟩

/-- Settles O9: CAUSE is the code of the first failing check, and each command lists its checks in R164's order. -/
theorem firstFailingCheckGivesTheCause : Obligations.FirstFailingCheckGivesTheCause := by
  refine fun s => ⟨fun t h => ?osc, fun t h => ?shape, fun t h => ?mod, fun t h => ?demodb, fun t h => ?demodr⟩
  all_goals rw [exec_cause h]
  case osc => simp only [checksOf, State.oscChecks, firstCode_cons, decide_eq_true_eq]; rfl
  case shape => simp only [checksOf, State.shapeChecks, firstCode_cons, decide_eq_true_eq]; rfl
  case mod => simp only [checksOf, State.modChecks, firstCode_cons, decide_eq_true_eq]; rfl
  case demodb => simp only [checksOf, State.basicChecks, firstCode_cons, decide_eq_true_eq]; rfl
  case demodr => simp only [checksOf, State.robustChecks, firstCode_cons, decide_eq_true_eq]; rfl

/-- Settles O57: each check compares what its registers denote in the block's number domain, and a completed OSC has
as many samples as its count. -/
theorem checksAskTheNumberDomain : Obligations.ChecksAskTheNumberDomain := by
  rintro s _ rfl
  refine ⟨s.rateBad_iff, s.durationBad_iff, s.oscFloor_eq, ?window, s.symbolFloor_eq, rfl, fun t h hdone => ?txlen,
    ?freq, s.ratioBad_iff, ?band, fun hN x y => ?real⟩
  case window => rw [s.windowBad_iff, s.symbolFloor_eq]
  case txlen =>
    obtain ⟨-, rfl⟩ := exec_completed h hdone
    exact s.txlen_osc_completed
  case freq =>
    rw [s.freqBad_iff]
    simp [State.nyquist]
  case band =>
    rw [State.bandBad, Bool.or_eq_true, s.bandBadAt_iff, s.bandBadAt_iff]
    simp [State.nyquist]
  case real =>
    rw [hN]
    exact ⟨Iff.rfl, Iff.rfl, rfl⟩

end Sys2Proof.Machine

/-! A step and the Byte of a command (20 R48, 30 R60, R61, 70 R191); the statements on the script, on the decoder and on
register numbers. -/

namespace Sys2Proof.Machine

open Sys2Proof

/-! ## What a transaction leaves of the script and of the values returned -/

@[simp] theorem effectOf_script (i : Instr) (s : State) : (effectOf i s).script = s.script := by
  obtain ⟨xs, d, h⟩ | ⟨bs, d, h⟩ := effectOf_cases i s <;> simp [h]

@[simp] theorem effectOf_returned (i : Instr) (s : State) : (effectOf i s).returned = s.returned := by
  obtain ⟨xs, d, h⟩ | ⟨bs, d, h⟩ := effectOf_cases i s <;> simp [h]

@[simp] theorem State.setElement_script (s : State) (m : MemId) (i : Nat) (v : Value) :
    (s.setElement m i v).script = s.script := by
  obtain h | ⟨x, -, -, h⟩ | ⟨b, -, -, h⟩ := s.setElement_cases m i v <;> rw [h]

@[simp] theorem State.setElement_returned (s : State) (m : MemId) (i : Nat) (v : Value) :
    (s.setElement m i v).returned = s.returned := by
  obtain h | ⟨x, -, -, h⟩ | ⟨b, -, -, h⟩ := s.setElement_cases m i v <;> rw [h]

/-- A write of CMD takes nothing from the script and returns no value (20 R48). -/
theorem runCommand_script_returned {b : Byte} {s t : State} (h : runCommand b s = .next t) :
    t.script = s.script ∧ t.returned = s.returned := by
  obtain ⟨c, rfl, -⟩ | ⟨i, rfl⟩ := runCommand_outcome h <;> simp

/-- A register write takes nothing from the script and returns no value (20 R48). -/
theorem hostWrite_script_returned {r : Byte} {v : Value} {s t : State} (h : hostWrite r v s = .next t) :
    t.script = s.script ∧ t.returned = s.returned := by
  obtain ⟨-, rfl⟩ | ⟨b, -, -, hb⟩ | ⟨reg, -, -, rfl⟩ := hostWrite_cases h
  · exact ⟨rfl, rfl⟩
  · exact runCommand_script_returned hb
  · simp

/-- A transaction takes nothing from the script and returns at most one value (20 R48, 70 R191). -/
theorem transact_script_returned {x : Txn} {s t : State} (h : transact x s = .next t) :
    t.script = s.script ∧ ∃ vs, t.returned = s.returned ++ vs ∧ vs.length ≤ 1 := by
  obtain ⟨-, ⟨r, v, -, hw⟩ | ⟨v, rfl⟩ | ⟨m, i, v, -, -, rfl⟩⟩ := transact_cases h
  · obtain ⟨script, returned⟩ := hostWrite_script_returned hw
    exact ⟨script, [], by simp [returned]⟩
  · exact ⟨rfl, [v], rfl, le_rfl⟩
  · exact ⟨by simp, [], by simp⟩

/-! ## The next transaction -/

theorem step_of_script_nil {s : State} (h : s.script = []) : step s = .next s := by
  rw [step, stepState, h]

theorem step_of_script_cons {s : State} {x : Txn} {ts : List Txn} (h : s.script = x :: ts) :
    step s = transact x (s.putScript ts) := by
  rw [step, stepState, h]

/-- A Byte written under the number of CMD is a write of CMD (10 R11, R16). -/
theorem transact_wr_of_cmd {r : Byte} (hr : regOfNumber r = some .cmd) (w : Byte) (s : State) :
    transact (.wr r (.byte w)) s = runCommand w s := by
  simp [transact, Txn.wf, hostWrite, hr, Value.kind, regKind]

/-- A Byte that decodes runs its command (10 R16, 30 R61). -/
theorem runCommand_of_decode {w : Byte} {i : Instr} (h : decode w = .ok i) (s : State) :
    runCommand w s = exec i (s.storeCmd w) := by
  rw [runCommand, h]

/-- The transaction that stands for a command writes its Byte to CMD (30 R60). -/
theorem commandTxn_encode (i : Instr) :
    commandTxn 8 (encode i).toNat = .wr (regNumber .cmd) (.byte (encode i)) := by
  cases i <;> rfl

/-! ## Register numbers (10 R11) -/

@[simp] theorem regOfNumber_regNumber (reg : Reg) : regOfNumber (regNumber reg) = some reg := by
  cases reg <;> rfl

theorem regNumber_of_regOfNumber {r : Byte} {reg : Reg} (h : regOfNumber r = some reg) : r = regNumber reg := by
  unfold regOfNumber at h
  apply BitVec.eq_of_toNat_eq
  split at h <;> cases h <;> assumption

/-! ## The statements -/

/-- Settles O6: a step runs the head of the script, and no transaction reads or writes the script. -/
theorem stepIsTheNextTransaction : Obligations.StepIsTheNextTransaction :=
  ⟨fun _ => step_of_script_nil, fun _ _ _ => step_of_script_cons, fun _ _ _ h => (transact_script_returned h).1,
    fun _ _ _ h => (transact_script_returned h).2⟩

/-- Settles O2: the decoder reads each command from its own Byte alone, and each register from its own number alone. -/
theorem decodeAndEncodeAgree : Obligations.DecodeAndEncodeAgree := by
  refine ⟨decode_encode, fun w i => decode_eq_ok_iff.mp, fun r reg => ⟨regNumber_of_regOfNumber, ?number⟩⟩
  case number =>
    rintro rfl
    exact regOfNumber_regNumber reg

/-- Settles O5: a step whose transaction writes CMD stores the Byte and runs the command it decodes to. -/
theorem stepRunsTheDecodedCommand : Obligations.StepRunsTheDecodedCommand := by
  refine ⟨fun s r w ts i hs hr hw => ?script, fun s i => ?fetch⟩
  case script =>
    rw [step_of_script_cons hs, transact_wr_of_cmd hr, runCommand_of_decode hw]
    rfl
  case fetch =>
    have hs : (s.withFetchWord 8 (encode i).toNat).script = .wr (regNumber .cmd) (.byte (encode i)) :: s.script := by
      rw [State.withFetchWord, commandTxn_encode, State.putScript_script]
    rw [step_of_script_cons hs, transact_wr_of_cmd rfl, runCommand_encode]
    rfl

end Sys2Proof.Machine

/-! PHI after OSC and MOD, and the corner cases of OSC (40 R83, R86, 10 R24, 00 R5 `PHW`); the statements on them. -/

namespace Sys2Proof.Machine

open Sys2Proof Real

/-! ## The phase accumulator over the reals with an exact phase (40 R83) -/

/-- `n` increments add up, whole turns apart. -/
theorem fract_tonePhase_eval (inc : Scalar) (n : ℕ) (phi : Scalar) :
    Int.fract (tonePhase .real .exact inc n phi).eval = Int.fract (phi.eval + n * inc.eval) := by
  induction n generalizing phi with
  | zero => simp [tonePhase]
  | succ n ih =>
    have wraps : (PhaseWidth.exact.hold (NumDomain.real.frac (NumDomain.real.add phi inc))).eval =
        Int.fract (phi.eval + inc.eval) := by
      rw [PhaseWidth.hold, NumDomain.eval_frac rfl, NumDomain.eval_add rfl]
    rw [tonePhase, ih, wraps, Int.fract_eq_fract]
    exact ⟨-⌊phi.eval + inc.eval⌋, by rw [Int.fract]; push_cast; ring⟩

/-- From a phase below one turn, PHI after `n` samples is the fraction of the phase and `n` increments (40 R83). -/
theorem tonePhase_eval {phi : Scalar} (h0 : 0 ≤ phi.eval) (h1 : phi.eval < 1) (inc : Scalar) (n : ℕ) :
    (tonePhase .real .exact inc n phi).eval = Int.fract (phi.eval + n * inc.eval) := by
  obtain ⟨nonneg, lt_one⟩ := tonePhase_range (N := .real) (W := .exact) (.inl rfl) inc n phi h0 h1
  rw [← fract_tonePhase_eval, Int.fract_eq_self.mpr ⟨nonneg, lt_one⟩]

theorem startPhase_eval (ph : Scalar) : (startPhase .real .exact ph).eval = Int.fract (ph.eval / (2 * π)) := by
  rw [startPhase, PhaseWidth.hold, NumDomain.eval_frac rfl, NumDomain.eval_turns rfl]

/-- PHI after OSC (40 R83, 10 R24). -/
theorem State.oscDp_phi_eval {s : State} (hx : s.Exact) :
    s.oscDp.phi.eval = Int.fract (s.ophase.eval / (2 * π) + s.oscLen * (s.ofreq.eval / s.fs.eval)) := by
  obtain ⟨hN, hW⟩ := hx
  obtain ⟨nonneg, lt_one⟩ := startPhase_range (N := .real) (W := .exact) (.inl rfl) s.ophase
  have phi : s.oscDp.phi = tonePhase .real .exact s.oscStep s.oscLen (startPhase .real .exact s.ophase) := by
    rw [State.oscDp, hN, hW]
  have step : s.oscStep.eval = s.ofreq.eval / s.fs.eval := NumDomain.eval_div hN _ _
  rw [phi, tonePhase_eval nonneg lt_one, startPhase_eval, step, Int.fract_eq_fract]
  exact ⟨-⌊s.ophase.eval / (2 * π)⌋, by rw [Int.fract]; push_cast; ring⟩

/-! ## A phase accumulator of `n` bits (00 R5 `PHW`) -/

/-- The phase is a whole number of `2^-n` turns, below one turn. -/
def IsPhaseCode (n : ℕ) (x : ℝ) : Prop := ∃ c : ℕ, c < 2 ^ n ∧ x = (c : ℝ) / 2 ^ n

theorem isPhaseCode_zero (n : ℕ) : IsPhaseCode n 0 := ⟨0, by positivity, by simp⟩

theorem isPhaseCode_hold (n : ℕ) (a : Scalar) : IsPhaseCode n ((PhaseWidth.bits n).hold a).eval :=
  ⟨Config.phaseCode n a.eval % 2 ^ n, Nat.mod_lt _ (by positivity), by rw [PhaseWidth.hold, Scalar.eval]⟩

theorem isPhaseCode_tonePhase (N : NumDomain) {n : ℕ} (inc : Scalar) (len : ℕ) {phi : Scalar}
    (h : IsPhaseCode n phi.eval) : IsPhaseCode n (tonePhase N (.bits n) inc len phi).eval := by
  induction len generalizing phi with
  | zero => exact h
  | succ len ih => exact ih (isPhaseCode_hold n _)

/-! ## The samples of OSC -/

/-- Sample `i` after a completed OSC is the closed form (40 R82). -/
theorem txAt_osc_eval {s t : State} (hx : s.Exact) (h : exec .osc s = .next t) (hdone : t.status = 0x01#8) {i : ℕ}
    (hi : i < t.txlen) : (t.txAt i).eval = toneAt s.ofreq.eval s.fs.eval s.oamp.eval s.ophase.eval i := by
  obtain ⟨-, rfl⟩ := exec_completed h hdone
  rw [effectOf_osc, State.txAt_completed s _ _ hi]
  exact State.oscSamples_getElem_eval hx i hi

/-- A tone at half the sample rate from phase 0 is sampled at its zeros (40 R86). -/
theorem toneAt_half_rate {fs : ℝ} (hfs : 0 < fs) (a : ℝ) (i : ℕ) : toneAt (fs / 2) fs a 0 i = 0 := by
  have half_turns : 2 * π * (fs / 2) * (i / fs) + 0 = i * π := by
    field_simp
    ring
  rw [toneAt, half_turns, Real.sin_nat_mul_pi, mul_zero]

/-! ## The statements -/

/-- Settles O17: PHI advances by OFREQ/FS once per sample, from OPHASE in turns, and wraps at one turn. -/
theorem phaseAccumulatorAdvances : Obligations.PhaseAccumulatorAdvances := by
  intro s t hx h hdone
  obtain ⟨-, rfl⟩ := exec_completed h hdone
  have txlen : (effectOf .osc s).complete.txlen = s.oscLen := s.txlen_osc_completed
  rw [txlen]
  exact State.oscDp_phi_eval hx

/-- Settles O19: each corner case is read off the closed form of a sample. -/
theorem oscCornerCases : Obligations.OscCornerCases := by
  intro s t hx h hdone i hi
  rw [txAt_osc_eval hx h hdone hi]
  refine ⟨fun hamp => ?silent, fun hfreq => ?constant, fun hfreq hfs hphase => ?half⟩
  case silent => rw [toneAt, hamp, zero_mul]
  case constant => rw [toneAt, hfreq, mul_zero, zero_mul, zero_add]
  case half => rw [hfreq, hphase, toneAt_half_rate hfs]

/-- Settles O59: PHI is loaded and advanced through an accumulator of `n` bits; MOD loads 0. -/
theorem phaseWidthBoundsPhi : Obligations.PhaseWidthBoundsPhi := by
  intro s t i n hW hi h hdone
  obtain ⟨-, rfl⟩ := exec_completed h hdone
  rcases hi with rfl | rfl
  · have phi : (effectOf .osc s).complete.dp.phi = tonePhase s.par.num (.bits n) s.oscStep s.oscLen
        (startPhase s.par.num (.bits n) s.ophase) := by rw [← hW]; rfl
    rw [phi]
    exact isPhaseCode_tonePhase _ _ _ (isPhaseCode_hold n _)
  · have phi : (effectOf .mod s).complete.dp.phi = tonePhase s.par.num (.bits n)
        (s.toneStep (s.symbols.getLastD .zero)) s.symbolLen (.rat 0) := by rw [← hW]; rfl
    rw [phi]
    exact isPhaseCode_tonePhase _ _ _ (by simpa using isPhaseCode_zero n)

end Sys2Proof.Machine

/-! The gains of the shaper and the default windows (41 R91, R94, 43 R111), and the ends of a symbol (42 R103); the
statements on them. -/

namespace Sys2Proof.Machine

open Sys2Proof Real

/-! ## The default windows -/

/-- The last position of the Hann window of a taper of length `m` (41 R91). -/
theorem cast_taper_end {m : ℕ} (hm : 0 < m) : ((2 * m - 1 : ℕ) : ℝ) = 2 * m - 1 := by
  rw [Nat.cast_sub (by omega)]
  push_cast
  rfl

/-- The default TAPERW (41 R91). -/
theorem taperAt_hann_eval {m : ℕ} (hm : 0 < m) (j : ℕ) :
    (taperAt .real .hann m j).eval = 0.5 - 0.5 * cos (2 * π * j / (2 * m - 1)) := by
  rw [taperAt, hannAt_eval, cast_taper_end hm, mul_div_assoc]
  norm_num

/-- The default WINB (43 R111). -/
theorem winbAt_hann_eval {len : ℕ} (hlen : 2 ≤ len) (i : ℕ) :
    (winbAt .real .hann len i).eval = 0.5 - 0.5 * cos (2 * π * i / (len - 1)) := by
  rw [winbAt, hannAt_eval, Nat.cast_pred (by omega), mul_div_assoc]
  norm_num

/-- A Hann window begins at 0. -/
theorem hannAt_start (d : ℕ) : (hannAt .real 0 d).eval = 0 := by
  rw [hannAt_eval]
  simp

/-- A Hann window is symmetric. -/
theorem hannAt_mirror {i d : ℕ} (hi : i ≤ d) (hd : 0 < d) :
    (hannAt .real (d - i) d).eval = (hannAt .real i d).eval := by
  have hd' : (d : ℝ) ≠ 0 := by positivity
  have mirrored : 2 * π * (((d - i : ℕ) : ℝ) / d) = 2 * π - 2 * π * (i / d) := by
    rw [Nat.cast_sub hi]
    field_simp
  rw [hannAt_eval, hannAt_eval, mirrored, Real.cos_two_pi_sub]

/-- The angle of position `j` of a taper of length `m` (41 R91). -/
noncomputable def taperAngle (m j : ℕ) : ℝ := 2 * π * j / (2 * m - 1)

section
variable {m : ℕ} (hm : 0 < m)
include hm

theorem taper_end_pos : (0 : ℝ) < 2 * m - 1 := by
  have : (1 : ℝ) ≤ m := by exact_mod_cast hm
  linarith

theorem taperAngle_lt {i j : ℕ} (hij : i < j) : taperAngle m i < taperAngle m j := by
  have := taper_end_pos hm
  unfold taperAngle
  gcongr

/-- The last angle of a taper falls short of half a turn (41 R91). -/
theorem taperAngle_last : taperAngle m (m - 1) = π - π / (2 * m - 1) := by
  have := (taper_end_pos hm).ne'
  rw [taperAngle, Nat.cast_pred hm]
  field_simp
  ring

theorem taperAngle_le_pi {j : ℕ} (hj : j < m) : taperAngle m j ≤ π := by
  have hend := taper_end_pos hm
  calc taperAngle m j
    _ ≤ taperAngle m (m - 1) := by
      have : j ≤ m - 1 := by omega
      unfold taperAngle
      gcongr
    _ = π - π / (2 * m - 1) := taperAngle_last hm
    _ ≤ π := by
      have : 0 < π / (2 * m - 1) := by positivity
      linarith

end

/-! ## The gains of SHAPE -/

theorem gainAt_rising (c : WindowChoice) (len : ℕ) {m i : ℕ} (hi : i < m) :
    gainAt c len m i = (taperAt .real c m i).eval := if_pos ⟨Nat.zero_lt_of_lt hi, hi⟩

theorem gainAt_falling (c : WindowChoice) {len m i : ℕ} (hm : 0 < m) (hrise : m ≤ i) (hi : len - m ≤ i) :
    gainAt c len m i = (taperAt .real c m (len - 1 - i)).eval := by
  rw [gainAt, if_neg (fun h => absurd h.2 hrise.not_gt), if_pos ⟨hm, hi⟩]

/-- With the default taper the first sample of a tapered buffer has gain 0 (41 R91). -/
theorem gainAt_hann_first (len : ℕ) {m : ℕ} (hm : 0 < m) : gainAt .hann len m 0 = 0 := by
  rw [gainAt_rising _ _ hm, taperAt, hannAt_start]

/-- With the default taper the last sample of a tapered buffer has gain 0 (41 R91). -/
theorem gainAt_hann_last {len m : ℕ} (hm : 0 < m) (hlen : 2 * m ≤ len) : gainAt .hann len m (len - 1) = 0 := by
  rw [gainAt_falling _ hm (by omega) (by omega), Nat.sub_self, taperAt, hannAt_start]

/-- Sample `i` of a completed SHAPE is `RX[i]` times its gain (41 R91, R92). -/
theorem State.txAt_shape_eval {s : State} (hN : s.Real) {i : ℕ} (hi : i < s.rxlen) :
    (((s.putTx s.shapeSamples).putDp s.shapeDp).complete.txAt i).eval =
      (s.rxAt i).eval * gainAt s.par.taperw s.rxlen (taperLen s.rxlen s.shpn) i := by
  have hlen : i < s.shapeSamples.length := s.shapeSamples_length.symm ▸ hi
  rw [State.txAt_completed s _ _ hlen, State.shapeSamples_getElem, hN, shapeSample_eval]

/-- `Shape` multiplies each sample by a gain that depends on its place alone (41 R91). -/
theorem shapeList_getD_eval (c : WindowChoice) (n : ℕ) {xs : List Scalar} {len : ℕ} (hlen : xs.length = len) {i : ℕ}
    (hi : i < len) : ((shapeList .real c n xs).getD i (.rat 0)).eval =
      (xs.getD i (.rat 0)).eval * gainAt c len (taperLen len n) i := by
  subst hlen
  rw [List.getD_eq_getElem _ _ (by rwa [shapeList_length]), List.getD_eq_getElem _ _ hi, shapeList_getElem_eval]

/-! ## The statements -/

/-- Settles O21: the gain of a sample is TAPERW at its distance from the nearer end of the buffer. -/
theorem shapeGains : Obligations.ShapeGains := by
  rintro s _ rfl hm hcap
  have hclamp := taperLen_le s.rxlen s.shpn
  refine ⟨_, exec_shape_completes hcap, s.txlen_shape_completed, fun hN i hi => ?rising, fun hN i hi hfall => ?falling,
    fun hc j hj => ?hann⟩
  case rising => rw [State.txAt_shape_eval hN (by omega), gainAt_rising _ _ hi]
  case falling => rw [State.txAt_shape_eval hN hi, gainAt_falling _ hm (by omega) hfall]
  case hann => rw [hc, taperAt_hann_eval hm]

/-- Settles O22: the angles of a taper rise from 0 to just below half a turn, where the cosine falls strictly. -/
theorem hannTaperRises : Obligations.HannTaperRises := by
  intro m hm
  have eval (j : ℕ) : (taperAt .real .hann m j).eval = 0.5 - 0.5 * cos (taperAngle m j) := taperAt_hann_eval hm j
  have last : (taperAt .real .hann m (m - 1)).eval = 0.5 + 0.5 * cos (π / (2 * m - 1)) := by
    rw [eval, taperAngle_last hm, Real.cos_pi_sub]
    ring
  refine ⟨?start, fun i j hij hj => ?rise, last, fun hm2 => ?below⟩
  case start => rw [taperAt, hannAt_start]
  case rise =>
    have nonneg : 0 ≤ taperAngle m i := by
      have := taper_end_pos hm
      unfold taperAngle
      positivity
    have falls : cos (taperAngle m j) < cos (taperAngle m i) :=
      Real.cos_lt_cos_of_nonneg_of_le_pi nonneg (taperAngle_le_pi hm hj) (taperAngle_lt hm hij)
    rw [eval, eval]
    linarith
  case below =>
    have hend : (1 : ℝ) < 2 * m - 1 := by
      have : (2 : ℝ) ≤ m := by exact_mod_cast hm2
      linarith
    have pos : 0 < π / (2 * m - 1) := by positivity
    have falls : cos (π / (2 * m - 1)) < cos 0 :=
      Real.cos_lt_cos_of_nonneg_of_le_pi le_rfl (div_le_self Real.pi_pos.le hend.le) pos
    rw [Real.cos_zero] at falls
    rw [last]
    linarith

/-- Settles O23: each output sample is the input sample times a gain that no sample changes. -/
theorem shapeIsLinear : Obligations.ShapeIsLinear := by
  intro c n xs ys zs a b hx hy hz
  refine ⟨shapeList_length _ _ _ _, fun i hi => ?_⟩
  rw [shapeList_getD_eval c n rfl hi, shapeList_getD_eval c n hx hi, shapeList_getD_eval c n hy hi, hz i hi]
  ring

/-- Settles O28: WINB is the Hann window over the whole symbol window. -/
theorem hannWindowIsSymmetric : Obligations.HannWindowIsSymmetric := by
  intro len hlen
  have mirror {i : ℕ} (hi : i < len) : (winbAt .real .hann len (len - 1 - i)).eval = (winbAt .real .hann len i).eval :=
    hannAt_mirror (by omega) (by omega)
  have first : (winbAt .real .hann len 0).eval = 0 := hannAt_start _
  exact ⟨fun i _ => winbAt_hann_eval hlen i, fun i hi => (mirror hi).symm, first,
    (mirror (i := 0) (by omega)).trans first⟩

/-- Settles O25: both ends of a shaped symbol have gain 0. -/
theorem modSymbolsStartAndEndAtZero : Obligations.ModSymbolsStartAndEndAtZero := by
  intro s t hx h hdone hc hL k hk
  obtain ⟨-, rfl⟩ := exec_completed h hdone
  have hm : 0 < taperLen s.symbolLen Config.taperN := by
    unfold taperLen Config.taperN
    split <;> omega
  have sample {i : ℕ} (hi : i < s.symbolLen) := State.txAt_mod_eval hx (k := k) hk hi
  constructor
  · have first := sample (i := 0) (by omega)
    rw [hc, gainAt_hann_first _ hm, mul_zero] at first
    exact first
  · have last := sample (i := s.symbolLen - 1) (by omega)
    rw [hc, gainAt_hann_last hm (taperLen_le _ _), mul_zero] at last
    exact last

end Sys2Proof.Machine

/-! The Basic Demodulator's ties and scale (43 R112, R114, R117); the statements on them. -/

namespace Sys2Proof.Machine

open Sys2Proof Real

/-! ## Weighted sums -/

theorem weightedSum_eq_sum (len : ℕ) (w f : ℕ → ℝ) : weightedSum len w f = ∑ i ∈ Finset.range len, w i * f i := rfl

theorem weightedSum_congr {len : ℕ} {w w' : ℕ → ℝ} (h : ∀ i < len, w' i = w i) (f : ℕ → ℝ) :
    weightedSum len w' f = weightedSum len w f := by
  rw [weightedSum_eq_sum, weightedSum_eq_sum]
  exact Finset.sum_congr rfl fun i hi => by rw [h i (Finset.mem_range.mp hi)]

theorem weightedSum_linear {len : ℕ} {x y z : ℕ → ℝ} {a b : ℝ} (h : ∀ i < len, z i = a * x i + b * y i)
    (f : ℕ → ℝ) : weightedSum len z f = a * weightedSum len x f + b * weightedSum len y f := by
  simp only [weightedSum_eq_sum, Finset.mul_sum, ← Finset.sum_add_distrib]
  refine Finset.sum_congr rfl fun i hi => ?_
  rw [h i (Finset.mem_range.mp hi)]
  ring

theorem weightedSum_scale {len : ℕ} {w w' : ℕ → ℝ} {c : ℝ} (h : ∀ i < len, w' i = c * w i) (f : ℕ → ℝ) :
    weightedSum len w' f = c * weightedSum len w f := by
  have combined (i : ℕ) (hi : i < len) : w' i = c * w i + 0 * w i := by rw [h i hi, zero_mul, add_zero]
  rw [weightedSum_linear combined, zero_mul, add_zero]

theorem weightedSum_eq_zero {len : ℕ} {w : ℕ → ℝ} (h : ∀ i < len, w i = 0) (f : ℕ → ℝ) : weightedSum len w f = 0 := by
  rw [weightedSum_scale (w := w) (c := 0) (fun i hi => by rw [h i hi, zero_mul]), zero_mul]

/-- A sum with at most one sample other than 0 is that sample's product. -/
theorem weightedSum_single {len j : ℕ} {w : ℕ → ℝ} (hj : j < len) (h : ∀ i < len, i ≠ j → w i = 0) (f : ℕ → ℝ) :
    weightedSum len w f = w j * f j :=
  Finset.sum_eq_single_of_mem j (Finset.mem_range.mpr hj) fun i hi hij => by
    rw [h i (Finset.mem_range.mp hi) hij, zero_mul]

/-! ## Powers (43 R112) -/

theorem powerAt_scale {len : ℕ} {w w' : ℕ → ℝ} {c : ℝ} (h : ∀ i < len, w' i = c * w i) (omega : ℝ) :
    powerAt len w' omega = c ^ 2 * powerAt len w omega := by
  rw [powerAt, powerAt, weightedSum_scale h, weightedSum_scale h]
  ring

/-- A window with at most one sample other than 0 has one power at every frequency (43 R117). -/
theorem powerAt_single {len j : ℕ} {w : ℕ → ℝ} (h : ∀ i < len, i ≠ j → w i = 0) (omega : ℝ) :
    powerAt len w omega = if j < len then w j ^ 2 else 0 := by
  split
  case isTrue hj =>
    rw [powerAt, weightedSum_single hj h, weightedSum_single hj h, mul_pow, mul_pow, ← mul_add, cos_sq_add_sin_sq,
      mul_one]
  case isFalse hj =>
    have silent (i : ℕ) (hi : i < len) : w i = 0 := h i hi fun e => hj (e ▸ hi)
    rw [powerAt, weightedSum_eq_zero silent, weightedSum_eq_zero silent]
    simp

/-! ## Two states that differ in the scale of their input -/

/-- The states have the same parameters, partition their buffers alike, and `s'` received `c` times what `s` did. -/
structure State.ScaledBy (c : ℝ) (s s' : State) : Prop where
  par : s.par = s'.par
  symdur : s.symdur = s'.symdur
  fs : s.fs = s'.fs
  rxlen : s.rxlen = s'.rxlen
  rx : ∀ i < s.rxlen, (s'.rxAt i).eval = c * (s.rxAt i).eval

section
variable {s s' : State} {c : ℝ} (h : State.ScaledBy c s s')
include h

theorem State.ScaledBy.symbolLen_eq : s'.symbolLen = s.symbolLen := (symbol_agree h.par h.symdur h.fs).1.symm

theorem State.ScaledBy.windowCount_eq : s'.windowCount = s.windowCount := by
  rw [State.windowCount, State.windowCount, h.symbolLen_eq, h.rxlen]

theorem State.ScaledBy.basicPower_eq {k : ℕ} (hk : k < s.windowCount) (f : Scalar) :
    s'.basicPower f k = c ^ 2 * s.basicPower f k := by
  have sample (i : ℕ) (hi : i < s.symbolLen) : s'.basicSample k i = c * s.basicSample k i := by
    rw [State.basicSample, State.basicSample, h.symbolLen_eq, h.rx _ (window_index_lt hk hi), h.par, mul_assoc]
  rw [State.basicPower, State.basicPower, h.symbolLen_eq, powerAt_scale sample, h.fs]

end

/-- No check reads RX (60 R157 to R162). -/
theorem checksOf_rx (i : Instr) (s : State) (m : Mem Scalar) : checksOf i { s with rx := m } = checksOf i s := by
  cases i <;> rfl

/-- Of two states with the same checks both complete a command or neither does. -/
theorem completes_of_checks {i : Instr} {s s' t t' : State} (hchecks : checksOf i s = checksOf i s')
    (h : exec i s = .next t) (hdone : t.status = 0x01#8) (h' : exec i s' = .next t') : t'.status = 0x01#8 := by
  obtain ⟨hpass, -⟩ := exec_completed h hdone
  cases h'.symm.trans (exec_of_firstFailing_none (hchecks ▸ hpass))
  rfl

/-! ## The bits of a completed DEMODB -/

/-- After a completed DEMODB, bit `k` compares the two powers of window `k` (43 R114). -/
theorem boAt_demodb_val {s t : State} (hN : s.Real) (h : exec .demodb s = .next t) (hdone : t.status = 0x01#8) {k : ℕ}
    (hk : k < t.bolen) : (t.boAt k).val = true ↔ s.basicPower s.f0 k < s.basicPower s.f1 k := by
  obtain ⟨-, rfl⟩ := exec_completed h hdone
  rw [effectOf_demodb] at hk ⊢
  exact State.boAt_demodb_val hN (hk.trans_eq s.bolen_demodb_completed)

theorem bolen_demodb {s t : State} (h : exec .demodb s = .next t) (hdone : t.status = 0x01#8) :
    t.bolen = s.windowCount := by
  obtain ⟨-, rfl⟩ := exec_completed h hdone
  exact s.bolen_demodb_completed

/-! ## The statements -/

/-- Settles O29: the comparison is strict, and the power of a window with at most one sample other than 0 is that
sample's square at every frequency. -/
theorem basicTiesDecodeToZero : Obligations.BasicTiesDecodeToZero := by
  intro s t hN h hdone k hk
  have tie (heq : s.basicPower s.f1 k = s.basicPower s.f0 k) : (t.boAt k).val = false :=
    Bool.eq_false_iff.mpr fun htrue => ((boAt_demodb_val hN h hdone hk).mp htrue).ne' heq
  refine ⟨tie, fun j hj => ?_⟩
  have silent (i : ℕ) (hi : i < s.symbolLen) (hij : i ≠ j) : s.basicSample k i = 0 := by
    rw [State.basicSample, hj i hi hij, zero_mul]
  have heq : s.basicPower s.f1 k = s.basicPower s.f0 k := by
    rw [State.basicPower, State.basicPower, powerAt_single silent, powerAt_single silent]
  exact ⟨heq, tie heq⟩

/-- Settles O30: no check reads RX, and a scale multiplies both powers of a window by its square. -/
theorem basicIgnoresScale : Obligations.BasicIgnoresScale := by
  intro s s' t t' c hN hc hpar hf0 hf1 hsymdur hfs hrxlen hrx ht ht' hdone
  have hscaled : State.ScaledBy c s s' := ⟨hpar, hsymdur, hfs, hrxlen, hrx⟩
  have same_input : s.AgreeOn { s' with rx := s.rx } .demodb := ⟨hpar, hf0, hf1, hsymdur, hfs, hrxlen, fun _ _ => rfl⟩
  have hchecks : checksOf .demodb s = checksOf .demodb s' := (checksOf_agree same_input).trans (checksOf_rx _ _ _)
  have hdone' : t'.status = 0x01#8 := completes_of_checks hchecks ht hdone ht'
  have hlen : t'.bolen = t.bolen := by rw [bolen_demodb ht hdone, bolen_demodb ht' hdone', hscaled.windowCount_eq]
  refine ⟨hdone', hlen, fun k hk => Bool.eq_iff_iff.mpr ?_⟩
  have hk' : k < s.windowCount := hk.trans_eq (bolen_demodb ht hdone)
  have hN' : s'.Real := (congrArg Params.num hpar).symm.trans hN
  rw [boAt_demodb_val hN' ht' hdone' (hlen ▸ hk), boAt_demodb_val hN ht hdone hk, ← hf0, ← hf1,
    hscaled.basicPower_eq hk', hscaled.basicPower_eq hk', mul_lt_mul_iff_of_pos_left (by positivity)]

end Sys2Proof.Machine

/-! The filter of the Robust Demodulator (44 R129, R136); the statements on it. -/

namespace Sys2Proof.Machine

open Sys2Proof Real

/-! ## The filter as a matrix (44 R129) -/

/-- Output sample `i` of the filter is the sum of the input samples by the weights of row `i`. -/
theorem bpfApply_getD_eval (c : FilterChoice) (lo hi fs : Scalar) {w : List Scalar} {len : ℕ} (hlen : w.length = len)
    {i : ℕ} (h : i < len) : ((bpfApply .real c lo hi fs w).getD i (.rat 0)).eval =
      weightedSum len (fun j => (w.getD j (.rat 0)).eval) fun j => (bpfWeight .real c lo hi fs len i j).eval := by
  subst hlen
  rw [List.getD_eq_getElem _ _ (by rwa [bpfApply_length]), bpfApply_getElem_eval]
  exact windowSum_eq w _ _ _ rfl fun j hj => by rw [List.getD_eq_getElem _ _ hj]

/-! ## The weights of the stand-in (44 R136) -/

theorem binFreq_eval (fs : Scalar) (len q : ℕ) :
    (binFreq .real fs len q).eval = (min q (len - q) : ℕ) * fs.eval / len := by
  rw [binFreq, NumDomain.eval_div rfl, NumDomain.eval_mul rfl, Scalar.eval_ofNat, Scalar.eval_ofNat]

open Classical in
/-- A bin's part is the cosine of the distance of the samples when the bin lies in the band, else 0. -/
theorem idealBin_eval (lo hi fs : Scalar) (len i j q : ℕ) : (idealBin .real lo hi fs len i j q).eval =
    if lo.eval ≤ (binFreq .real fs len q).eval ∧ (binFreq .real fs len q).eval ≤ hi.eval then
      cos (2 * π * (q * (i - j) / len)) else 0 := by
  have wave : (NumDomain.real.cosTurns (.rat (mkRat ((q : ℤ) * ((i : ℤ) - (j : ℤ))) 1)) (Scalar.ofNat len)).eval =
      cos (2 * π * (q * (i - j) / len)) := by
    rw [NumDomain.eval_cosTurns rfl, Scalar.eval_rat, Scalar.eval_ofNat, Rat.mkRat_one]
    push_cast
    rfl
  rw [idealBin, Scalar.eval_select, Scalar.eval_select, wave, Scalar.eval_rat, Rat.cast_zero, ite_and]
  simp only [Bit.val_ltOf, NumDomain.Lt, ← not_lt, ite_not]

open Classical in
theorem bpfWeight_ideal_eval (lo hi fs : Scalar) (len i j : ℕ) : (bpfWeight .real .ideal lo hi fs len i j).eval =
    (∑ q ∈ Finset.range len,
      if lo.eval ≤ (binFreq .real fs len q).eval ∧ (binFreq .real fs len q).eval ≤ hi.eval then
        cos (2 * π * (q * (i - j) / len)) else 0) / len := by
  rw [bpfWeight, NumDomain.eval_div rfl, NumDomain.eval_sum rfl, Scalar.eval_ofNat, List.map_map]
  congr 1
  exact congrArg List.sum (List.map_congr_left fun q _ => idealBin_eval lo hi fs len i j q)

/-! ## The transform and its inverse (44 R136) -/

/-- A sample through the transform at bin `q` and back to place `i`: the real part is a cosine. -/
theorem re_transform_inverse (x : ℝ) (i j q len : ℕ) :
    ((x : ℂ) * Complex.exp (-(2 * π * Complex.I * j * q / len)) * Complex.exp (2 * π * Complex.I * i * q / len)).re =
      x * cos (2 * π * (q * (i - j) / len)) := by
  have angle : -(2 * (π : ℂ) * Complex.I * j * q / len) + 2 * π * Complex.I * i * q / len =
      ((2 * π * (q * (i - j) / len) : ℝ) : ℂ) * Complex.I := by
    push_cast
    ring
  rw [mul_assoc, ← Complex.exp_add, angle, Complex.re_ofReal_mul, Complex.exp_ofReal_mul_I_re]

/-! ## The statements -/

/-- Settles O33: each output sample is a sum over the window by weights that no sample changes. -/
theorem filterIsLinear : Obligations.FilterIsLinear := by
  intro c lo hi fs x y z a b hx hy hz
  refine ⟨bpfApply_length _ _ _ _ _ _, fun i hi => ?_⟩
  rw [bpfApply_getD_eval c _ _ _ rfl hi, bpfApply_getD_eval c _ _ _ hx hi, bpfApply_getD_eval c _ _ _ hy hi]
  exact weightedSum_linear hz _

open Classical in
/-- Settles O34: the real part of the inverse transform of the masked spectrum is, bin by bin and sample by sample, the
sum of cosines that the weights are. -/
theorem standInFilterKeepsTheBand : Obligations.StandInFilterKeepsTheBand := by
  intro lo hi fs w X Y fq hfq hX hY i hi'
  obtain ⟨L, hL⟩ : ∃ L, w.length = L := ⟨_, rfl⟩
  rw [hL] at hi'
  simp only [hL] at hfq hX ⊢
  have freq (q : ℕ) : (binFreq .real fs L q).eval = fq q := (binFreq_eval fs L q).trans (hfq q).symm
  have bin (q : ℕ) : (Y q * Complex.exp (2 * π * Complex.I * i * q / L)).re =
      ∑ j ∈ Finset.range L,
        (w.getD j (.rat 0)).eval * if lo.eval ≤ fq q ∧ fq q ≤ hi.eval then cos (2 * π * (q * (i - j) / L)) else 0 := by
    obtain ⟨kept, masked⟩ := hY q
    by_cases hband : lo.eval ≤ fq q ∧ fq q ≤ hi.eval
    · simp only [if_pos hband, kept hband, hX, Finset.sum_mul, Complex.re_sum]
      exact Finset.sum_congr rfl fun j _ => re_transform_inverse _ i j q L
    · simp [if_neg hband, masked hband]
  have one_div_len : (1 / (L : ℂ)) = ((1 / L : ℝ) : ℂ) := by push_cast; rfl
  rw [bpfApply_getD_eval .ideal lo hi fs hL hi', weightedSum_eq_sum, one_div_len, Complex.re_ofReal_mul,
    Complex.re_sum, Finset.sum_congr rfl fun q _ => bin q, Finset.sum_comm, Finset.mul_sum]
  refine Finset.sum_congr rfl fun j _ => ?_
  rw [bpfWeight_ideal_eval, ← Finset.mul_sum]
  simp only [freq]
  ring

end Sys2Proof.Machine

/-! DEMODR across commands, on silence and under a scale (44 R126, R132, R133, R135, 10 R26, R27); the statements on
them. -/

namespace Sys2Proof.Machine

open Sys2Proof

/-! ## The internal registers after DEMODR (10 R26, R27) -/

@[simp] theorem State.robustDp_peak (s : State) : s.robustDp.peak = s.robustPeak := by
  unfold State.robustDp
  split <;> rfl

/-- LAST after DEMODR is its last bit, 0 where there is none (44 R133). -/
theorem State.robustDp_last (s : State) : s.robustDp.last = s.robustBits.getLastD .zero := by
  unfold State.robustDp
  split
  · next hzero =>
    have hnil : s.robustBits = [] := List.eq_nil_of_length_eq_zero (s.robustBits_length.trans hzero)
    rw [hnil]
    rfl
  · rfl

/-- The last bit of a list, read by index. -/
theorem getLastD_val (bs : List Bit) : (bs.getLastD .zero).val =
    if h : bs.length = 0 then false else (bs[bs.length - 1]'(Nat.sub_one_lt h)).val := by
  cases bs with
  | nil => rfl
  | cons b bs => simp [List.getLastD_eq_getLast?, List.getLast?_eq_getElem?]

/-! ## The bits of a completed DEMODR -/

theorem bolen_demodr {s t : State} (h : exec .demodr s = .next t) (hdone : t.status = 0x01#8) :
    t.bolen = s.windowCount := by
  obtain ⟨-, rfl⟩ := exec_completed h hdone
  exact s.bolen_demodr_completed

theorem peak_demodr {s t : State} (h : exec .demodr s = .next t) (hdone : t.status = 0x01#8) :
    t.dp.peak = s.robustPeak := by
  obtain ⟨-, rfl⟩ := exec_completed h hdone
  exact s.robustDp_peak

open Classical in
/-- After a completed DEMODR, bit `k` is 1 above RHI, 0 below RLO, and otherwise the bit before it (44 R132, R133). -/
theorem boAt_demodr_val {s t : State} (hN : s.Real) (h : exec .demodr s = .next t) (hdone : t.status = 0x01#8) {k : ℕ}
    (hk : k < s.windowCount) : (t.boAt k).val =
      if s.rhi.eval < s.bandRatio s.robustPeak.eval k then true
      else if s.bandRatio s.robustPeak.eval k < s.rlo.eval then false
      else if k = 0 then false else (t.boAt (k - 1)).val := by
  obtain ⟨-, rfl⟩ := exec_completed h hdone
  exact State.boAt_demodr_val hN rfl hk

/-! ## Silence (44 R135) -/

section
variable {s : State} {p : ℝ} {k : ℕ} (h : ∀ j < s.symbolLen, s.normalSample p (k * s.symbolLen + j) = 0)
include h

theorem State.bandEnergy_of_silent (f : Scalar) : s.bandEnergy p f k = 0 := by
  have filtered (i : ℕ) : s.filteredSample p f k i = 0 := weightedSum_eq_zero h _
  simp [State.bandEnergy, filtered]

theorem State.bandRatio_of_silent : s.bandRatio p k = 0 := by
  rw [State.bandRatio, State.bandEnergy_of_silent h, zero_div]

end

/-- An all-zero buffer has peak 0 (44 R126). -/
theorem State.isPeak_zero {s : State} (h : ∀ i < s.rxlen, (s.rxAt i).eval = 0) : s.IsPeak 0 :=
  ⟨le_rfl, fun i hi => by rw [h i hi, abs_zero], .inl rfl⟩

/-! ## A positive scale (44 R135) -/

section
variable {s s' : State} {c : ℝ} (h : State.ScaledBy c s s')
include h

/-- A positive scale multiplies the peak. -/
theorem State.ScaledBy.isPeak (hc : 0 < c) {p : ℝ} (hp : s.IsPeak p) : s'.IsPeak (c * p) := by
  have abs_sample (i : ℕ) (hi : i < s.rxlen) : |(s'.rxAt i).eval| = c * |(s.rxAt i).eval| := by
    rw [h.rx i hi, abs_mul, abs_of_pos hc]
  obtain ⟨nonneg, bound, attained⟩ := hp
  rw [State.IsPeak, ← h.rxlen]
  refine ⟨mul_nonneg hc.le nonneg, fun i hi => ?bound, ?attained⟩
  case bound =>
    rw [abs_sample i hi]
    exact mul_le_mul_of_nonneg_left (bound i hi) hc.le
  case attained =>
    obtain rfl | ⟨i, hi, rfl⟩ := attained
    · exact .inl (mul_zero c)
    · exact .inr ⟨i, hi, abs_sample i hi⟩

/-- The normalised buffer does not show the scale. -/
theorem State.ScaledBy.normalSample_eq (hc : 0 < c) {p : ℝ} (hp : s.IsPeak p) {j : ℕ} (hj : j < s.rxlen) :
    s'.normalSample (c * p) j = s.normalSample p j := by
  by_cases h0 : p = 0
  · rw [hp.normalSample_eq_zero h0 hj, (h.isPeak hc hp).normalSample_eq_zero (by rw [h0, mul_zero]) (h.rxlen ▸ hj)]
  · rw [State.normalSample, State.normalSample, if_neg h0, if_neg (mul_ne_zero hc.ne' h0), h.rx j hj,
      mul_div_mul_left _ _ hc.ne']

section
variable (hc : 0 < c) (hbw : s.bw = s'.bw) {p : ℝ} (hp : s.IsPeak p) {k : ℕ} (hk : k < s.windowCount)
include hc hbw hp hk

theorem State.ScaledBy.filteredSample_eq (f : Scalar) (i : ℕ) :
    s'.filteredSample (c * p) f k i = s.filteredSample p f k i := by
  rw [State.filteredSample, State.filteredSample, h.symbolLen_eq, ← h.par, ← h.fs, ← hbw]
  exact weightedSum_congr (fun j hj => h.normalSample_eq hc hp (window_index_lt hk hj)) _

theorem State.ScaledBy.bandEnergy_eq (f : Scalar) : s'.bandEnergy (c * p) f k = s.bandEnergy p f k := by
  rw [State.bandEnergy, State.bandEnergy, h.symbolLen_eq]
  simp only [h.filteredSample_eq hc hbw hp hk]

theorem State.ScaledBy.bandRatio_eq (hf0 : s.f0 = s'.f0) (hf1 : s.f1 = s'.f1) :
    s'.bandRatio (c * p) k = s.bandRatio p k := by
  rw [State.bandRatio, State.bandRatio, ← hf0, ← hf1, ← h.par, h.bandEnergy_eq hc hbw hp hk,
    h.bandEnergy_eq hc hbw hp hk]

end

end

/-! ## The statements -/

/-- Settles O36: the bits are formed from LAST = 0 on, whatever the internal registers hold, and the last of them is
LAST. -/
theorem lastDoesNotPersist : Obligations.LastDoesNotPersist := by
  intro s t d h hdone
  obtain ⟨hpass, rfl⟩ := exec_completed h hdone
  have hpass' : firstFailing (checksOf .demodr { s with dp := d }) = none := hpass
  refine ⟨⟨_, exec_of_firstFailing_none hpass', rfl, rfl⟩, ?last⟩
  case last =>
    have last : (effectOf .demodr s).complete.dp.last = s.robustBits.getLastD .zero := s.robustDp_last
    have bolen : (effectOf .demodr s).complete.bolen = s.robustBits.length := rfl
    rw [last, bolen, getLastD_val]
    split
    · rfl
    · next hne => rw [effectOf_demodr, State.boAt_completed s _ _ (Nat.sub_one_lt hne)]

/-- Settles O58: DEMODR leaves the peak it normalised by. -/
theorem peakHoldsThePeak : Obligations.PeakHoldsThePeak := by
  intro s t hN h hdone
  have peak := peak_demodr h hdone
  exact ⟨peak, peak ▸ State.robustPeak_isPeak hN⟩

/-- Settles O37: the ratio of a silent window is 0, so a bit is 1 exactly when 0 is above RHI, or, within the
thresholds, when the bit before it is. -/
theorem robustSilence : Obligations.RobustSilence := by
  intro s t hN h hdone hsilent
  have peak : s.robustPeak.eval = 0 := State.isPeak_unique (State.robustPeak_isPeak hN) (State.isPeak_zero hsilent)
  have bolen := bolen_demodr h hdone
  have ratio (k : ℕ) (hk : k < s.windowCount) : s.bandRatio s.robustPeak.eval k = 0 :=
    State.bandRatio_of_silent fun j hj => by
      rw [peak, State.normalSample_zero]
      exact hsilent _ (window_index_lt hk hj)
  refine ⟨by rw [peak_demodr h hdone, peak], bolen, fun k hk => ?bits⟩
  rw [bolen] at hk
  induction k with
  | zero =>
    rw [boAt_demodr_val hN h hdone hk, ratio 0 hk]
    simp
  | succ k ih =>
    have before := ih (Nat.lt_of_succ_lt hk)
    rw [boAt_demodr_val hN h hdone hk, ratio _ hk]
    by_cases hhi : s.rhi.eval < 0
    · simp [hhi]
    · simp [hhi, before]

/-- Settles O38: no check reads RX, and the normalised buffer, hence every ratio, is the same under a positive scale. -/
theorem robustIgnoresPositiveScale : Obligations.RobustIgnoresPositiveScale := by
  intro s s' t t' c hN hc hpar hf0 hf1 hsymdur hfs hbw hrhi hrlo hrxlen hrx ht ht' hdone
  have hscaled : State.ScaledBy c s s' := ⟨hpar, hsymdur, hfs, hrxlen, hrx⟩
  have same_input : s.AgreeOn { s' with rx := s.rx } .demodr :=
    ⟨hpar, hf0, hf1, hsymdur, hfs, hbw, hrhi, hrlo, hrxlen, fun _ _ => rfl⟩
  have hchecks : checksOf .demodr s = checksOf .demodr s' := (checksOf_agree same_input).trans (checksOf_rx _ _ _)
  have hdone' : t'.status = 0x01#8 := completes_of_checks hchecks ht hdone ht'
  have hN' : s'.Real := (congrArg Params.num hpar).symm.trans hN
  have hp := State.robustPeak_isPeak hN
  have peak : s'.robustPeak.eval = c * s.robustPeak.eval :=
    State.isPeak_unique (State.robustPeak_isPeak hN') (hscaled.isPeak hc hp)
  have ratio (k : ℕ) (hk : k < s.windowCount) :
      s'.bandRatio s'.robustPeak.eval k = s.bandRatio s.robustPeak.eval k := by
    rw [peak, hscaled.bandRatio_eq hc hbw hp hk hf0 hf1]
  refine ⟨hdone', by rw [bolen_demodr ht hdone, bolen_demodr ht' hdone', hscaled.windowCount_eq], fun k hk => ?bits⟩
  rw [bolen_demodr ht hdone] at hk
  induction k with
  | zero =>
    rw [boAt_demodr_val hN ht hdone hk, boAt_demodr_val hN' ht' hdone' (hscaled.windowCount_eq ▸ hk), ratio _ hk,
      ← hrhi, ← hrlo]
    rfl
  | succ k ih =>
    have before := ih (Nat.lt_of_succ_lt hk)
    rw [boAt_demodr_val hN ht hdone hk, boAt_demodr_val hN' ht' hdone' (hscaled.windowCount_eq ▸ hk), ratio _ hk,
      ← hrhi, ← hrlo, Nat.add_sub_cancel, before]

end Sys2Proof.Machine

/-! What a command leaves unchanged, and what it reads (10 R29, R32, 20 R42, R53, 60 R165); the statements on frames,
output memories and inputs. -/

namespace Sys2Proof.Machine

open Sys2Proof

/-! ## Output memories after a completed command (20 R42) -/

/-- TX above TXLEN reads as the unspecified values of its new generation (20 R42). -/
theorem State.txAt_putTx_beyond (s : State) (xs : List Scalar) {j : ℕ} (h : xs.length ≤ j) :
    (s.putTx xs).txAt j = scalarDefault .tx (s.tx.gen + 1) j := by
  rw [State.txAt, State.putTx_tx, Mem.read_replace, List.getElem?_eq_none h, Option.getD_none]

/-- BO above BOLEN reads as the unspecified values of its new generation (20 R42). -/
theorem State.boAt_putBo_beyond (s : State) (bs : List Bit) {j : ℕ} (h : bs.length ≤ j) :
    (s.putBo bs).boAt j = bitDefault .bo (s.bo.gen + 1) j := by
  rw [State.boAt, State.putBo_bo, Mem.read_replace, List.getElem?_eq_none h, Option.getD_none]

/-- A completed OSC, SHAPE or MOD wrote samples to TX and the internal registers (20 R42). -/
theorem effectOf_transmit {i : Instr} (hi : i = .osc ∨ i = .shape ∨ i = .mod) (s : State) :
    ∃ xs d, effectOf i s = (s.putTx xs).putDp d := by
  rcases hi with rfl | rfl | rfl
  · exact ⟨_, _, effectOf_osc s⟩
  · exact ⟨_, _, effectOf_shape s⟩
  · exact ⟨_, _, effectOf_mod s⟩

/-- A completed DEMODB or DEMODR wrote bits to BO and the internal registers (20 R42). -/
theorem effectOf_receive {i : Instr} (hi : i = .demodb ∨ i = .demodr) (s : State) :
    ∃ bs d, effectOf i s = (s.putBo bs).putDp d := by
  rcases hi with rfl | rfl
  · exact ⟨_, _, effectOf_demodb s⟩
  · exact ⟨_, _, effectOf_demodr s⟩

/-! ## The output is a function of the inputs (10 R32) -/

/-- States that agree on the inputs of OSC, SHAPE or MOD give the same samples. -/
theorem effectOf_transmit_agree {i : Instr} (hi : i = .osc ∨ i = .shape ∨ i = .mod) {s s' : State}
    (h : s.AgreeOn s' i) :
    ∃ xs d d', effectOf i s = (s.putTx xs).putDp d ∧ effectOf i s' = (s'.putTx xs).putDp d' := by
  rcases hi with rfl | rfl | rfl
  · exact ⟨_, _, _, effectOf_osc s, by rw [oscSamples_agree h, effectOf_osc]⟩
  · exact ⟨_, _, _, effectOf_shape s, by rw [shapeSamples_agree h, effectOf_shape]⟩
  · exact ⟨_, _, _, effectOf_mod s, by rw [modSamples_agree h, effectOf_mod]⟩

/-- States that agree on the inputs of DEMODB or DEMODR give the same bits. -/
theorem effectOf_receive_agree {i : Instr} (hi : i = .demodb ∨ i = .demodr) {s s' : State} (h : s.AgreeOn s' i) :
    ∃ bs d d', effectOf i s = (s.putBo bs).putDp d ∧ effectOf i s' = (s'.putBo bs).putDp d' := by
  rcases hi with rfl | rfl
  · exact ⟨_, _, _, effectOf_demodb s, by rw [basicBits_agree h, effectOf_demodb]⟩
  · exact ⟨_, _, _, effectOf_demodr s, by rw [robustBits_agree h, effectOf_demodr]⟩

/-! ## The internal registers are no input (10 R29) -/

theorem checksOf_dp (i : Instr) (s : State) (d : Datapath) : checksOf i { s with dp := d } = checksOf i s := by
  cases i <;> rfl

/-- Other internal registers before a command change nothing of its effect but the internal registers. -/
theorem effectOf_dp (i : Instr) (s : State) (d : Datapath) :
    effectOf i { s with dp := d } = { effectOf i s with dp := (effectOf i { s with dp := d }).dp } := by
  cases i <;> rfl

/-! ## The statements -/

/-- Settles O39: a fault writes STATUS and CAUSE alone, and an effect TX, TXLEN and, of the internal registers, PHI,
IDX and SYM. -/
theorem transmitFrame : Obligations.TransmitFrame := by
  intro s t i hi h
  obtain ⟨c, -, rfl⟩ | ⟨-, rfl⟩ := exec_cases h
  · exact ⟨rfl, fun _ => rfl, fun _ => ⟨rfl, rfl, rfl⟩, fun _ _ => rfl, fun _ => ⟨rfl, rfl⟩⟩
  · have done : (effectOf i s).complete.status = 0x01#8 := rfl
    have untouched (j : ℕ) : (effectOf i s).complete.rxAt j = s.rxAt j ∧ (effectOf i s).complete.biAt j = s.biAt j ∧
        (effectOf i s).complete.boAt j = s.boAt j := by
      obtain ⟨xs, d, e⟩ := effectOf_transmit hi s
      rw [e]
      exact ⟨rfl, rfl, rfl⟩
    refine ⟨?frame, fun hshape => ?phi, untouched, fun hnot => absurd done hnot, fun hnot => absurd done hnot⟩
    case frame => rcases hi with rfl | rfl | rfl <;> rfl
    case phi =>
      subst hshape
      exact s.shapeDp_phi

/-- Settles O40: a fault writes STATUS and CAUSE alone, and an effect BO, BOLEN and the internal registers its window
loop uses. -/
theorem receiveFrame : Obligations.ReceiveFrame := by
  intro s t i hi h
  obtain ⟨c, -, rfl⟩ | ⟨-, rfl⟩ := exec_cases h
  · exact ⟨rfl, rfl, fun _ => ⟨rfl, rfl, rfl⟩, fun _ => ⟨rfl, rfl, rfl, rfl⟩, fun _ => ⟨rfl, rfl, rfl⟩, fun _ _ => rfl,
      fun _ => ⟨rfl, rfl⟩⟩
  · have done : (effectOf i s).complete.status = 0x01#8 := rfl
    have frame : (effectOf i s).complete = { s with
        status := (effectOf i s).complete.status
        cause := (effectOf i s).complete.cause
        bo := (effectOf i s).complete.bo
        bolen := (effectOf i s).complete.bolen
        dp := (effectOf i s).complete.dp } := by
      obtain ⟨bs, d, e⟩ := effectOf_receive hi s
      rw [e]
      rfl
    have untouched (j : ℕ) : (effectOf i s).complete.txAt j = s.txAt j ∧ (effectOf i s).complete.rxAt j = s.rxAt j ∧
        (effectOf i s).complete.biAt j = s.biAt j := by
      rw [frame]
      exact ⟨rfl, rfl, rfl⟩
    refine ⟨frame, ?phi, fun hb => ?basic, fun hr => ?robust, untouched, fun hnot => absurd done hnot,
      fun hnot => absurd done hnot⟩
    case phi =>
      rcases hi with rfl | rfl
      · exact s.basicDp_phi
      · exact s.robustDp_phi
    case basic =>
      subst hb
      change s.basicDp.last = _ ∧ s.basicDp.peak = _ ∧ s.basicDp.ratio = _
      unfold State.basicDp
      split <;> exact ⟨rfl, rfl, rfl⟩
    case robust =>
      subst hr
      change s.robustDp.gs1_0 = _ ∧ s.robustDp.gs2_0 = _ ∧ s.robustDp.gs1_1 = _ ∧ s.robustDp.gs2_1 = _
      unfold State.robustDp
      split <;> exact ⟨rfl, rfl, rfl, rfl⟩

/-- Settles O41: the output memory gets a new generation, under which it lists only the output's elements. -/
theorem outputBeyondTheLengthIsUnspecified : Obligations.OutputBeyondTheLengthIsUnspecified := by
  intro s t i h hdone
  obtain ⟨-, rfl⟩ := exec_completed h hdone
  refine ⟨fun hi => ?transmit, fun hi => ?receive⟩
  case transmit =>
    obtain ⟨xs, d, e⟩ := effectOf_transmit hi s
    rw [e]
    exact ⟨rfl, fun j hj => s.txAt_putTx_beyond xs hj⟩
  case receive =>
    obtain ⟨bs, d, e⟩ := effectOf_receive hi s
    rw [e]
    exact ⟨rfl, fun j hj => s.boAt_putBo_beyond bs hj⟩

/-- Settles O42: states that agree on a command's inputs have the same checks, and pass the same output on. -/
theorem commandsReadOnlyTheirInputs : Obligations.CommandsReadOnlyTheirInputs := by
  intro i s s' t t' hag h h'
  have hchecks := checksOf_agree hag
  obtain ⟨c, hc, rfl⟩ | ⟨hc, rfl⟩ := exec_cases h
  all_goals rw [hchecks] at hc
  case inl =>
    cases (exec_of_firstFailing_some hc).symm.trans h'
    have rejected := s.takeFault_not_done c
    exact ⟨rfl, rfl, fun hdone => absurd hdone rejected, fun hdone => absurd hdone rejected⟩
  case inr =>
    cases (exec_of_firstFailing_none hc).symm.trans h'
    refine ⟨rfl, rfl, fun _ hi => ?transmit, fun _ hi => ?receive⟩
    case transmit =>
      obtain ⟨xs, d, d', e, e'⟩ := effectOf_transmit_agree hi hag
      rw [e, e']
      exact ⟨rfl, fun j hj => by rw [State.txAt_completed s xs d hj, State.txAt_completed s' xs d' hj]⟩
    case receive =>
      obtain ⟨bs, d, d', e, e'⟩ := effectOf_receive_agree hi hag
      rw [e, e']
      exact ⟨rfl, fun j hj => by rw [State.boAt_completed s bs d hj, State.boAt_completed s' bs d' hj]⟩

/-- Settles O43: neither the checks nor the output of a command read an internal register. -/
theorem internalRegistersAreDead : Obligations.InternalRegistersAreDead := by
  intro i s t d h
  obtain ⟨c, hc, rfl⟩ | ⟨hc, rfl⟩ := exec_cases h
  all_goals rw [← checksOf_dp i s d] at hc
  · exact ⟨d, exec_of_firstFailing_some hc⟩
  · refine ⟨(effectOf i { s with dp := d }).dp, (exec_of_firstFailing_none hc).trans ?_⟩
    rw [effectOf_dp]
    rfl

end Sys2Proof.Machine

/-! The host's transactions (10 R11, R22, R31, 20 R41, R42, R45, 93 U3, U4): when each answers and what it answers; the
statements on them. -/

namespace Sys2Proof.Machine

open Sys2Proof

/-! ## A transaction by its kind (30 R66) -/

theorem transact_wr {r : Byte} {v : Value} (h : (Txn.wr r v).wf = true) (s : State) :
    transact (.wr r v) s = hostWrite r v s := if_pos h

theorem transact_rd (r : Byte) (s : State) : transact (.rd r) s = .next (hostRead r s) := rfl

theorem transact_st {m : MemId} {v : Value} (h : v.kind = some (memKind m)) (i : ℕ) (s : State) :
    transact (.st m i v) s = hostStore m i v s := if_pos (beq_iff_eq.mpr h)

theorem transact_ld (m : MemId) (i : ℕ) (s : State) : transact (.ld m i) s = hostLoad m i s := rfl

/-- A transaction with a value of another type is none of the interface (10 R11). -/
theorem transact_untyped {x : Txn} (h : x.wf = false) (s : State) : transact x s = .refused .notATransaction := by
  rw [transact.eq_def, if_neg (Bool.eq_false_iff.mp h)]

theorem wf_wr_reg_iff {r : Byte} {reg : Reg} (hr : regOfNumber r = some reg) (v : Value) :
    (Txn.wr r v).wf = true ↔ v.kind = some (regKind reg) := by
  simp [Txn.wf, hr]

theorem wf_st_iff (m : MemId) (i : ℕ) (v : Value) : (Txn.st m i v).wf = true ↔ v.kind = some (memKind m) := by
  simp [Txn.wf]

/-! ## Register writes and reads (10 R16, R22, R31, 20 R45) -/

theorem writeLength_within {cap n : ℕ} (h : n ≤ cap) (s : State) (r : Reg) :
    writeLength s r cap n = .next (s.setReg r (.count n)) := if_neg h.not_gt

theorem writeLength_above {cap n : ℕ} (h : cap < n) (s : State) (r : Reg) :
    writeLength s r cap n = .refused .lengthAboveCapacity := if_pos h

theorem hostWrite_reserved {r : Byte} (hr : regOfNumber r = none) (v : Value) (s : State) :
    hostWrite r v s = .next s := by
  simp only [hostWrite, hr]

theorem hostWrite_cmd {r : Byte} (hr : regOfNumber r = some .cmd) (b : Byte) (s : State) :
    hostWrite r (.byte b) s = runCommand b s := by
  simp only [hostWrite, hr]

theorem hostWrite_rxlen {r : Byte} (hr : regOfNumber r = some .rxlen) (n : ℕ) (s : State) :
    hostWrite r (.count n) s = writeLength s .rxlen s.par.rxcap n := by
  simp only [hostWrite, hr]

theorem hostWrite_bilen {r : Byte} (hr : regOfNumber r = some .bilen) (n : ℕ) (s : State) :
    hostWrite r (.count n) s = writeLength s .bilen s.par.bicap n := by
  simp only [hostWrite, hr]

/-- A write to a register other than CMD, within the bound of a length register, sets it (10 R11, R22). -/
theorem hostWrite_setReg {r : Byte} {reg : Reg} {v : Value} {s : State} (hr : regOfNumber r = some reg)
    (hcmd : reg ≠ .cmd) (hlen : lengthWithin s reg v = true) : hostWrite r v s = .next (s.setReg reg v) := by
  unfold hostWrite
  rw [hr]
  split
  case h_1 e => cases e
  case h_2 e => cases e; exact absurd rfl hcmd
  case h_3 e => cases e; exact writeLength_within (of_decide_eq_true hlen) _ _
  case h_4 e => cases e; exact writeLength_within (of_decide_eq_true hlen) _ _
  case h_5 e _ _ _ => cases e; rfl

/-- Only the two length registers the host writes have a bound (10 R22). -/
theorem lengthWithin_of_readOnly {reg : Reg} (h : regWritable reg = false) (s : State) (v : Value) :
    lengthWithin s reg v = true := by
  unfold lengthWithin
  split
  · exact absurd h (by decide)
  · exact absurd h (by decide)
  · rfl

/-- A typed write to a read-only register changes nothing (10 R31). -/
theorem hostWrite_readOnly {r : Byte} {reg : Reg} (hr : regOfNumber r = some reg) (hro : regWritable reg = false)
    (v : Value) (s : State) : hostWrite r v s = .next s := by
  have hcmd : reg ≠ .cmd := fun e => absurd hro (by rw [e]; decide)
  rw [hostWrite_setReg hr hcmd (lengthWithin_of_readOnly hro s v), State.setReg_readOnly s reg v hro]

theorem hostRead_reg {r : Byte} {reg : Reg} (hr : regOfNumber r = some reg) (s : State) :
    hostRead r s = s.answer (s.readReg reg) := by
  rw [hostRead, hr]

/-- The reserved register numbers (10 R31). -/
theorem regOfNumber_eq_none_iff (r : Byte) : regOfNumber r = none ↔
    (0x03 ≤ r.toNat ∧ r.toNat ≤ 0x0F) ∨ (0x1B ≤ r.toNat ∧ r.toNat ≤ 0x1F) ∨ (0x25 ≤ r.toNat ∧ r.toNat ≤ 0x2F) ∨
      (0x34 ≤ r.toNat ∧ r.toNat ≤ 0xFF) := by
  have hr := r.isLt
  constructor
  · intro h
    unfold regOfNumber at h
    split at h
    case h_24 =>
      simp only [imp_false] at *
      omega
    all_goals cases h
  · intro h
    cases e : regOfNumber r with
    | none => rfl
    | some reg =>
      rw [regNumber_of_regOfNumber e] at h
      cases reg <;> exact absurd h (by decide)

/-! ## Element writes and reads (20 R41, R42) -/

section
variable {s : State} {m : MemId} {i : ℕ}

theorem hostStore_within (h : i < s.capacity m) (v : Value) : hostStore m i v s = .next (s.setElement m i v) := if_pos h

theorem hostStore_above (h : s.capacity m ≤ i) (v : Value) : hostStore m i v s = .fault .noSuchElement :=
  if_neg h.not_gt

theorem hostLoad_above (h : s.capacity m ≤ i) : hostLoad m i s = .fault .noSuchElement := if_neg h.not_gt

theorem hostLoad_valid (h : i < s.capacity m) (hlen : i < s.length m) :
    hostLoad m i s = .next (s.answer (s.elementAt m i)) := by
  rw [hostLoad, if_pos h, if_pos hlen]

theorem hostLoad_beyond (h : i < s.capacity m) (hlen : s.length m ≤ i) :
    hostLoad m i s = .next (s.answer (s.unspecifiedElement m)) := by
  rw [hostLoad, if_pos h, if_neg hlen.not_gt]

end

theorem State.unspecifiedElement_kind (s : State) (m : MemId) : (s.unspecifiedElement m).kind = some (memKind m) := by
  cases m <;> rfl

/-- A load to an element that exists answers (20 R41). -/
theorem hostLoad_answers {s : State} {m : MemId} {i : ℕ} (h : i < s.capacity m) : ∃ t, hostLoad m i s = .next t := by
  by_cases hlen : i < s.length m
  · exact ⟨_, hostLoad_valid h hlen⟩
  · exact ⟨_, hostLoad_beyond h (not_lt.mp hlen)⟩

/-- A typed write to a register of the map, within the bound of a length register, answers (10 R22, 60 R155). -/
theorem hostWrite_answers {r : Byte} {reg : Reg} {v : Value} {s : State} (hr : regOfNumber r = some reg)
    (hk : v.kind = some (regKind reg)) (hlen : lengthWithin s reg v = true) : ∃ t, hostWrite r v s = .next t := by
  by_cases hcmd : reg = .cmd
  · subst hcmd
    obtain ⟨b, rfl⟩ : ∃ b, v = .byte b := by
      cases v <;> cases hk
      exact ⟨_, rfl⟩
    obtain ⟨t, ht⟩ := runCommand_answers b s
    exact ⟨t, (hostWrite_cmd hr b s).trans ht⟩
  · exact ⟨_, hostWrite_setReg hr hcmd hlen⟩

/-! ## The statements -/

/-- Settles O44: the write sets the one register. -/
theorem registerWriteThenRead : Obligations.RegisterWriteThenRead := by
  intro s r v hw hcmd hk hlen
  have hr : regOfNumber (regNumber r) = some r := regOfNumber_regNumber r
  refine ⟨s.setReg r v, ?next, State.readReg_setReg_same s r v hcmd hw hk,
    fun q hq => State.readReg_setReg_other s r q v hq, by simp⟩
  case next => rw [transact_wr ((wf_wr_reg_iff hr v).mpr hk), hostWrite_setReg hr hcmd hlen]

/-- Settles O45: the gaps of the register map are the reserved numbers, and neither they nor the read-only registers
take a value. -/
theorem reservedAndReadOnlyAccess : Obligations.ReservedAndReadOnlyAccess := by
  refine ⟨regOfNumber_eq_none_iff, fun s r v hwf hr => ?write, fun s r hr => ?read⟩
  case write =>
    rw [transact_wr hwf]
    rcases hr with hr | ⟨reg, hmem, hr⟩
    · exact hostWrite_reserved hr v s
    · have readOnly : ∀ reg ∈ [Reg.status, .cause, .sync, .tapern, .eps, .txlen, .bolen], regWritable reg = false := by
        decide
      exact hostWrite_readOnly hr (readOnly reg hmem) v s
  case read =>
    rw [transact_rd, hostRead, hr]
    exact ⟨_, rfl⟩

/-- Settles O46: a read and a load answer one value. -/
theorem readsHaveNoSideEffects : Obligations.ReadsHaveNoSideEffects := by
  refine ⟨fun s reg => ?read, fun s t m i h => ?load⟩
  case read =>
    rw [transact_rd, hostRead_reg (regOfNumber_regNumber reg)]
    rfl
  case load =>
    obtain ⟨-, v, rfl⟩ := hostLoad_cases ((transact_ld m i s).symm.trans h)
    exact ⟨v, rfl⟩

/-- Settles O47: a store to RX or BI is one write of the memory, and TX and BO take none. -/
theorem storeThenLoad : Obligations.StoreThenLoad := by
  refine ⟨fun s i x hi => ?rx, fun s i b hi => ?bi, fun s i x hi => ?tx, fun s i b hi => ?bo⟩
  case rx =>
    refine ⟨{ s with rx := s.rx.write (scalarDefault .rx) i x }, ?_, Mem.read_write_same _ _ _ _,
      fun j hj => Mem.read_write_other _ _ hj _, rfl⟩
    rw [transact_st rfl, hostStore_within hi]
    rfl
  case bi =>
    refine ⟨{ s with bi := s.bi.write (bitDefault .bi) i b }, ?_, Mem.read_write_same _ _ _ _,
      fun j hj => Mem.read_write_other _ _ hj _, rfl⟩
    rw [transact_st rfl, hostStore_within hi]
    rfl
  case tx => rw [transact_st rfl, hostStore_within hi, State.setElement_output _ _ _ _ (.inl rfl)]
  case bo => rw [transact_st rfl, hostStore_within hi, State.setElement_output _ _ _ _ (.inr rfl)]

/-- Settles O48: a load answers the element below the length register and an unspecified one from it on. -/
theorem loadReturnsTheElement : Obligations.LoadReturnsTheElement :=
  ⟨fun _ _ hlen hcap => hostLoad_valid (m := .tx) hcap hlen, fun _ _ hlen hcap => hostLoad_valid (m := .rx) hcap hlen,
    fun _ _ hlen hcap => hostLoad_valid (m := .bi) hcap hlen, fun _ _ hlen hcap => hostLoad_valid (m := .bo) hcap hlen,
    fun s m _ hlen hcap => ⟨s.unspecifiedElement m, s.unspecifiedElement_kind m, hostLoad_beyond hcap hlen⟩⟩

/-- Settles O49: each of the host's violations meets the test that names it. -/
theorem undefinedTransactionsStop : Obligations.UndefinedTransactionsStop := by
  refine ⟨fun s m i hi => hostLoad_above hi, fun s m i v hi hk => ?store, fun s n hn => ?rxlen, fun s n hn => ?bilen,
    fun s r v hk => ?register, fun s m i v hk => ?element⟩
  case store => rw [transact_st hk, hostStore_above hi]
  case rxlen => rw [transact_wr rfl, hostWrite_rxlen rfl, writeLength_above hn]
  case bilen => rw [transact_wr rfl, hostWrite_bilen rfl, writeLength_above hn]
  case register =>
    exact transact_untyped (Bool.eq_false_iff.mpr (mt (wf_wr_reg_iff (regOfNumber_regNumber r) v).mp hk)) s
  case element => exact transact_untyped (Bool.eq_false_iff.mpr (mt (wf_st_iff m i v).mp hk)) s

/-- Settles O50: a legal transaction is typed and meets the bound that its kind has. -/
theorem legalTransactionsNeverStop : Obligations.LegalTransactionsNeverStop := by
  intro s x hlegal
  cases x with
  | wr r v =>
    obtain ⟨hwf, hmap⟩ := Bool.and_eq_true_iff.mp hlegal
    rw [transact_wr hwf]
    cases hr : regOfNumber r with
    | none => simp [hr] at hmap
    | some reg =>
      have hlen : lengthWithin s reg v = true := by
        simp only [hr, Bool.and_eq_true] at hmap
        exact hmap.2
      exact hostWrite_answers hr ((wf_wr_reg_iff hr v).mp hwf) hlen
  | rd r => exact ⟨_, transact_rd r s⟩
  | st m i v =>
    obtain ⟨hwf, hbound⟩ := Bool.and_eq_true_iff.mp hlegal
    rw [transact_st ((wf_st_iff m i v).mp hwf)]
    exact ⟨_, hostStore_within (of_decide_eq_true (Bool.and_eq_true_iff.mp hbound).1) v⟩
  | ld m i =>
    obtain ⟨-, hbound⟩ := Bool.and_eq_true_iff.mp hlegal
    exact hostLoad_answers (of_decide_eq_true hbound)

end Sys2Proof.Machine

/-! Reset (10 R30, 70 R180), MOD right after it (95 V-RST-2), and the host's Framer (45 R146 to R148); the statements on
them. -/

namespace Sys2Proof.Machine

open Sys2Proof

/-! ## The configuration at reset (10 R30) -/

theorem Scalar.eval_mkRat (n : ℤ) (d : ℕ) : (Scalar.rat (mkRat n d)).eval = n / d := by
  rw [Scalar.eval_rat, Rat.mkRat_eq_div]
  push_cast
  rfl

theorem reset_f0_eval : State.reset.f0.eval = 1000 :=
  (Scalar.eval_mkRat 1000 1).trans (by norm_num)

theorem reset_f1_eval : State.reset.f1.eval = 2000 :=
  (Scalar.eval_mkRat 2000 1).trans (by norm_num)

theorem reset_symdur_eval : State.reset.symdur.eval = 1 / 10 :=
  (Scalar.eval_mkRat 1 10).trans (by norm_num)

theorem reset_fs_eval : State.reset.fs.eval = 44100 :=
  (Scalar.eval_mkRat 44100 1).trans (by norm_num)

theorem reset_real : State.reset.Real := rfl

/-- One symbol at reset is 4410 samples (10 R18, R30). -/
theorem reset_symbol_floor : ⌊State.reset.symdur.eval * State.reset.fs.eval⌋ = 4410 := by
  rw [reset_symdur_eval, reset_fs_eval]
  norm_num

theorem reset_windowBad : State.reset.windowBad = false :=
  (State.windowBad_eq_false_real reset_real).mpr (by rw [reset_symbol_floor]; decide)

theorem reset_symbolLen : State.reset.symbolLen = 4410 := by
  have hlen := State.symbolLen_real reset_real reset_windowBad
  rw [reset_symbol_floor] at hlen
  exact_mod_cast hlen

/-! ## The Framer (45 R146 to R148) -/

theorem numeralValue_append (bs : List Bool) (b : Bool) :
    numeralValue (bs ++ [b]) = 2 * numeralValue bs + b.toNat := by
  simp [numeralValue]

/-- The `n`-digit binary numeral of a number's low bits, most significant first, denotes the number modulo `2^n`. -/
theorem numeralValue_testBits (n c : ℕ) :
    numeralValue ((List.range n).map fun i => c.testBit (n - 1 - i)) = c % 2 ^ n := by
  induction n generalizing c with
  | zero => simp [numeralValue, Nat.mod_one]
  | succ n ih =>
    have high : ((List.range n).map fun i => c.testBit (n + 1 - 1 - i)) =
        (List.range n).map fun i => (c / 2).testBit (n - 1 - i) :=
      list_range_map_congr fun i hi => by
        rw [← Nat.testBit_succ]
        congr 1
        omega
    have low : (c.testBit (n + 1 - 1 - n)).toNat = c % 2 := by
      rw [Nat.add_sub_cancel, Nat.sub_self, Nat.toNat_testBit, pow_zero, Nat.div_one]
    rw [List.range_succ, List.map_append, List.map_singleton, numeralValue_append, high, ih, low, pow_succ',
      Nat.mod_mul, add_comm]

/-- The numeral of a code point below 256 denotes it (45 R146). -/
theorem numeralValue_codeBits {c : ℕ} (h : c < 256) : numeralValue (codeBits c) = c :=
  (numeralValue_testBits 8 c).trans (Nat.mod_eq_of_lt h)

@[simp] theorem codeBits_length (c : ℕ) : (codeBits c).length = 8 := by simp [codeBits]

/-- The first group of eight bits gives the first code point (45 R147). -/
theorem bitsToText_append {b : List Bool} (hb : b.length = 8) (bs : List Bool) :
    bitsToText (b ++ bs) = numeralValue b :: bitsToText bs := by
  have groups : (b ++ bs).length / 8 = bs.length / 8 + 1 := by
    rw [List.length_append, hb]
    omega
  have first : ((b ++ bs).drop (8 * 0)).take 8 = b := by simp [← hb]
  have later (c : ℕ) : (b ++ bs).drop (8 * (c + 1)) = bs.drop (8 * c) := by
    rw [Nat.mul_succ, Nat.add_comm, ← List.drop_drop, ← hb, List.drop_left]
  rw [bitsToText, groups, List.range_succ_eq_map, List.map_cons, first, List.map_map]
  exact congrArg _ (List.map_congr_left fun c _ => by rw [Function.comp_apply, later])

/-- Packing undoes the numerals of code points below 256 (45 R146, R147). -/
theorem bitsToText_codeBits {text : List ℕ} (h : ∀ c ∈ text, c < 256) : bitsToText (text.flatMap codeBits) = text := by
  induction text with
  | nil => rfl
  | cons c text ih =>
    obtain ⟨hc, htext⟩ := List.forall_mem_cons.mp h
    rw [List.flatMap_cons, bitsToText_append (codeBits_length c), numeralValue_codeBits hc, ih htext]

/-- The preamble is found where it begins the bits (45 R148). -/
theorem stripPreamble_sync (bits : List Bool) : stripPreamble (syncPattern ++ bits) = bits := rfl

theorem textToBits_eq {text : List ℕ} (h : ∀ c ∈ text, c < 256) : textToBits text = some (text.flatMap codeBits) :=
  if_pos (List.all_eq_true.mpr fun c hc => decide_eq_true (h c hc))

/-! ## The statements -/

/-- Settles O51: the numerals of the reset state denote the values of R30. -/
theorem resetValues : Obligations.ResetValues := by
  refine ⟨rfl, rfl, rfl, reset_f0_eval, reset_f1_eval, reset_symdur_eval, reset_fs_eval, ?amp, ?bw, ?rhi, ?rlo, rfl,
    rfl, ?eps, rfl, rfl, rfl, rfl⟩
  case amp => exact (Scalar.eval_mkRat 2 5).trans (by norm_num)
  case bw => exact (Scalar.eval_mkRat 220 1).trans (by norm_num)
  case rhi => exact (Scalar.eval_mkRat 29 50).trans (by norm_num)
  case rlo => exact (Scalar.eval_mkRat 21 50).trans (by norm_num)
  case eps => exact (Scalar.eval_mkRat 1 1000000000000).trans (by norm_num)

/-- Settles O52: the reset event keeps of the block's state its parameters alone, and EPS is the only register that
reads one. -/
theorem resetAnyTime : Obligations.ResetAnyTime := by
  intro s r hr
  refine ⟨?reads, rfl, rfl⟩
  case reads =>
    cases r
    case eps => exact absurd rfl hr
    all_goals rfl

/-- Settles O26: at reset no check of MOD fails, and it sends the 8 symbols of SYNC, each of 4410 samples. -/
theorem modAtReset : Obligations.ModAtReset := by
  have hr : State.reset.rateBad = false :=
    (State.rateBad_eq_false_real reset_real).mpr (by rw [reset_fs_eval]; norm_num)
  have hf : State.reset.freqBad = false := by
    rw [State.freqBad_eq_false_real reset_real, reset_f0_eval, reset_f1_eval, reset_fs_eval]
    norm_num
  have count : State.reset.symbolCount * State.reset.symbolLen = 35280 := by
    rw [reset_symbolLen]
    rfl
  have hcap : State.reset.symbolCount * State.reset.symbolLen ≤ State.reset.par.txcap := by
    rw [count]
    decide
  exact ⟨_, exec_mod_completes hr reset_windowBad hf hcap, rfl, rfl, State.reset.txlen_mod_completed.trans count⟩

/-- Settles O54: the preamble begins the bits, and packing reads each code point's numeral back. -/
theorem framerRoundTrip : Obligations.FramerRoundTrip := by
  intro text h
  refine ⟨text.flatMap codeBits, textToBits_eq h, ?length, ?text⟩
  case length => rw [flatMap_length codeBits 8 codeBits_length, Nat.mul_comm]
  case text => rw [stripPreamble_sync, bitsToText_codeBits h]

end Sys2Proof.Machine
